-- ==== Sys2Proof/Word.lean ====
section
/-! DEFINITION. The two widths of the block (00_scope.md R5): data is 8 bits, addresses are 16 bits.
Everything computed on them stands in files under Machine/. -/

namespace Sys2Proof

/-- A data value: A, X, Y, SP, P, every memory cell and every bus transfer (00_scope.md R5). -/
abbrev Byte := BitVec 8

/-- An address or the program counter (00_scope.md R5). -/
abbrev Word := BitVec 16

end Sys2Proof
end

