-- ==== Sys2Proof/Machine/Bits.lean ====
section
/-! DEFINITION. Bit fields, extension and byte order (00_scope.md R7, R9; 20_memory.md R54). -/

namespace Sys2Proof.Machine

/-- `zext_16(b)` (00_scope.md R9). -/
def zext16 (b : Byte) : Word := b.setWidth 16

/-- `sext_16(b)` (00_scope.md R9). -/
def sext16 (b : Byte) : Word := b.signExtend 16

/-- `hi8 : lo8`, the 16-bit value `hi8 * 256 + lo8` (00_scope.md R7). -/
def mkWord (hi lo : Byte) : Word := hi ++ lo

/-- `w[15:8]`. -/
def hiByte (w : Word) : Byte := w.extractLsb' 8 8

/-- `w[7:0]`. -/
def loByte (w : Word) : Byte := w.extractLsb' 0 8

end Sys2Proof.Machine
end

