-- ==== Sys2Proof/Syntax/Mode.lean ====
section
/-! DEFINITION. The names an instruction is made of: the twelve addressing modes, an operand (a mode
with its operand bytes) and the 57 operations (30_encoding.md R81, R90). -/

namespace Sys2Proof

/-- The twelve addressing modes, in the order of 30_encoding.md R81. -/
inductive Mode
  | imp | imm | zp0 | zpx | zpy | abs | abx | aby | ind | izx | izy | rel
  deriving DecidableEq, Repr

/-- An operand: the mode with the bytes that follow the opcode (30_encoding.md R81, R82). The two
bytes `lo8`, `hi8` of an absolute form stand assembled as one address. -/
inductive Operand
  /-- Implied, the accumulator form of the shifts included (R101). -/
  | imp
  /-- Immediate (R102). -/
  | imm (value : Byte)
  /-- Zero-Page (R103). -/
  | zp0 (zp8 : Byte)
  /-- Zero-Page+X (R104). -/
  | zpx (zp8 : Byte)
  /-- Zero-Page+Y (R105). -/
  | zpy (zp8 : Byte)
  /-- Absolute (R106). -/
  | abs (addr : Word)
  /-- Absolute+X (R107). -/
  | abx (base : Word)
  /-- Absolute+Y (R108). -/
  | aby (base : Word)
  /-- Indirect (R109). -/
  | ind (ptr : Word)
  /-- Indexed-Indirect (R110). -/
  | izx (zp8 : Byte)
  /-- Indirect-Indexed (R111). -/
  | izy (zp8 : Byte)
  /-- Relative (R112). -/
  | rel (rel8 : Byte)
  deriving DecidableEq, Repr

/-- The mode of an operand. -/
def Operand.mode : Operand → Mode
  | .imp => .imp
  | .imm _ => .imm
  | .zp0 _ => .zp0
  | .zpx _ => .zpx
  | .zpy _ => .zpy
  | .abs _ => .abs
  | .abx _ => .abx
  | .aby _ => .aby
  | .ind _ => .ind
  | .izx _ => .izx
  | .izy _ => .izy
  | .rel _ => .rel

/-- The operations a descriptor can name: the 56 documented mnemonics in the order of
30_encoding.md R91, and UND (R90). -/
inductive Mnemonic
  | adc | sbc
  | and | ora | eor | bit
  | asl | lsr | rol | ror
  | cmp | cpx | cpy
  | inc | dec | inx | iny | dex | dey
  | lda | ldx | ldy | sta | stx | sty
  | tax | tay | txa | tya | tsx | txs
  | pha | pla | php | plp
  | jmp | jsr | rts
  | bcc | bcs | beq | bne | bpl | bmi | bvc | bvs
  | brk | rti
  | clc | sec | cli | sei | cld | sed | clv
  | nop | und
  deriving DecidableEq, Repr

end Sys2Proof
end

