-- ==== Sys2Proof/Config.lean ====
section
/-! DEFINITION. The named parameters of 00_scope.md R6, which a model takes as arguments, and the
constraints R6 puts on them. The spec's defaults are `Config.default` in Decode.lean. `INIT_MEM` is
no field: it is the memory of the start state (log entry 3). -/

namespace Sys2Proof

/-- The 105 undefined opcodes, as 30_encoding.md R93 lists them. -/
def undefinedOpcodes : List Byte :=
  [0x02, 0x03, 0x04, 0x07, 0x0B, 0x0C, 0x0F, 0x12, 0x13, 0x14, 0x17, 0x1A, 0x1B, 0x1C, 0x1F] ++
  [0x22, 0x23, 0x27, 0x2B, 0x2F, 0x32, 0x33, 0x34, 0x37, 0x3A, 0x3B, 0x3C, 0x3F] ++
  [0x42, 0x43, 0x44, 0x47, 0x4B, 0x4F, 0x52, 0x53, 0x54, 0x57, 0x5A, 0x5B, 0x5C, 0x5F] ++
  [0x62, 0x63, 0x64, 0x67, 0x6B, 0x6F, 0x72, 0x73, 0x74, 0x77, 0x7A, 0x7B, 0x7C, 0x7F] ++
  [0x80, 0x82, 0x83, 0x87, 0x89, 0x8B, 0x8F, 0x92, 0x93, 0x97, 0x9B, 0x9C, 0x9E, 0x9F] ++
  [0xA3, 0xA7, 0xAB, 0xAF, 0xB2, 0xB3, 0xB7, 0xBB, 0xBF] ++
  [0xC2, 0xC3, 0xC7, 0xCB, 0xCF, 0xD2, 0xD3, 0xD4, 0xD7, 0xDA, 0xDB, 0xDC, 0xDF] ++
  [0xE2, 0xE3, 0xE7, 0xEB, 0xEF, 0xF2, 0xF3, 0xF4, 0xF7, 0xFA, 0xFB, 0xFC, 0xFF]

/-- The parameters of 00_scope.md R6 that the opcode table and the reset event take. -/
structure Config where
  /-- `UNDEF_MODE(op)` (decision D6). -/
  undefMode : Byte → Mode
  /-- `UNDEF_CYCLES(op)` (decision D6). -/
  undefCycles : Byte → Byte
  /-- `UNDEF_EXTRA`, the set as its membership test (decision D6). -/
  undefExtra : Byte → Bool
  /-- `BRK_CYCLES` (decision D7). -/
  brkCycles : Byte
  /-- `BUS_REINIT`, from memory to memory (decision D13); memory is the list of cells of
  Machine/State.lean. -/
  busReinit : List (Nat × BitVec 8) → List (Nat × BitVec 8)

/-- The constraints of 00_scope.md R6 on the counts and on the extra-cycle set. -/
def Config.CountsValid (c : Config) : Prop :=
  (∀ op, 1 ≤ (c.undefCycles op).toNat ∧ (c.undefCycles op).toNat ≤ 254) ∧
  (1 ≤ c.brkCycles.toNat ∧ c.brkCycles.toNat ≤ 254) ∧
  (∀ op, c.undefExtra op = true → op ∈ undefinedOpcodes)

end Sys2Proof
end

