-- ==== Sys2Proof/Syntax.lean ====
section
/-! DEFINITION. The instructions: one constructor for each operation of the opcode table
(30_encoding.md R91, R93). The rows of one mnemonic differ only in the addressing mode, which is the
constructor's operand; a mnemonic with the one mode IMP has no operand (log entry 19). -/

namespace Sys2Proof

/-- An instruction of the block. The rule that gives its meaning is in its docstring. -/
inductive Instr
  /-- ADC, add with carry (R121). -/
  | adc (o : Operand)
  /-- SBC, subtract with carry (R122). -/
  | sbc (o : Operand)
  /-- AND, bitwise and into A (R126). -/
  | and (o : Operand)
  /-- ORA, bitwise or into A (R127). -/
  | ora (o : Operand)
  /-- EOR, bitwise exclusive or into A (R128). -/
  | eor (o : Operand)
  /-- BIT, test bits of memory against A (R129). -/
  | bit (o : Operand)
  /-- ASL, arithmetic shift left (R131). -/
  | asl (o : Operand)
  /-- LSR, logical shift right (R132). -/
  | lsr (o : Operand)
  /-- ROL, rotate left through carry (R133). -/
  | rol (o : Operand)
  /-- ROR, rotate right through carry (R134). -/
  | ror (o : Operand)
  /-- CMP, compare A with memory (R141). -/
  | cmp (o : Operand)
  /-- CPX, compare X with memory (R142). -/
  | cpx (o : Operand)
  /-- CPY, compare Y with memory (R143). -/
  | cpy (o : Operand)
  /-- INC, increment memory (R146). -/
  | inc (o : Operand)
  /-- DEC, decrement memory (R147). -/
  | dec (o : Operand)
  /-- INX, increment X (R148). -/
  | inx
  /-- INY, increment Y (R149). -/
  | iny
  /-- DEX, decrement X (R150). -/
  | dex
  /-- DEY, decrement Y (R151). -/
  | dey
  /-- LDA, load A (R156). -/
  | lda (o : Operand)
  /-- LDX, load X (R157). -/
  | ldx (o : Operand)
  /-- LDY, load Y (R158). -/
  | ldy (o : Operand)
  /-- STA, store A (R159). -/
  | sta (o : Operand)
  /-- STX, store X (R160). -/
  | stx (o : Operand)
  /-- STY, store Y (R161). -/
  | sty (o : Operand)
  /-- TAX, transfer A to X (R162). -/
  | tax
  /-- TAY, transfer A to Y (R163). -/
  | tay
  /-- TXA, transfer X to A (R164). -/
  | txa
  /-- TYA, transfer Y to A (R165). -/
  | tya
  /-- TSX, transfer SP to X (R166). -/
  | tsx
  /-- TXS, transfer X to SP (R167). -/
  | txs
  /-- PHA, push A (R173). -/
  | pha
  /-- PLA, pull A (R174). -/
  | pla
  /-- PHP, push P (R175). -/
  | php
  /-- PLP, pull P (R176). -/
  | plp
  /-- JMP, jump (R180). -/
  | jmp (o : Operand)
  /-- JSR, jump to subroutine (R181). -/
  | jsr (target : Word)
  /-- RTS, return from subroutine (R182). -/
  | rts
  /-- BCC, branch if carry clear (R184). -/
  | bcc (rel8 : Byte)
  /-- BCS, branch if carry set (R185). -/
  | bcs (rel8 : Byte)
  /-- BEQ, branch if Zero set (R186). -/
  | beq (rel8 : Byte)
  /-- BNE, branch if Zero clear (R187). -/
  | bne (rel8 : Byte)
  /-- BPL, branch if Negative clear (R188). -/
  | bpl (rel8 : Byte)
  /-- BMI, branch if Negative set (R189). -/
  | bmi (rel8 : Byte)
  /-- BVC, branch if Overflow clear (R190). -/
  | bvc (rel8 : Byte)
  /-- BVS, branch if Overflow set (R191). -/
  | bvs (rel8 : Byte)
  /-- BRK, software interrupt (R196). -/
  | brk
  /-- RTI, return from interrupt (R197). -/
  | rti
  /-- CLC, clear Carry (R201). -/
  | clc
  /-- SEC, set Carry (R202). -/
  | sec
  /-- CLI, clear Interrupt-disable (R203). -/
  | cli
  /-- SEI, set Interrupt-disable (R204). -/
  | sei
  /-- CLD, clear Decimal (R205). -/
  | cld
  /-- SED, set Decimal (R206). -/
  | sed
  /-- CLV, clear Overflow (R207). -/
  | clv
  /-- NOP, no operation (R208). -/
  | nop
  /-- UND, the operation of the 105 undefined opcodes (R209): the opcode byte, whether it is in
  `UNDEF_EXTRA`, and the operand its mode `UNDEF_MODE` gives it. -/
  | und (op : Byte) (extra : Bool) (o : Operand)
  deriving DecidableEq, Repr

/-- The operation an instruction's descriptor names (30_encoding.md R90). -/
def Instr.mnemonic : Instr → Mnemonic
  | .adc _ => .adc
  | .sbc _ => .sbc
  | .and _ => .and
  | .ora _ => .ora
  | .eor _ => .eor
  | .bit _ => .bit
  | .asl _ => .asl
  | .lsr _ => .lsr
  | .rol _ => .rol
  | .ror _ => .ror
  | .cmp _ => .cmp
  | .cpx _ => .cpx
  | .cpy _ => .cpy
  | .inc _ => .inc
  | .dec _ => .dec
  | .inx => .inx
  | .iny => .iny
  | .dex => .dex
  | .dey => .dey
  | .lda _ => .lda
  | .ldx _ => .ldx
  | .ldy _ => .ldy
  | .sta _ => .sta
  | .stx _ => .stx
  | .sty _ => .sty
  | .tax => .tax
  | .tay => .tay
  | .txa => .txa
  | .tya => .tya
  | .tsx => .tsx
  | .txs => .txs
  | .pha => .pha
  | .pla => .pla
  | .php => .php
  | .plp => .plp
  | .jmp _ => .jmp
  | .jsr _ => .jsr
  | .rts => .rts
  | .bcc _ => .bcc
  | .bcs _ => .bcs
  | .beq _ => .beq
  | .bne _ => .bne
  | .bpl _ => .bpl
  | .bmi _ => .bmi
  | .bvc _ => .bvc
  | .bvs _ => .bvs
  | .brk => .brk
  | .rti => .rti
  | .clc => .clc
  | .sec => .sec
  | .cli => .cli
  | .sei => .sei
  | .cld => .cld
  | .sed => .sed
  | .clv => .clv
  | .nop => .nop
  | .und _ _ _ => .und

/-- The operand of an instruction, with its mode (30_encoding.md R81). -/
def Instr.operand : Instr → Operand
  | .adc o => o
  | .sbc o => o
  | .and o => o
  | .ora o => o
  | .eor o => o
  | .bit o => o
  | .asl o => o
  | .lsr o => o
  | .rol o => o
  | .ror o => o
  | .cmp o => o
  | .cpx o => o
  | .cpy o => o
  | .inc o => o
  | .dec o => o
  | .inx => .imp
  | .iny => .imp
  | .dex => .imp
  | .dey => .imp
  | .lda o => o
  | .ldx o => o
  | .ldy o => o
  | .sta o => o
  | .stx o => o
  | .sty o => o
  | .tax => .imp
  | .tay => .imp
  | .txa => .imp
  | .tya => .imp
  | .tsx => .imp
  | .txs => .imp
  | .pha => .imp
  | .pla => .imp
  | .php => .imp
  | .plp => .imp
  | .jmp o => o
  | .jsr target => .abs target
  | .rts => .imp
  | .bcc rel8 => .rel rel8
  | .bcs rel8 => .rel rel8
  | .beq rel8 => .rel rel8
  | .bne rel8 => .rel rel8
  | .bpl rel8 => .rel rel8
  | .bmi rel8 => .rel rel8
  | .bvc rel8 => .rel rel8
  | .bvs rel8 => .rel rel8
  | .brk => .imp
  | .rti => .imp
  | .clc => .imp
  | .sec => .imp
  | .cli => .imp
  | .sei => .imp
  | .cld => .imp
  | .sed => .imp
  | .clv => .imp
  | .nop => .imp
  | .und _ _ o => o

end Sys2Proof
end

