-- ==== Sys2Proof/WellFormed.lean ====
section
/-! DEFINITION. Which instructions exist: the operand's mode is one the instruction's own rule lists
under "Encoding" (files 41 to 49), and an UND carries an undefined opcode with the mode and the
extra-cycle membership the parameters give it (49_flags_nop_undefined.md R209). -/

namespace Sys2Proof

/-- The eight modes of ADC, SBC, AND, ORA, EOR, CMP and LDA. -/
def readModes : List Mode := [.imm, .zp0, .zpx, .abs, .abx, .aby, .izx, .izy]

/-- The modes an operation has an opcode for, from the Encoding entry of its rule. UND has none of
its own: its modes are the parameter `UNDEF_MODE`. -/
def Mnemonic.modes : Mnemonic → List Mode
  | .adc | .sbc | .and | .ora | .eor | .cmp | .lda => readModes
  | .bit => [.zp0, .abs]
  | .asl | .lsr | .rol | .ror => [.imp, .zp0, .zpx, .abs, .abx]
  | .cpx | .cpy => [.imm, .zp0, .abs]
  | .inc | .dec => [.zp0, .zpx, .abs, .abx]
  | .ldx => [.imm, .zp0, .zpy, .abs, .aby]
  | .ldy => [.imm, .zp0, .zpx, .abs, .abx]
  | .sta => [.zp0, .zpx, .abs, .abx, .aby, .izx, .izy]
  | .stx => [.zp0, .zpy, .abs]
  | .sty => [.zp0, .zpx, .abs]
  | .jmp => [.abs, .ind]
  | .jsr => [.abs]
  | .bcc | .bcs | .beq | .bne | .bpl | .bmi | .bvc | .bvs => [.rel]
  | .inx | .iny | .dex | .dey | .tax | .tay | .txa | .tya | .tsx | .txs => [.imp]
  | .pha | .pla | .php | .plp | .rts | .brk | .rti => [.imp]
  | .clc | .sec | .cli | .sei | .cld | .sed | .clv | .nop => [.imp]
  | .und => []

/-- The check of an UND: its opcode is undefined (30_encoding.md R93), its operand has the mode
`UNDEF_MODE` gives the opcode, and its mark is its membership in `UNDEF_EXTRA` (R209). -/
def undWellFormed (c : Config) (op : Byte) (extra : Bool) (o : Operand) : Bool :=
  undefinedOpcodes.contains op && (o.mode == c.undefMode op) && (extra == c.undefExtra op)

/-- An instruction that some encoding of the table stands for. -/
def Instr.wellFormed (c : Config) (i : Instr) : Bool :=
  match i with
  | .und op extra o => undWellFormed c op extra o
  | i => i.mnemonic.modes.contains i.operand.mode

end Sys2Proof
end

