-- ==== Sys2Proof/Decode.lean ====
section
/-! DEFINITION. The opcode table (30_encoding.md R90 to R93), the spec's default parameters, the
decoder and, after it, the encoder. Decoding a byte never fails (R92); only a byte list that ends
inside an instruction is rejected, by name. -/

namespace Sys2Proof

open Sys2Proof.Machine

/-- One row of the table of 30_encoding.md R91. -/
structure Row where
  opcode : Byte
  operation : Mnemonic
  mode : Mode
  base : Byte
  deriving DecidableEq, Repr

/-- The rows of 41_arithmetic.md (30_encoding.md R91). -/
def arithmeticRows : List Row :=
  [⟨0x69, .adc, .imm, 2⟩, ⟨0x65, .adc, .zp0, 3⟩, ⟨0x75, .adc, .zpx, 4⟩, ⟨0x6D, .adc, .abs, 4⟩,
   ⟨0x7D, .adc, .abx, 4⟩, ⟨0x79, .adc, .aby, 4⟩, ⟨0x61, .adc, .izx, 6⟩, ⟨0x71, .adc, .izy, 5⟩] ++
  [⟨0xE9, .sbc, .imm, 2⟩, ⟨0xE5, .sbc, .zp0, 3⟩, ⟨0xF5, .sbc, .zpx, 4⟩, ⟨0xED, .sbc, .abs, 4⟩,
   ⟨0xFD, .sbc, .abx, 4⟩, ⟨0xF9, .sbc, .aby, 4⟩, ⟨0xE1, .sbc, .izx, 6⟩, ⟨0xF1, .sbc, .izy, 5⟩]

/-- The rows of 42_logical.md (30_encoding.md R91). -/
def logicalRows : List Row :=
  [⟨0x29, .and, .imm, 2⟩, ⟨0x25, .and, .zp0, 3⟩, ⟨0x35, .and, .zpx, 4⟩, ⟨0x2D, .and, .abs, 4⟩,
   ⟨0x3D, .and, .abx, 4⟩, ⟨0x39, .and, .aby, 4⟩, ⟨0x21, .and, .izx, 6⟩, ⟨0x31, .and, .izy, 5⟩] ++
  [⟨0x09, .ora, .imm, 2⟩, ⟨0x05, .ora, .zp0, 3⟩, ⟨0x15, .ora, .zpx, 4⟩, ⟨0x0D, .ora, .abs, 4⟩,
   ⟨0x1D, .ora, .abx, 4⟩, ⟨0x19, .ora, .aby, 4⟩, ⟨0x01, .ora, .izx, 6⟩, ⟨0x11, .ora, .izy, 5⟩] ++
  [⟨0x49, .eor, .imm, 2⟩, ⟨0x45, .eor, .zp0, 3⟩, ⟨0x55, .eor, .zpx, 4⟩, ⟨0x4D, .eor, .abs, 4⟩,
   ⟨0x5D, .eor, .abx, 4⟩, ⟨0x59, .eor, .aby, 4⟩, ⟨0x41, .eor, .izx, 6⟩, ⟨0x51, .eor, .izy, 5⟩] ++
  [⟨0x24, .bit, .zp0, 3⟩, ⟨0x2C, .bit, .abs, 4⟩]

/-- The rows of 43_shift_rotate.md (30_encoding.md R91). -/
def shiftRows : List Row :=
  [⟨0x0A, .asl, .imp, 2⟩, ⟨0x06, .asl, .zp0, 5⟩,
   ⟨0x16, .asl, .zpx, 6⟩, ⟨0x0E, .asl, .abs, 6⟩, ⟨0x1E, .asl, .abx, 7⟩] ++
  [⟨0x4A, .lsr, .imp, 2⟩, ⟨0x46, .lsr, .zp0, 5⟩,
   ⟨0x56, .lsr, .zpx, 6⟩, ⟨0x4E, .lsr, .abs, 6⟩, ⟨0x5E, .lsr, .abx, 7⟩] ++
  [⟨0x2A, .rol, .imp, 2⟩, ⟨0x26, .rol, .zp0, 5⟩,
   ⟨0x36, .rol, .zpx, 6⟩, ⟨0x2E, .rol, .abs, 6⟩, ⟨0x3E, .rol, .abx, 7⟩] ++
  [⟨0x6A, .ror, .imp, 2⟩, ⟨0x66, .ror, .zp0, 5⟩,
   ⟨0x76, .ror, .zpx, 6⟩, ⟨0x6E, .ror, .abs, 6⟩, ⟨0x7E, .ror, .abx, 7⟩]

/-- The rows of 44_compare.md (30_encoding.md R91). -/
def compareRows : List Row :=
  [⟨0xC9, .cmp, .imm, 2⟩, ⟨0xC5, .cmp, .zp0, 3⟩, ⟨0xD5, .cmp, .zpx, 4⟩, ⟨0xCD, .cmp, .abs, 4⟩,
   ⟨0xDD, .cmp, .abx, 4⟩, ⟨0xD9, .cmp, .aby, 4⟩, ⟨0xC1, .cmp, .izx, 6⟩, ⟨0xD1, .cmp, .izy, 5⟩] ++
  [⟨0xE0, .cpx, .imm, 2⟩, ⟨0xE4, .cpx, .zp0, 3⟩, ⟨0xEC, .cpx, .abs, 4⟩] ++
  [⟨0xC0, .cpy, .imm, 2⟩, ⟨0xC4, .cpy, .zp0, 3⟩, ⟨0xCC, .cpy, .abs, 4⟩]

/-- The rows of 45_incdec.md (30_encoding.md R91). -/
def incDecRows : List Row :=
  [⟨0xE6, .inc, .zp0, 5⟩, ⟨0xF6, .inc, .zpx, 6⟩, ⟨0xEE, .inc, .abs, 6⟩, ⟨0xFE, .inc, .abx, 7⟩] ++
  [⟨0xC6, .dec, .zp0, 5⟩, ⟨0xD6, .dec, .zpx, 6⟩, ⟨0xCE, .dec, .abs, 6⟩, ⟨0xDE, .dec, .abx, 7⟩] ++
  [⟨0xE8, .inx, .imp, 2⟩, ⟨0xC8, .iny, .imp, 2⟩, ⟨0xCA, .dex, .imp, 2⟩] ++
  [⟨0x88, .dey, .imp, 2⟩]

/-- The rows of 46_load_store_transfer.md, the loads (30_encoding.md R91). -/
def loadRows : List Row :=
  [⟨0xA9, .lda, .imm, 2⟩, ⟨0xA5, .lda, .zp0, 3⟩, ⟨0xB5, .lda, .zpx, 4⟩, ⟨0xAD, .lda, .abs, 4⟩,
   ⟨0xBD, .lda, .abx, 4⟩, ⟨0xB9, .lda, .aby, 4⟩, ⟨0xA1, .lda, .izx, 6⟩, ⟨0xB1, .lda, .izy, 5⟩] ++
  [⟨0xA2, .ldx, .imm, 2⟩, ⟨0xA6, .ldx, .zp0, 3⟩,
   ⟨0xB6, .ldx, .zpy, 4⟩, ⟨0xAE, .ldx, .abs, 4⟩, ⟨0xBE, .ldx, .aby, 4⟩] ++
  [⟨0xA0, .ldy, .imm, 2⟩, ⟨0xA4, .ldy, .zp0, 3⟩,
   ⟨0xB4, .ldy, .zpx, 4⟩, ⟨0xAC, .ldy, .abs, 4⟩, ⟨0xBC, .ldy, .abx, 4⟩]

/-- The rows of 46_load_store_transfer.md, stores and transfers (30_encoding.md R91). -/
def storeTransferRows : List Row :=
  [⟨0x85, .sta, .zp0, 3⟩, ⟨0x95, .sta, .zpx, 4⟩, ⟨0x8D, .sta, .abs, 4⟩,
   ⟨0x9D, .sta, .abx, 5⟩, ⟨0x99, .sta, .aby, 5⟩, ⟨0x81, .sta, .izx, 6⟩, ⟨0x91, .sta, .izy, 6⟩] ++
  [⟨0x86, .stx, .zp0, 3⟩, ⟨0x96, .stx, .zpy, 4⟩, ⟨0x8E, .stx, .abs, 4⟩] ++
  [⟨0x84, .sty, .zp0, 3⟩, ⟨0x94, .sty, .zpx, 4⟩, ⟨0x8C, .sty, .abs, 4⟩] ++
  [⟨0xAA, .tax, .imp, 2⟩, ⟨0xA8, .tay, .imp, 2⟩, ⟨0x8A, .txa, .imp, 2⟩] ++
  [⟨0x98, .tya, .imp, 2⟩, ⟨0xBA, .tsx, .imp, 2⟩, ⟨0x9A, .txs, .imp, 2⟩]

/-- The rows of 47_stack.md (30_encoding.md R91). -/
def stackRows : List Row :=
  [⟨0x48, .pha, .imp, 3⟩, ⟨0x68, .pla, .imp, 4⟩, ⟨0x08, .php, .imp, 3⟩] ++
  [⟨0x28, .plp, .imp, 4⟩]

/-- The rows of 48_control_flow.md, but for BRK (30_encoding.md R91). -/
def controlRows : List Row :=
  [⟨0x4C, .jmp, .abs, 3⟩, ⟨0x6C, .jmp, .ind, 5⟩, ⟨0x20, .jsr, .abs, 6⟩] ++
  [⟨0x60, .rts, .imp, 6⟩, ⟨0x90, .bcc, .rel, 2⟩, ⟨0xB0, .bcs, .rel, 2⟩] ++
  [⟨0xF0, .beq, .rel, 2⟩, ⟨0xD0, .bne, .rel, 2⟩, ⟨0x10, .bpl, .rel, 2⟩] ++
  [⟨0x30, .bmi, .rel, 2⟩, ⟨0x50, .bvc, .rel, 2⟩, ⟨0x70, .bvs, .rel, 2⟩] ++
  [⟨0x40, .rti, .imp, 6⟩]

/-- The rows of 49_flags_nop_undefined.md (30_encoding.md R91). -/
def flagRows : List Row :=
  [⟨0x18, .clc, .imp, 2⟩, ⟨0x38, .sec, .imp, 2⟩, ⟨0x58, .cli, .imp, 2⟩] ++
  [⟨0x78, .sei, .imp, 2⟩, ⟨0xD8, .cld, .imp, 2⟩, ⟨0xF8, .sed, .imp, 2⟩] ++
  [⟨0xB8, .clv, .imp, 2⟩, ⟨0xEA, .nop, .imp, 2⟩]

/-- The documented rows of 30_encoding.md R91 that no parameter touches: all but BRK's. The opcode
values and base counts are general knowledge in the spec (log entry 7). -/
def fixedRows : List Row :=
  arithmeticRows ++ logicalRows ++ shiftRows ++ compareRows ++ incDecRows ++
  loadRows ++ storeTransferRows ++ stackRows ++ controlRows ++ flagRows

/-- The 151 documented rows of 30_encoding.md R91. BRK's count is the parameter `BRK_CYCLES`
(decision D7; log entry 6). -/
def documentedRows (c : Config) : List Row := ⟨0x00, .brk, .imp, c.brkCycles⟩ :: fixedRows

/-- The descriptor of an opcode byte (30_encoding.md R90): its documented row, or the UND row with
the mode and count the parameters give (R93). Total over all 256 values (R92). -/
def describe (c : Config) (op : Byte) : Row :=
  match (documentedRows c).find? (fun r => r.opcode == op) with
  | some r => r
  | none => ⟨op, .und, c.undefMode op, c.undefCycles op⟩

/-- The default of `UNDEF_MODE` (00_scope.md R6, decision D6; log entry 5). -/
def defaultUndefMode (_ : Byte) : Mode := .imp

/-- The default of `UNDEF_CYCLES` (00_scope.md R6, decision D6; log entry 5). -/
def defaultUndefCycles (_ : Byte) : Byte := 2

/-- The default of `UNDEF_EXTRA` (00_scope.md R6, decision D6; log entry 5). -/
def defaultUndefExtra (op : Byte) : Bool :=
  ([0x1C, 0x3C, 0x5C, 0x7C, 0xDC, 0xFC] : List Byte).contains op

/-- The default of `BRK_CYCLES` (00_scope.md R6, decision D7; log entry 6). -/
def defaultBrkCycles : Byte := 7

/-- The default of `BUS_REINIT`, the identity (00_scope.md R6, decision D13; log entry 4). -/
def defaultBusReinit (m : List (Nat × BitVec 8)) : List (Nat × BitVec 8) := m

/-- The parameters at the spec's defaults (00_scope.md R6): the machine of `step`. -/
def Config.default : Config where
  undefMode := defaultUndefMode
  undefCycles := defaultUndefCycles
  undefExtra := defaultUndefExtra
  brkCycles := defaultBrkCycles
  busReinit := defaultBusReinit

/-- How many operand bytes a mode has (30_encoding.md R81, 40_addressing_modes.md R116). -/
def operandBytes : Mode → Nat
  | .imp => 0
  | .imm | .zp0 | .zpx | .zpy | .izx | .izy | .rel => 1
  | .abs | .abx | .aby | .ind => 2

/-- An instruction's length in bytes, a function of the mode alone (30_encoding.md R80, R81). -/
def Instr.length (i : Instr) : Nat := 1 + operandBytes i.operand.mode

/-- The operand a mode makes of the two bytes after the opcode, the low byte first
(30_encoding.md R81, R82; 20_memory.md R54). A mode with fewer operand bytes ignores the others. -/
def assemble (m : Mode) (b1 b2 : Byte) : Operand :=
  match m with
  | .imp => .imp
  | .imm => .imm b1
  | .zp0 => .zp0 b1
  | .zpx => .zpx b1
  | .zpy => .zpy b1
  | .abs => .abs (mkWord b2 b1)
  | .abx => .abx (mkWord b2 b1)
  | .aby => .aby (mkWord b2 b1)
  | .ind => .ind (mkWord b2 b1)
  | .izx => .izx b1
  | .izy => .izy b1
  | .rel => .rel b1

/-- The address of an absolute operand; JSR has no other form. -/
def operandAddr : Operand → Word
  | .abs w => w
  | _ => 0

/-- The offset byte of a relative operand; a branch has no other form. -/
def operandOffset : Operand → Byte
  | .rel r => r
  | _ => 0

/-- The instruction of an operation and its operand. -/
def buildInstr (c : Config) (op : Byte) (operation : Mnemonic) (o : Operand) : Instr :=
  match operation with
  | .adc => .adc o
  | .sbc => .sbc o
  | .and => .and o
  | .ora => .ora o
  | .eor => .eor o
  | .bit => .bit o
  | .asl => .asl o
  | .lsr => .lsr o
  | .rol => .rol o
  | .ror => .ror o
  | .cmp => .cmp o
  | .cpx => .cpx o
  | .cpy => .cpy o
  | .inc => .inc o
  | .dec => .dec o
  | .inx => .inx
  | .iny => .iny
  | .dex => .dex
  | .dey => .dey
  | .lda => .lda o
  | .ldx => .ldx o
  | .ldy => .ldy o
  | .sta => .sta o
  | .stx => .stx o
  | .sty => .sty o
  | .tax => .tax
  | .tay => .tay
  | .txa => .txa
  | .tya => .tya
  | .tsx => .tsx
  | .txs => .txs
  | .pha => .pha
  | .pla => .pla
  | .php => .php
  | .plp => .plp
  | .jmp => .jmp o
  | .jsr => .jsr (operandAddr o)
  | .rts => .rts
  | .bcc => .bcc (operandOffset o)
  | .bcs => .bcs (operandOffset o)
  | .beq => .beq (operandOffset o)
  | .bne => .bne (operandOffset o)
  | .bpl => .bpl (operandOffset o)
  | .bmi => .bmi (operandOffset o)
  | .bvc => .bvc (operandOffset o)
  | .bvs => .bvs (operandOffset o)
  | .brk => .brk
  | .rti => .rti
  | .clc => .clc
  | .sec => .sec
  | .cli => .cli
  | .sei => .sei
  | .cld => .cld
  | .sed => .sed
  | .clv => .clv
  | .nop => .nop
  | .und => .und op (c.undefExtra op) o

/-- The instruction that an opcode byte and the two bytes after it decode to. Every byte value decodes
(30_encoding.md R92); bytes past the instruction's length are not looked at. -/
def decodeBytes (c : Config) (op b1 b2 : Byte) : Instr :=
  buildInstr c op (describe c op).operation (assemble (describe c op).mode b1 b2)

/-- Why a list of bytes does not begin with an instruction. -/
inductive DecodeError
  /-- There is no opcode byte. -/
  | empty
  /-- The opcode's mode asks for more operand bytes than the list has. -/
  | truncated
  deriving DecidableEq, Repr

/-- The first instruction of a list of bytes, with the bytes after it (30_encoding.md R80, R83). -/
def decode (c : Config) (bytes : List Byte) : Except DecodeError (Instr × List Byte) :=
  match bytes with
  | [] => .error .empty
  | op :: rest =>
    match operandBytes (describe c op).mode, rest with
    | 0, rest => .ok (decodeBytes c op 0 0, rest)
    | 1, b1 :: rest => .ok (decodeBytes c op b1 0, rest)
    | 2, b1 :: b2 :: rest => .ok (decodeBytes c op b1 b2, rest)
    | _, _ => .error .truncated

/-- The opcode byte of an operation in a mode (30_encoding.md R91), if there is one. No parameter
changes it. -/
def opcodeOf (operation : Mnemonic) (m : Mode) : Option Byte :=
  ((documentedRows Config.default).find? (fun r => r.operation == operation && r.mode == m)).map
    (fun r => r.opcode)

/-- The operand bytes as they lie in memory, low byte first (30_encoding.md R81, R82). -/
def encodeOperand : Operand → List Byte
  | .imp => []
  | .imm v => [v]
  | .zp0 z => [z]
  | .zpx z => [z]
  | .zpy z => [z]
  | .abs w => [loByte w, hiByte w]
  | .abx w => [loByte w, hiByte w]
  | .aby w => [loByte w, hiByte w]
  | .ind w => [loByte w, hiByte w]
  | .izx z => [z]
  | .izy z => [z]
  | .rel r => [r]

/-- The bytes of a well-formed instruction (30_encoding.md R80, R81, R91, R93); an operand form that
no opcode stands for has none. -/
def encode (i : Instr) : List Byte :=
  match i with
  | .und op _ o => op :: encodeOperand o
  | i =>
    match opcodeOf i.mnemonic i.operand.mode with
    | some op => op :: encodeOperand i.operand
    | none => []

/-- The three bytes of a table word, the first at the lowest address, every bit from `nbits` up
zero. -/
def tableWordBytes (nbits w : Nat) : List Byte :=
  let v := w % 2 ^ nbits
  [BitVec.ofNat 8 v, BitVec.ofNat 8 (v / 256), BitVec.ofNat 8 (v / 65536)]

/-- The instruction the decoder reads from a row's word, bit 0 the least significant bit of the first
byte. -/
def decodeTableWord (nbits w : Nat) : Option Instr :=
  match decode Config.default (tableWordBytes nbits w) with
  | .ok (i, _) => some i
  | .error _ => none

end Sys2Proof
end

