-- ==== Sys2Proof/Machine/State.lean ====
section
/-! DEFINITION. The state of the block (10_state.md R20 to R35), the Bus's memory, the driver's events
and the bus port, as plain data; the (empty) faults, the refusal the interface asks for; reset. -/

namespace Sys2Proof.Machine

/-- The Bus's memory (10_state.md R33, 20_memory.md R51): the cells that differ from what an unlisted
cell reads as, addresses strictly rising (`Memory.wf`). -/
abbrev Memory := List Host.Cell

/-- The four events the driver raises (60_exceptions.md R220). -/
inductive Event
  | clock | reset | irq | nmi
  deriving DecidableEq, Repr

/-- One transaction on the bus port: a `read` with the byte it returned, or a `write`
(60_exceptions.md R221, 20_memory.md R50). -/
inductive Access
  | read (addr : Word) (value : Byte)
  | write (addr : Word) (value : Byte)
  deriving DecidableEq, Repr

/-- The state of the block, with the memory of the Bus and two fields that are the model's own. -/
structure State where
  /-- A, the accumulator (10_state.md R21). -/
  a : Byte
  /-- X, index register (10_state.md R22). -/
  x : Byte
  /-- Y, index register (10_state.md R22). -/
  y : Byte
  /-- SP, the stack pointer, an offset in page one (10_state.md R23). -/
  sp : Byte
  /-- PC, the program counter (10_state.md R24). -/
  pc : Word
  /-- P, the status register (10_state.md R25); its bits are named in Machine/Flags.lean. -/
  p : Byte
  /-- `fetched`, the operand byte, transient (10_state.md R31). -/
  fetched : Byte
  /-- `addr_abs`, the resolved address, transient (10_state.md R31). -/
  addrAbs : Word
  /-- `addr_rel`, the resolved branch offset, transient (10_state.md R31). -/
  addrRel : Word
  /-- `opcode`, the current opcode, transient (10_state.md R31). -/
  opcode : Byte
  /-- `mode`, the mode tag of the current descriptor, transient (10_state.md R31). -/
  mode : Mode
  /-- `cycles`, the remaining-cycle counter (10_state.md R32). -/
  cycles : Byte
  /-- The memory the Bus owns (10_state.md R33). -/
  mem : Memory
  /-- MODEL'S OWN: what the driver raises next, first event first; when it is empty the driver calls
  `clock()` (60_exceptions.md R220; log entry 1). It is no latch of the block (R233). -/
  events : List Event
  /-- MODEL'S OWN: the transactions the bus port carried during the last event, in order
  (60_exceptions.md R221, 20_memory.md R64; log entry 14). Nothing reads it. -/
  bus : List Access
  deriving DecidableEq, Repr

/-- The faults of the block: none. "No runtime exceptions are expected during normal clocking"
(60_exceptions.md R222; log entry 21). -/
inductive Fault
  deriving DecidableEq, Repr

/-- Why the model has no meaning for an instruction. -/
inductive Refusal
  /-- Raised by an arm of `exec` whose instruction has no meaning yet; safe. No arm does. -/
  | notModelled (mnemonic : String)
  deriving DecidableEq, Repr

/-- The state just after `Reset` (10_state.md R35, 70_reset_and_hazards.md R250) of a block whose
memory lists nothing. The reset vector then reads 0x0000 (log entry 3). `bus` holds the two vector
reads of that event. `Obligations.CreatedStateRunsAtOnce` states that this is what the `Reset` event
leaves. -/
def State.reset : State where
  a := 0x00
  x := 0x00
  y := 0x00
  sp := 0xFD
  pc := 0x0000
  p := 0x20
  fetched := 0x00
  addrAbs := 0x0000
  addrRel := 0x0000
  opcode := 0x00
  mode := .imp
  cycles := 8
  mem := []
  events := []
  bus := [.read 0xFFFC 0x00, .read 0xFFFD 0x00]

end Sys2Proof.Machine
end

