-- ==== Sys2Proof/Machine/Update.lean ====
section
/-! DEFINITION. One writer per field of State: `r <- v` of 00_scope.md R8. Every register has one home
and every write of a rule goes through its writer. -/

namespace Sys2Proof.Machine

def State.setA (s : State) (v : Byte) : State := { s with a := v }
def State.setX (s : State) (v : Byte) : State := { s with x := v }
def State.setY (s : State) (v : Byte) : State := { s with y := v }
def State.setSp (s : State) (v : Byte) : State := { s with sp := v }
def State.setPc (s : State) (v : Word) : State := { s with pc := v }
def State.setP (s : State) (v : Byte) : State := { s with p := v }
def State.setFetched (s : State) (v : Byte) : State := { s with fetched := v }
def State.setAddrAbs (s : State) (v : Word) : State := { s with addrAbs := v }
def State.setAddrRel (s : State) (v : Word) : State := { s with addrRel := v }
def State.setOpcode (s : State) (v : Byte) : State := { s with opcode := v }
def State.setMode (s : State) (v : Mode) : State := { s with mode := v }
def State.setCycles (s : State) (v : Byte) : State := { s with cycles := v }
def State.setMem (s : State) (v : Memory) : State := { s with mem := v }
def State.setEvents (s : State) (v : List Event) : State := { s with events := v }
def State.setBus (s : State) (v : List Access) : State := { s with bus := v }

end Sys2Proof.Machine
end

