-- ==== Sys2Proof/Machine/Flags.lean ====
section
/-! DEFINITION. The flags of P and every flag computation of the spec (10_state.md R25 to R30;
41_arithmetic.md R121; 42_logical.md R129; 43_shift_rotate.md R130; 44_compare.md R140). -/

namespace Sys2Proof.Machine

/-- The eight flags of P (10_state.md R25). -/
inductive Flag
  | c | z | i | d | b | u | v | n
  deriving DecidableEq, Repr

/-- The bit position of a flag (10_state.md R25, decision D3; log entry 8). -/
def Flag.bit : Flag → Nat
  | .c => 0
  | .z => 1
  | .i => 2
  | .d => 3
  | .b => 4
  | .u => 5
  | .v => 6
  | .n => 7

/-- The mask of a flag (10_state.md R25). -/
def Flag.mask (f : Flag) : Byte := 1 <<< f.bit

/-- `get_flag` on a status byte (10_state.md R30). -/
def getFlag (f : Flag) (p : Byte) : Bool := p.getLsbD f.bit

/-- `set_flag` on a status byte: it ORs or ANDs the bit in (10_state.md R30). -/
def putFlag (f : Flag) (on : Bool) (p : Byte) : Byte :=
  if on then p ||| f.mask else p &&& ~~~f.mask

/-- `P.f` as a Boolean. -/
def State.flag (s : State) (f : Flag) : Bool := getFlag f s.p

/-- `P.f <- on`. -/
def State.setFlag (s : State) (f : Flag) (on : Bool) : State := s.setP (putFlag f on s.p)

/-- `P.f` as the 0 or 1 a rule adds to a sum (10_state.md R30). -/
def State.flagNat (s : State) (f : Flag) : Nat := (s.flag f).toNat

/-- `setZN(v)` (10_state.md R28). -/
def State.setZN (s : State) (v : Byte) : State :=
  (s.setFlag .z (v == 0)).setFlag .n (v.getLsbD 7)

/-- `A <- v; setZN(A)`. -/
def State.loadA (s : State) (v : Byte) : State := (s.setA v).setZN v

/-- `X <- v; setZN(X)`. -/
def State.loadX (s : State) (v : Byte) : State := (s.setX v).setZN v

/-- `Y <- v; setZN(Y)`. -/
def State.loadY (s : State) (v : Byte) : State := (s.setY v).setZN v

/-- The overflow test of an addition: both operands have the same sign and the result the other
(41_arithmetic.md R121, decision D28; log entry 15). -/
def addOverflow (a m r : Byte) : Bool := ((~~~(a ^^^ m)) &&& (a ^^^ r)).getLsbD 7

/-- The exact sum `A + M + P.C`, 0 to 511 (41_arithmetic.md R121). -/
def State.carrySum (s : State) (m : Byte) : Nat := s.a.toNat + m.toNat + s.flagNat .c

/-- The addition of ADC, and of SBC with the complemented operand (41_arithmetic.md R120, R121):
C is bit 8 of the exact sum. -/
def State.addWithCarry (s : State) (m : Byte) : State :=
  let r := BitVec.ofNat 8 (s.carrySum m)
  ((((s.setFlag .c (decide (255 < s.carrySum m))).setFlag .z (r == 0)).setFlag .v
    (addOverflow s.a m r)).setFlag .n (r.getLsbD 7)).setA r

/-- The flags of a compare of a register with an operand (44_compare.md R140): C is "no borrow", Z and
N come from the low byte of the difference. -/
def State.compareFlags (s : State) (reg m : Byte) : State :=
  ((s.setFlag .c (decide (m.toNat ≤ reg.toNat))).setFlag .z (reg - m == 0)).setFlag .n
    ((reg - m).getLsbD 7)

/-- The flags of BIT: Z from the AND, N and V from the operand itself (42_logical.md R129). -/
def State.bitFlags (s : State) (m : Byte) : State :=
  ((s.setFlag .z (s.a &&& m == 0)).setFlag .n (m.getLsbD 7)).setFlag .v (m.getLsbD 6)

/-- The flags of a shift or rotate: C is the bit shifted out, Z and N come from the result
(43_shift_rotate.md R130, decision D21; log entry 16). -/
def State.shiftFlags (s : State) (out : Bool) (r : Byte) : State := (s.setFlag .c out).setZN r

end Sys2Proof.Machine
end

