-- ==== Sys2Proof/Machine/Memory.lean ====
section
/-! DEFINITION. The reference Bus (20_memory.md R50, R51): a dense store of 65536 bytes, held as the
list of the cells that differ from what an unlisted cell reads as. -/

namespace Sys2Proof.Machine

/-- What a cell that no write and no loader has set reads as: the model's choice of `INIT_MEM` for
unlisted cells (DESIGN CHOICE, log entry 3). -/
def Memory.unlisted : Byte := 0x00

/-- The byte at an address key. -/
def Memory.lookup (a : Nat) : Memory → Byte
  | [] => Memory.unlisted
  | (k, v) :: rest => if k = a then v else Memory.lookup a rest

/-- The memory with no entry at a key. -/
def Memory.erase (a : Nat) : Memory → Memory
  | [] => []
  | (k, v) :: rest => if k = a then Memory.erase a rest else (k, v) :: Memory.erase a rest

/-- The memory with an entry put before the first larger key. -/
def Memory.insert (a : Nat) (v : Byte) : Memory → Memory
  | [] => [(a, v)]
  | (k, w) :: rest =>
    if a < k then (a, v) :: (k, w) :: rest else (k, w) :: Memory.insert a v rest

/-- `read(a)`: the byte at that address; nothing changes (20_memory.md R50, R51). -/
def Memory.read (m : Memory) (a : Word) : Byte := Memory.lookup a.toNat m

/-- `write(a, v)`: that cell becomes `v` and no other changes (20_memory.md R50, R51). Writing the
value an unlisted cell reads as removes the entry. -/
def Memory.write (m : Memory) (a : Word) (v : Byte) : Memory :=
  if v = Memory.unlisted then Memory.erase a.toNat m
  else Memory.insert a.toNat v (Memory.erase a.toNat m)

/-- Keys from `low` on, strictly rising, below 65536, and no entry equal to an unlisted cell. -/
def Memory.wfFrom (low : Nat) : Memory → Bool
  | [] => true
  | (k, v) :: rest =>
    decide (low ≤ k) && decide (k < 65536) && (v != Memory.unlisted) && Memory.wfFrom (k + 1) rest

/-- The canonical form: equal memories are equal lists. -/
def Memory.wf (m : Memory) : Bool := Memory.wfFrom 0 m

end Sys2Proof.Machine
end

