-- ==== Sys2Proof/Machine/Ops.lean ====
section
/-! DEFINITION. The shared operations: bus accesses, the stack, the entry into an interrupt handler and
the return from one (20_memory.md R50; 47_stack.md R170, R171; 48_control_flow.md R195 to R197;
60_exceptions.md R231, R232). -/

namespace Sys2Proof.Machine

/-- The bus transaction of `MemRead(a, 1)`; its value is `s.mem.read a` (00_scope.md R9). A read changes
no memory (20_memory.md R50). -/
def State.logRead (s : State) (a : Word) : State := s.setBus (s.bus ++ [.read a (s.mem.read a)])

/-- `MemWrite(a, 1, v)` (00_scope.md R9). -/
def State.busWrite (s : State) (a : Word) (v : Byte) : State :=
  (s.setMem (s.mem.write a v)).setBus (s.bus ++ [.write a v])

/-- The address SP stands for: always in page one (10_state.md R23). -/
def stackAddr (sp : Byte) : Word := 0x0100 + zext16 sp

/-- `push(v)`: write, then decrement, wrapping inside page one (47_stack.md R170). -/
def State.push (s : State) (v : Byte) : State :=
  (s.busWrite (stackAddr s.sp) v).setSp (s.sp - 1)

/-- The byte the next `pull()` returns (47_stack.md R171). -/
def State.top (s : State) : Byte := s.mem.read (stackAddr (s.sp + 1))

/-- `pull()`: increment, then read (47_stack.md R171); the byte returned is `s.top`. -/
def State.pull (s : State) : State := (s.setSp (s.sp + 1)).logRead (stackAddr (s.sp + 1))

/-- A 16-bit value pushed high byte first (47_stack.md R170). -/
def State.pushWord (s : State) (w : Word) : State := (s.push (hiByte w)).push (loByte w)

/-- The 16-bit value two pulls return, low byte first (48_control_flow.md R182, R197). -/
def State.topWord (s : State) : Word := mkWord s.pull.top s.top

/-- Two pulls. -/
def State.pullWord (s : State) : State := s.pull.pull

/-- The reset vector (60_exceptions.md R229). -/
def resetVector : Word := 0xFFFC

/-- The NMI vector (60_exceptions.md R229). -/
def nmiVector : Word := 0xFFFA

/-- The vector of `Irq` and BRK (60_exceptions.md R229, R238). -/
def irqVector : Word := 0xFFFE

/-- The little-endian word at a vector (20_memory.md R54, R55). -/
def Memory.readVector (m : Memory) (v : Word) : Word := mkWord (m.read (v + 1)) (m.read v)

/-- PC from a vector, the low byte read first (48_control_flow.md R196, decision D27; log entry 13). -/
def State.loadVector (s : State) (v : Word) : State :=
  ((s.logRead v).logRead (v + 1)).setPc (s.mem.readVector v)

/-- Interrupt entry, the sequence BRK, `Irq` and `Nmi` share (48_control_flow.md R196;
60_exceptions.md R231, R232): push PC high then low, change P by `before` and push it, change it by
`after`, load PC from the vector. -/
def State.enterHandler (s : State) (vector : Word) (before after : Byte → Byte) : State :=
  let pushed := s.pushWord s.pc
  let marked := pushed.setP (before pushed.p)
  let framed := marked.push marked.p
  (framed.setP (after framed.p)).loadVector vector

/-- Return from a handler, the operation of RTI (48_control_flow.md R197): P from the stack with Break
and Unused cleared, then PC low and high, with no increment. -/
def State.returnFromHandler (s : State) : State :=
  let restored := ((s.pull).setP s.top)
  let cleared := (restored.setFlag .b false).setFlag .u false
  (cleared.pullWord).setPc cleared.topWord

end Sys2Proof.Machine
end

