-- ==== Sys2Proof/Machine/Operands.lean ====
section
/-! DEFINITION. The addressing-mode resolvers, the operand fetch and the write-back
(40_addressing_modes.md R100 to R116). The operand bytes themselves are read, and PC is moved past
them, by the clock machine (Machine/Clock.lean) before a meaning runs, as R24 and R100 place them; a
resolver here does the rest: the index sums, the pointer reads and the transient fields. -/

namespace Sys2Proof.Machine

/-- The address after `ptr` where IND reads the high byte: the start of the same page when the low byte
of `ptr` is 0xFF (40_addressing_modes.md R109). -/
def indirectHigh (ptr : Word) : Word :=
  if loByte ptr = 0xFF then ptr &&& 0xFF00 else ptr + 1

/-- The addresses of the pointer bytes a resolver reads, in order: low byte, then high byte
(40_addressing_modes.md R109 to R111, decision D27; log entry 13). -/
def pointerAddrs (o : Operand) (s : State) : List Word :=
  match o with
  | .ind ptr => [ptr, indirectHigh ptr]
  | .izx t => [zext16 (t + s.x), zext16 (t + s.x + 1)]
  | .izy t => [zext16 t, zext16 (t + 1)]
  | _ => []

/-- The base an index is added to: the address bytes of ABX and ABY, the page-zero pointer of IZY
(40_addressing_modes.md R107, R108, R111). -/
def indexBase (o : Operand) (s : State) : Word :=
  match o with
  | .abx base => base
  | .aby base => base
  | .izy t => mkWord (s.mem.read (zext16 (t + 1))) (s.mem.read (zext16 t))
  | _ => 0

/-- `addr_abs` after the resolver (40_addressing_modes.md R102 to R111). PC stands behind the operand
bytes, so the immediate byte is at `PC - 1`. IMP and REL do not write the field (R101, R112). -/
def effectiveAddress (o : Operand) (s : State) : Word :=
  match o with
  | .imp => s.addrAbs
  | .imm _ => s.pc - 1
  | .zp0 z => zext16 z
  | .zpx z => zext16 (z + s.x)
  | .zpy z => zext16 (z + s.y)
  | .abs w => w
  | .abx base => base + zext16 s.x
  | .aby base => base + zext16 s.y
  | .ind ptr => mkWord (s.mem.read (indirectHigh ptr)) (s.mem.read ptr)
  | .izx t => mkWord (s.mem.read (zext16 (t + s.x + 1))) (s.mem.read (zext16 (t + s.x)))
  | .izy t => indexBase (.izy t) s + zext16 s.y
  | .rel _ => s.addrAbs

/-- The signal a resolver returns: the index sum left the page of its base
(40_addressing_modes.md R100, R115). -/
def pageCross (o : Operand) (s : State) : Bool :=
  match o with
  | .abx base => hiByte (effectiveAddress (.abx base) s) != hiByte base
  | .aby base => hiByte (effectiveAddress (.aby base) s) != hiByte base
  | .izy t => hiByte (effectiveAddress (.izy t) s) != hiByte (indexBase (.izy t) s)
  | _ => false

/-- The reads of a list of addresses, in order. -/
def State.logReads (s : State) (as : List Word) : State :=
  s.setBus (s.bus ++ as.map (fun a => .read a (s.mem.read a)))

/-- The resolver of an operand's mode: `fetched` for IMP, `addr_rel` for REL, `addr_abs` for the others
(40_addressing_modes.md R100 to R112). -/
def State.resolve (s : State) (o : Operand) : State :=
  match o with
  | .imp => s.setFetched s.a
  | .rel r => s.setAddrRel (sext16 r)
  | o => (s.logReads (pointerAddrs o s)).setAddrAbs (effectiveAddress o s)

/-- `fetch()` after the resolver (40_addressing_modes.md R113): the operand goes to `fetched`. The byte
of IMM came with the instruction; this is the one read of it (R102; log entry 13). -/
def State.fetchOperand (s : State) (o : Operand) : State :=
  match o with
  | .imp => s
  | .imm v => (s.setBus (s.bus ++ [.read s.addrAbs v])).setFetched v
  | _ => (s.logRead s.addrAbs).setFetched (s.mem.read s.addrAbs)

/-- The operand `fetch()` yields after the resolver ran from `s` (40_addressing_modes.md R113). -/
def operandValue (o : Operand) (s : State) : Byte :=
  match o with
  | .imp => s.a
  | .imm v => v
  | o => s.mem.read (effectiveAddress o s)

/-- `writeback(v)`: to A for IMP, else to the resolved address (40_addressing_modes.md R114). -/
def State.writeback (s : State) (o : Operand) (v : Byte) : State :=
  match o with
  | .imp => s.setA v
  | _ => s.busWrite s.addrAbs v

/-- The clock machine's extra cycle: one more when resolver and operation both signal
(60_exceptions.md R225, R226). -/
def State.addExtra (s : State) (both : Bool) : State :=
  if both then s.setCycles (s.cycles + 1) else s

/-- An instruction whose operation returns `signal`: resolver, operation, extra cycle
(60_exceptions.md R225). -/
def operate (signal : Bool) (o : Operand) (s : State) (operation : State → State) :
    Host.Outcome State Fault Refusal :=
  .next ((operation (s.resolve o)).addExtra (pageCross o s && signal))

/-- An instruction whose operation begins with `fetch()`; the operand is in `fetched`
(40_addressing_modes.md R113). -/
def operateOn (signal : Bool) (o : Operand) (s : State) (operation : State → State) :
    Host.Outcome State Fault Refusal :=
  operate signal o s (fun r => operation (r.fetchOperand o))

end Sys2Proof.Machine
end

