-- ==== Sys2Proof/Machine/Arithmetic.lean ====
section
/-! DEFINITION. ADC and SBC (41_arithmetic.md). Neither reads the Decimal flag (R120). -/

namespace Sys2Proof.Machine

/-- ADC (41_arithmetic.md R121); signal true. -/
def execAdc (o : Operand) (s : State) : Host.Outcome State Fault Refusal :=
  operateOn true o s (fun r => r.addWithCarry r.fetched)

/-- SBC (41_arithmetic.md R122): ADC's logic on the one's complement of the operand; signal true. -/
def execSbc (o : Operand) (s : State) : Host.Outcome State Fault Refusal :=
  operateOn true o s (fun r => r.addWithCarry (r.fetched ^^^ 0xFF))

end Sys2Proof.Machine
end

