-- ==== Sys2Proof/Machine/Compare.lean ====
section
/-! DEFINITION. CMP, CPX and CPY (44_compare.md). -/

namespace Sys2Proof.Machine

/-- CMP (44_compare.md R141); signal true. -/
def execCmp (o : Operand) (s : State) : Host.Outcome State Fault Refusal :=
  operateOn true o s (fun r => r.compareFlags r.a r.fetched)

/-- CPX (44_compare.md R142); signal false. -/
def execCpx (o : Operand) (s : State) : Host.Outcome State Fault Refusal :=
  operateOn false o s (fun r => r.compareFlags r.x r.fetched)

/-- CPY (44_compare.md R143); signal false. -/
def execCpy (o : Operand) (s : State) : Host.Outcome State Fault Refusal :=
  operateOn false o s (fun r => r.compareFlags r.y r.fetched)

end Sys2Proof.Machine
end

