-- ==== Sys2Proof/Machine/Control.lean ====
section
/-! DEFINITION. Jumps, subroutines, branches, BRK and RTI (48_control_flow.md). On entry PC is the
address of the byte after the instruction. All return the signal false. -/

namespace Sys2Proof.Machine

/-- JMP (48_control_flow.md R180): no read at the target. -/
def execJmp (o : Operand) (s : State) : Host.Outcome State Fault Refusal :=
  operate false o s (fun r => r.setPc r.addrAbs)

/-- JSR (48_control_flow.md R181): pushes the address of its own last byte, high byte first. -/
def execJsr (target : Word) (s : State) : Host.Outcome State Fault Refusal :=
  operate false (.abs target) s
    (fun r => ((r.setPc (r.pc - 1)).pushWord (r.pc - 1)).setPc r.addrAbs)

/-- RTS (48_control_flow.md R182): the pulled address plus one. -/
def execRts (s : State) : Host.Outcome State Fault Refusal :=
  operate false .imp s (fun r => r.pullWord.setPc (r.topWord + 1))

/-- The branch operation (48_control_flow.md R183): if taken, one cycle more, and a second if the
target is on another page than the instruction after the branch. -/
def State.branch (s : State) (taken : Bool) : State :=
  if taken then
    let target := s.pc + s.addrRel
    let far := hiByte target != hiByte s.pc
    ((s.setCycles (s.cycles + (if far then 2 else 1))).setAddrAbs target).setPc target
  else s

/-- BCC (48_control_flow.md R184). -/
def execBcc (rel8 : Byte) (s : State) : Host.Outcome State Fault Refusal :=
  operate false (.rel rel8) s (fun r => r.branch (!r.flag .c))

/-- BCS (48_control_flow.md R185). -/
def execBcs (rel8 : Byte) (s : State) : Host.Outcome State Fault Refusal :=
  operate false (.rel rel8) s (fun r => r.branch (r.flag .c))

/-- BEQ (48_control_flow.md R186). -/
def execBeq (rel8 : Byte) (s : State) : Host.Outcome State Fault Refusal :=
  operate false (.rel rel8) s (fun r => r.branch (r.flag .z))

/-- BNE (48_control_flow.md R187). -/
def execBne (rel8 : Byte) (s : State) : Host.Outcome State Fault Refusal :=
  operate false (.rel rel8) s (fun r => r.branch (!r.flag .z))

/-- BPL (48_control_flow.md R188). -/
def execBpl (rel8 : Byte) (s : State) : Host.Outcome State Fault Refusal :=
  operate false (.rel rel8) s (fun r => r.branch (!r.flag .n))

/-- BMI (48_control_flow.md R189). -/
def execBmi (rel8 : Byte) (s : State) : Host.Outcome State Fault Refusal :=
  operate false (.rel rel8) s (fun r => r.branch (r.flag .n))

/-- BVC (48_control_flow.md R190). -/
def execBvc (rel8 : Byte) (s : State) : Host.Outcome State Fault Refusal :=
  operate false (.rel rel8) s (fun r => r.branch (!r.flag .v))

/-- BVS (48_control_flow.md R191). -/
def execBvs (rel8 : Byte) (s : State) : Host.Outcome State Fault Refusal :=
  operate false (.rel rel8) s (fun r => r.branch (r.flag .v))

/-- BRK (48_control_flow.md R196): PC past itself, I set before the push, B set in the pushed byte and
cleared after it; U is pushed as it is. -/
def execBrk (s : State) : Host.Outcome State Fault Refusal :=
  operate false .imp s
    (fun r => ((r.setPc (r.pc + 1)).setFlag .i true).enterHandler irqVector
      (putFlag .b true) (putFlag .b false))

/-- RTI (48_control_flow.md R197). -/
def execRti (s : State) : Host.Outcome State Fault Refusal :=
  operate false .imp s (fun r => r.returnFromHandler)

end Sys2Proof.Machine
end

