-- ==== Sys2Proof/Machine/FlagOps.lean ====
section
/-! DEFINITION. The flag instructions, NOP and the undefined opcodes (49_flags_nop_undefined.md). -/

namespace Sys2Proof.Machine

/-- CLC (49_flags_nop_undefined.md R201). -/
def execClc (s : State) : Host.Outcome State Fault Refusal :=
  operate false .imp s (fun r => r.setFlag .c false)

/-- SEC (49_flags_nop_undefined.md R202). -/
def execSec (s : State) : Host.Outcome State Fault Refusal :=
  operate false .imp s (fun r => r.setFlag .c true)

/-- CLI (49_flags_nop_undefined.md R203). -/
def execCli (s : State) : Host.Outcome State Fault Refusal :=
  operate false .imp s (fun r => r.setFlag .i false)

/-- SEI (49_flags_nop_undefined.md R204). -/
def execSei (s : State) : Host.Outcome State Fault Refusal :=
  operate false .imp s (fun r => r.setFlag .i true)

/-- CLD (49_flags_nop_undefined.md R205). -/
def execCld (s : State) : Host.Outcome State Fault Refusal :=
  operate false .imp s (fun r => r.setFlag .d false)

/-- SED (49_flags_nop_undefined.md R206). -/
def execSed (s : State) : Host.Outcome State Fault Refusal :=
  operate false .imp s (fun r => r.setFlag .d true)

/-- CLV (49_flags_nop_undefined.md R207). -/
def execClv (s : State) : Host.Outcome State Fault Refusal :=
  operate false .imp s (fun r => r.setFlag .v false)

/-- NOP (49_flags_nop_undefined.md R208). -/
def execNop (s : State) : Host.Outcome State Fault Refusal := operate false .imp s (fun r => r)

/-- UND (49_flags_nop_undefined.md R209): a no-op whose mode's resolver still runs. It signals when its
opcode is in `UNDEF_EXTRA`, and makes no operand read. -/
def execUnd (_op : Byte) (extra : Bool) (o : Operand) (s : State) :
    Host.Outcome State Fault Refusal :=
  operate extra o s (fun r => r)

end Sys2Proof.Machine
end

