-- ==== Sys2Proof/Machine/IncDec.lean ====
section
/-! DEFINITION. INC, DEC, INX, INY, DEX and DEY (45_incdec.md). All return the signal false (R145). -/

namespace Sys2Proof.Machine

/-- `MemWrite(addr_abs, 1, v); setZN(v)` (45_incdec.md R146, R147). -/
def State.storeZN (s : State) (v : Byte) : State := (s.busWrite s.addrAbs v).setZN v

/-- INC (45_incdec.md R146). -/
def execInc (o : Operand) (s : State) : Host.Outcome State Fault Refusal :=
  operateOn false o s (fun r => r.storeZN (r.fetched + 1))

/-- DEC (45_incdec.md R147). -/
def execDec (o : Operand) (s : State) : Host.Outcome State Fault Refusal :=
  operateOn false o s (fun r => r.storeZN (r.fetched - 1))

/-- INX (45_incdec.md R148). -/
def execInx (s : State) : Host.Outcome State Fault Refusal :=
  operate false .imp s (fun r => r.loadX (r.x + 1))

/-- INY (45_incdec.md R149). -/
def execIny (s : State) : Host.Outcome State Fault Refusal :=
  operate false .imp s (fun r => r.loadY (r.y + 1))

/-- DEX (45_incdec.md R150). -/
def execDex (s : State) : Host.Outcome State Fault Refusal :=
  operate false .imp s (fun r => r.loadX (r.x - 1))

/-- DEY (45_incdec.md R151). -/
def execDey (s : State) : Host.Outcome State Fault Refusal :=
  operate false .imp s (fun r => r.loadY (r.y - 1))

end Sys2Proof.Machine
end

