-- ==== Sys2Proof/Machine/LoadStore.lean ====
section
/-! DEFINITION. Loads, stores and transfers (46_load_store_transfer.md). The loads return the signal
true, the others false (R155). -/

namespace Sys2Proof.Machine

/-- LDA (46_load_store_transfer.md R156). -/
def execLda (o : Operand) (s : State) : Host.Outcome State Fault Refusal :=
  operateOn true o s (fun r => r.loadA r.fetched)

/-- LDX (46_load_store_transfer.md R157). -/
def execLdx (o : Operand) (s : State) : Host.Outcome State Fault Refusal :=
  operateOn true o s (fun r => r.loadX r.fetched)

/-- LDY (46_load_store_transfer.md R158). -/
def execLdy (o : Operand) (s : State) : Host.Outcome State Fault Refusal :=
  operateOn true o s (fun r => r.loadY r.fetched)

/-- STA (46_load_store_transfer.md R159): no operand read, no flag. -/
def execSta (o : Operand) (s : State) : Host.Outcome State Fault Refusal :=
  operate false o s (fun r => r.busWrite r.addrAbs r.a)

/-- STX (46_load_store_transfer.md R160). -/
def execStx (o : Operand) (s : State) : Host.Outcome State Fault Refusal :=
  operate false o s (fun r => r.busWrite r.addrAbs r.x)

/-- STY (46_load_store_transfer.md R161). -/
def execSty (o : Operand) (s : State) : Host.Outcome State Fault Refusal :=
  operate false o s (fun r => r.busWrite r.addrAbs r.y)

/-- TAX (46_load_store_transfer.md R162). -/
def execTax (s : State) : Host.Outcome State Fault Refusal :=
  operate false .imp s (fun r => r.loadX r.a)

/-- TAY (46_load_store_transfer.md R163). -/
def execTay (s : State) : Host.Outcome State Fault Refusal :=
  operate false .imp s (fun r => r.loadY r.a)

/-- TXA (46_load_store_transfer.md R164). -/
def execTxa (s : State) : Host.Outcome State Fault Refusal :=
  operate false .imp s (fun r => r.loadA r.x)

/-- TYA (46_load_store_transfer.md R165). -/
def execTya (s : State) : Host.Outcome State Fault Refusal :=
  operate false .imp s (fun r => r.loadA r.y)

/-- TSX (46_load_store_transfer.md R166). -/
def execTsx (s : State) : Host.Outcome State Fault Refusal :=
  operate false .imp s (fun r => r.loadX r.sp)

/-- TXS (46_load_store_transfer.md R167): no flag. -/
def execTxs (s : State) : Host.Outcome State Fault Refusal :=
  operate false .imp s (fun r => r.setSp r.x)

end Sys2Proof.Machine
end

