-- ==== Sys2Proof/Machine/Logical.lean ====
section
/-! DEFINITION. AND, ORA, EOR and BIT (42_logical.md). -/

namespace Sys2Proof.Machine

/-- AND (42_logical.md R126); signal true. -/
def execAnd (o : Operand) (s : State) : Host.Outcome State Fault Refusal :=
  operateOn true o s (fun r => r.loadA (r.a &&& r.fetched))

/-- ORA (42_logical.md R127); signal true. -/
def execOra (o : Operand) (s : State) : Host.Outcome State Fault Refusal :=
  operateOn true o s (fun r => r.loadA (r.a ||| r.fetched))

/-- EOR (42_logical.md R128); signal true. -/
def execEor (o : Operand) (s : State) : Host.Outcome State Fault Refusal :=
  operateOn true o s (fun r => r.loadA (r.a ^^^ r.fetched))

/-- BIT (42_logical.md R129); signal false. -/
def execBit (o : Operand) (s : State) : Host.Outcome State Fault Refusal :=
  operateOn false o s (fun r => r.bitFlags r.fetched)

end Sys2Proof.Machine
end

