-- ==== Sys2Proof/Machine/ShiftRotate.lean ====
section
/-! DEFINITION. ASL, LSR, ROL and ROR (43_shift_rotate.md). All return the signal false (R130). -/

namespace Sys2Proof.Machine

/-- The result of ROL: the old carry enters at bit 0 (43_shift_rotate.md R133). -/
def rolResult (m : Byte) (carry : Bool) : Byte := (m <<< 1) ||| (BitVec.ofBool carry).setWidth 8

/-- The result of ROR: the old carry enters at bit 7 (43_shift_rotate.md R134). -/
def rorResult (m : Byte) (carry : Bool) : Byte :=
  ((BitVec.ofBool carry).setWidth 8 <<< 7) ||| (m >>> 1)

/-- A shift's end: the flags, then the write-back (43_shift_rotate.md R130). -/
def State.shiftTo (s : State) (o : Operand) (out : Bool) (r : Byte) : State :=
  (s.shiftFlags out r).writeback o r

/-- ASL (43_shift_rotate.md R131). -/
def execAsl (o : Operand) (s : State) : Host.Outcome State Fault Refusal :=
  operateOn false o s (fun r => r.shiftTo o (r.fetched.getLsbD 7) (r.fetched <<< 1))

/-- LSR (43_shift_rotate.md R132). -/
def execLsr (o : Operand) (s : State) : Host.Outcome State Fault Refusal :=
  operateOn false o s (fun r => r.shiftTo o (r.fetched.getLsbD 0) (r.fetched >>> 1))

/-- ROL (43_shift_rotate.md R133). -/
def execRol (o : Operand) (s : State) : Host.Outcome State Fault Refusal :=
  operateOn false o s
    (fun r => r.shiftTo o (r.fetched.getLsbD 7) (rolResult r.fetched (r.flag .c)))

/-- ROR (43_shift_rotate.md R134). -/
def execRor (o : Operand) (s : State) : Host.Outcome State Fault Refusal :=
  operateOn false o s
    (fun r => r.shiftTo o (r.fetched.getLsbD 0) (rorResult r.fetched (r.flag .c)))

end Sys2Proof.Machine
end

