-- ==== Sys2Proof/Machine/StackOps.lean ====
section
/-! DEFINITION. PHA, PLA, PHP and PLP (47_stack.md). All return the signal false (R172). -/

namespace Sys2Proof.Machine

/-- PHA (47_stack.md R173). -/
def execPha (s : State) : Host.Outcome State Fault Refusal :=
  operate false .imp s (fun r => r.push r.a)

/-- PLA (47_stack.md R174). -/
def execPla (s : State) : Host.Outcome State Fault Refusal :=
  operate false .imp s (fun r => r.pull.loadA r.top)

/-- PHP (47_stack.md R175): Break and Unused are set in the pushed copy only. -/
def execPhp (s : State) : Host.Outcome State Fault Refusal :=
  operate false .imp s (fun r => r.push (putFlag .b true (putFlag .u true r.p)))

/-- PLP (47_stack.md R176): all of P from the pulled byte, then Unused set. -/
def execPlp (s : State) : Host.Outcome State Fault Refusal :=
  operate false .imp s (fun r => (r.pull.setP r.top).setFlag .u true)

end Sys2Proof.Machine
end

