-- ==== Sys2Proof/Machine/Dispatch.lean ====
section
/-! DEFINITION. The dispatch: one arm per constructor of Instr, each one direct call of its meaning. -/

namespace Sys2Proof.Machine

def exec (i : Instr) (s : State) : Host.Outcome State Fault Refusal :=
  match i with
  | .adc o => Sys2Proof.Machine.execAdc o s
  | .sbc o => Sys2Proof.Machine.execSbc o s
  | .and o => Sys2Proof.Machine.execAnd o s
  | .ora o => Sys2Proof.Machine.execOra o s
  | .eor o => Sys2Proof.Machine.execEor o s
  | .bit o => Sys2Proof.Machine.execBit o s
  | .asl o => Sys2Proof.Machine.execAsl o s
  | .lsr o => Sys2Proof.Machine.execLsr o s
  | .rol o => Sys2Proof.Machine.execRol o s
  | .ror o => Sys2Proof.Machine.execRor o s
  | .cmp o => Sys2Proof.Machine.execCmp o s
  | .cpx o => Sys2Proof.Machine.execCpx o s
  | .cpy o => Sys2Proof.Machine.execCpy o s
  | .inc o => Sys2Proof.Machine.execInc o s
  | .dec o => Sys2Proof.Machine.execDec o s
  | .inx => Sys2Proof.Machine.execInx s
  | .iny => Sys2Proof.Machine.execIny s
  | .dex => Sys2Proof.Machine.execDex s
  | .dey => Sys2Proof.Machine.execDey s
  | .lda o => Sys2Proof.Machine.execLda o s
  | .ldx o => Sys2Proof.Machine.execLdx o s
  | .ldy o => Sys2Proof.Machine.execLdy o s
  | .sta o => Sys2Proof.Machine.execSta o s
  | .stx o => Sys2Proof.Machine.execStx o s
  | .sty o => Sys2Proof.Machine.execSty o s
  | .tax => Sys2Proof.Machine.execTax s
  | .tay => Sys2Proof.Machine.execTay s
  | .txa => Sys2Proof.Machine.execTxa s
  | .tya => Sys2Proof.Machine.execTya s
  | .tsx => Sys2Proof.Machine.execTsx s
  | .txs => Sys2Proof.Machine.execTxs s
  | .pha => Sys2Proof.Machine.execPha s
  | .pla => Sys2Proof.Machine.execPla s
  | .php => Sys2Proof.Machine.execPhp s
  | .plp => Sys2Proof.Machine.execPlp s
  | .jmp o => Sys2Proof.Machine.execJmp o s
  | .jsr target => Sys2Proof.Machine.execJsr target s
  | .rts => Sys2Proof.Machine.execRts s
  | .bcc rel8 => Sys2Proof.Machine.execBcc rel8 s
  | .bcs rel8 => Sys2Proof.Machine.execBcs rel8 s
  | .beq rel8 => Sys2Proof.Machine.execBeq rel8 s
  | .bne rel8 => Sys2Proof.Machine.execBne rel8 s
  | .bpl rel8 => Sys2Proof.Machine.execBpl rel8 s
  | .bmi rel8 => Sys2Proof.Machine.execBmi rel8 s
  | .bvc rel8 => Sys2Proof.Machine.execBvc rel8 s
  | .bvs rel8 => Sys2Proof.Machine.execBvs rel8 s
  | .brk => Sys2Proof.Machine.execBrk s
  | .rti => Sys2Proof.Machine.execRti s
  | .clc => Sys2Proof.Machine.execClc s
  | .sec => Sys2Proof.Machine.execSec s
  | .cli => Sys2Proof.Machine.execCli s
  | .sei => Sys2Proof.Machine.execSei s
  | .cld => Sys2Proof.Machine.execCld s
  | .sed => Sys2Proof.Machine.execSed s
  | .clv => Sys2Proof.Machine.execClv s
  | .nop => Sys2Proof.Machine.execNop s
  | .und op extra o => Sys2Proof.Machine.execUnd op extra o s

end Sys2Proof.Machine
end

