-- ==== Sys2Proof/Machine/Events.lean ====
section
/-! DEFINITION. The events `Reset`, `Irq` and `Nmi`, the created state, and the pin interface
(60_exceptions.md R220, R221, R229 to R237; 70_reset_and_hazards.md R250 to R252). -/

namespace Sys2Proof.Machine

/-- The created state, before any event (70_reset_and_hazards.md R251): all zero, `cycles` 0, memory
`INIT_MEM`. -/
def State.created (initMem : Memory) : State where
  a := 0
  x := 0
  y := 0
  sp := 0
  pc := 0
  p := 0
  fetched := 0
  addrAbs := 0
  addrRel := 0
  opcode := 0
  mode := .imp
  cycles := 0
  mem := initMem
  events := []
  bus := []

/-- The transient decode state cleared by an opcode fetch (10_state.md R31, 60_exceptions.md R225). -/
def State.clearTransient (s : State) : State :=
  ((s.setFetched 0).setAddrAbs 0).setAddrRel 0

/-- P after `Reset`: Unused set, every other flag clear (70_reset_and_hazards.md R250). -/
def resetStatus : Byte := putFlag .u true 0

/-- The `Reset` event (70_reset_and_hazards.md R250): the vector is read before the bus reinitializes
its memory. A, X, Y become 0 by decision D12 (log entry 10). -/
def State.takeReset (c : Config) (s : State) : State :=
  let loaded := (s.loadVector resetVector).clearTransient
  let registers := (((loaded.setA 0).setX 0).setY 0).setSp 0xFD
  let decoded := ((registers.setP resetStatus).setOpcode 0).setMode .imp
  (decoded.setCycles 8).setMem (c.busReinit s.mem)

/-- What `Irq` and `Nmi` do to P before they push it: Break cleared, Unused set, in the live register
(60_exceptions.md R231, decision D16; log entry 17). -/
def interruptStatus (p : Byte) : Byte := putFlag .u true (putFlag .b false p)

/-- The entry `Irq` and `Nmi` share: I is set after the push (60_exceptions.md R231, R232). -/
def State.takeInterrupt (s : State) (vector : Word) (count : Byte) : State :=
  (s.enterHandler vector interruptStatus (putFlag .i true)).setCycles count

/-- The `Irq` event: the entry of R231 if Interrupt-disable is clear, else nothing at all
(60_exceptions.md R230, R231, R233). -/
def State.takeIrq (s : State) : State :=
  if s.flag .i then s else s.takeInterrupt irqVector 7

/-- The `Nmi` event, taken in every state (60_exceptions.md R232). -/
def State.takeNmi (s : State) : State := s.takeInterrupt nmiVector 8

/-- The three request strobes at a rising edge of `clk` (60_exceptions.md R221). -/
structure Pins where
  reset : Bool
  nmi : Bool
  irq : Bool
  deriving DecidableEq, Repr

/-- The events one rising edge delivers, in order (60_exceptions.md R234, decision D18): `Reset` alone
if its strobe is high, else `Nmi`, then `Irq`; then the edge's `Clock`. -/
def edgeEvents (pins : Pins) : List Event :=
  if pins.reset then [.reset, .clock]
  else (if pins.nmi then [.nmi] else []) ++ (if pins.irq then [.irq] else []) ++ [.clock]

/-- The driver brings one rising edge with these strobes after everything already raised
(60_exceptions.md R221). -/
def State.withEdge (s : State) (pins : Pins) : State := s.setEvents (s.events ++ edgeEvents pins)

end Sys2Proof.Machine
end

