-- ==== Sys2Proof/Machine/Clock.lean ====
section
/-! DEFINITION. The clock and cycle-accounting machine (60_exceptions.md R224 to R228) and the delivery
of an event (R220). -/

namespace Sys2Proof.Machine

/-- The bus reads of the operand bytes and the advance of PC past them, the part of a resolver that
comes before the instruction is assembled (40_addressing_modes.md R100 to R112). IMM's byte is read by
`fetch()` and not here (R102; log entry 13). -/
def State.readOperandBytes (s : State) (m : Mode) : State :=
  match operandBytes m with
  | 0 => s
  | 1 => (if m = .imm then s else s.logRead s.pc).setPc (s.pc + 1)
  | _ => ((s.logRead s.pc).logRead (s.pc + 1)).setPc (s.pc + 2)

/-- The instruction at PC: the decoder on the bytes at PC, PC + 1 and PC + 2, modulo 65536
(30_encoding.md R80; 10_state.md R24). -/
def instrAt (c : Config) (s : State) : Instr :=
  decodeBytes c (s.mem.read s.pc) (s.mem.read (s.pc + 1)) (s.mem.read (s.pc + 2))

/-- The state in which the instruction at PC begins its meaning (60_exceptions.md R225): transients
cleared, opcode and operand bytes read, PC behind them, `opcode` and `mode` set, `cycles` at the base
count. -/
def State.beginInstr (c : Config) (s : State) : State :=
  let row := describe c (s.mem.read s.pc)
  let opened := (s.clearTransient.logRead s.pc).setPc (s.pc + 1)
  let tagged := ((opened.setOpcode (s.mem.read s.pc)).setMode row.mode).setCycles row.base
  tagged.readOperandBytes row.mode

/-- The decrement every `Clock` ends with (60_exceptions.md R225). -/
def State.countDown (s : State) : State := s.setCycles (s.cycles - 1)

/-- What the clock machine adds after a meaning: the decrement. -/
def finishClock (r : Host.Outcome State Fault Refusal) : Host.Outcome State Fault Refusal :=
  match r with
  | .next t => .next t.countDown
  | .fault f => .fault f
  | .refused f => .refused f

/-- The `Clock` event (60_exceptions.md R225). -/
def clockEvent (c : Config) (s : State) : Host.Outcome State Fault Refusal :=
  if s.cycles = 0 then finishClock (exec (instrAt c s) (s.beginInstr c)) else .next s.countDown

/-- One event (60_exceptions.md R220). -/
def deliver (c : Config) (e : Event) (s : State) : Host.Outcome State Fault Refusal :=
  match e with
  | .clock => clockEvent c s
  | .reset => .next (s.takeReset c)
  | .irq => .next s.takeIrq
  | .nmi => .next s.takeNmi

/-- The next event of the driver: the first it has raised, or `Clock` (60_exceptions.md R220; log
entry 1). -/
def nextEvent (s : State) : Event := s.events.headD .clock

/-- The state in which the next event is delivered: the event is taken off the driver's list, and the
bus port has carried nothing of it yet. -/
def State.beginEvent (s : State) : State := (s.setEvents s.events.tail).setBus []

/-- One event of the driver, with the parameters as an argument (00_scope.md R6). -/
def stepWith (c : Config) (s : State) : Host.Outcome State Fault Refusal :=
  deliver c (nextEvent s) s.beginEvent

/-- The bytes stored one after the other from an address, modulo 65536. -/
def Memory.writeBytes (m : Memory) (a : Word) (bytes : List Byte) : Memory :=
  match bytes with
  | [] => m
  | b :: rest => Memory.writeBytes (m.write a b) (a + 1) rest

/-- A row's word stored at PC, at an instruction boundary with no event pending: what it takes for the
next step to run exactly it (log entry 2). -/
def State.placeWord (s : State) (nbits w : Nat) : State :=
  ((s.setMem (s.mem.writeBytes s.pc (tableWordBytes nbits w))).setCycles 0).setEvents []

end Sys2Proof.Machine
end

