-- ==== Sys2Proof/Machine/Step.lean ====
section
/-! DEFINITION. The step: one event of the driver, at the spec's default parameters. -/

namespace Sys2Proof.Machine

/-- One step: the next event, `Clock` when none is raised (60_exceptions.md R220, R225; 00_scope.md
R6). -/
def step (s : State) : Host.Outcome State Fault Refusal := stepWith Config.default s

/-- The state with a table word placed where the next step fetches (log entry 2). -/
def State.withFetchWord (s : State) (nbits w : Nat) : State := s.placeWord nbits w

end Sys2Proof.Machine
end

