-- ==== Sys2Proof/Safety.lean ====
section
/-! DEFINITION. The terms claims are stated in: what an instruction yields, frames, the tables of who
writes what (10_state.md R21 to R26), cycle counts (70_reset_and_hazards.md R258), runs, and the
invariant of a safe run. -/

namespace Sys2Proof.Machine

/-- The instruction answers a next state, and that state has the property. -/
def Yields (i : Instr) (s : State) (holds : State → Prop) : Prop :=
  ∃ t, exec i s = .next t ∧ holds t

/-- The step answers a next state, and that state has the property. -/
def StepYields (s : State) (holds : State → Prop) : Prop := ∃ t, step s = .next t ∧ holds t

/-- The four 8-bit registers (00_scope.md R8). -/
inductive Reg
  | a | x | y | sp
  deriving DecidableEq, Repr

/-- `x[r]` (00_scope.md R8). -/
def State.reg (s : State) : Reg → Byte
  | .a => s.a
  | .x => s.x
  | .y => s.y
  | .sp => s.sp

/-- From `s` to `t` nothing changed but the named registers, flags and memory bytes; the transient
fields, PC, the cycle counter and the bus record are not spoken of. -/
def Frame (regs : List Reg) (flags : List Flag) (stored : List Word) (s t : State) : Prop :=
  (∀ r, r ∉ regs → t.reg r = s.reg r) ∧
  (∀ f, f ∉ flags → t.flag f = s.flag f) ∧
  (∀ a, a ∉ stored → t.mem.read a = s.mem.read a)

/-- The eight flags. -/
def allFlags : List Flag := [.c, .z, .i, .d, .b, .u, .v, .n]

/-- Where a read-modify-write instruction leaves its result: A for IMP, else the resolved address of
the state it started from (40_addressing_modes.md R114). -/
def resultAt (o : Operand) (s t : State) : Byte :=
  match o with
  | .imp => t.a
  | o => t.mem.read (effectiveAddress o s)

/-- `resolve_<mode>()` of 40_addressing_modes.md R101 to R112 as one operation, from PC at the first
operand byte: the operand bytes, then the resolver. -/
def resolveMode (m : Mode) (s : State) : State :=
  (s.readOperandBytes m).resolve (assemble m (s.mem.read s.pc) (s.mem.read (s.pc + 1)))

/-- The signal `resolve_<mode>()` returns. -/
def modeSignal (m : Mode) (s : State) : Bool :=
  pageCross (assemble m (s.mem.read s.pc) (s.mem.read (s.pc + 1))) (s.readOperandBytes m)

/-- The documented operations that return the extra-cycle signal (60_exceptions.md R226). -/
def signalling : List Mnemonic := [.adc, .sbc, .and, .ora, .eor, .cmp, .lda, .ldx, .ldy]

/-- The extra-cycle signal an operation returns (60_exceptions.md R226). -/
def signals (i : Instr) : Bool :=
  match i with
  | .und _ extra _ => extra
  | i => signalling.contains i.mnemonic

/-- The eight branches (48_control_flow.md R183). -/
def branches : List Mnemonic := [.bcc, .bcs, .beq, .bne, .bpl, .bmi, .bvc, .bvs]

/-- The flag a branch tests and the value it branches on (48_control_flow.md R184 to R191). -/
def branchTest : Mnemonic → Option (Flag × Bool)
  | .bcc => some (.c, false)
  | .bcs => some (.c, true)
  | .beq => some (.z, true)
  | .bne => some (.z, false)
  | .bpl => some (.n, false)
  | .bmi => some (.n, true)
  | .bvc => some (.v, false)
  | .bvs => some (.v, true)
  | _ => none

/-- Whether the instruction is a branch that is taken. -/
def branchTaken (i : Instr) (s : State) : Bool :=
  match branchTest i.mnemonic with
  | some (f, on) => s.flag f == on
  | none => false

/-- The target of a branch, PC being behind the instruction (48_control_flow.md R183). -/
def branchTarget (i : Instr) (s : State) : Word := s.pc + sext16 (operandOffset i.operand)

/-- The cycles an instruction takes beyond its base count (70_reset_and_hazards.md R258), from the state
in which its meaning begins. -/
def extraCycles (i : Instr) (s : State) : Nat :=
  (if pageCross i.operand s && signals i then 1 else 0) +
  (if branchTaken i s then (if hiByte (branchTarget i s) = hiByte s.pc then 1 else 2) else 0)

/-- The number of `Clock` events the instruction at PC occupies (70_reset_and_hazards.md R258). -/
def instrCycles (c : Config) (s : State) : Nat :=
  (describe c (s.mem.read s.pc)).base.toNat + extraCycles (instrAt c s) (s.beginInstr c)

/-- The instructions that can change a flag (10_state.md R26; PLP and RTI change any). -/
def flagWriters : Flag → List Mnemonic
  | .c => [.adc, .sbc, .asl, .lsr, .rol, .ror, .cmp, .cpx, .cpy, .clc, .sec, .plp, .rti]
  | .z | .n =>
    [.adc, .sbc, .and, .ora, .eor, .bit, .asl, .lsr, .rol, .ror, .cmp, .cpx, .cpy, .inc, .dec, .inx] ++
    [.iny, .dex, .dey, .lda, .ldx, .ldy, .tax, .tay, .txa, .tya, .tsx, .pla, .plp, .rti]
  | .i => [.sei, .cli, .brk, .plp, .rti]
  | .d => [.sed, .cld, .plp, .rti]
  | .b => [.brk, .plp, .rti]
  | .u => [.plp, .rti]
  | .v => [.adc, .sbc, .bit, .clv, .plp, .rti]

/-- The instructions that can change a register (10_state.md R21, R22, R23). -/
def regWriters : Reg → List Mnemonic
  | .a => [.adc, .sbc, .and, .ora, .eor, .asl, .lsr, .rol, .ror, .lda, .pla, .txa, .tya]
  | .x => [.ldx, .tax, .tsx, .inx, .dex]
  | .y => [.ldy, .tay, .iny, .dey]
  | .sp => [.txs, .pha, .php, .pla, .plp, .jsr, .rts, .brk, .rti]

/-- The instructions that write PC after their bytes are read (10_state.md R24). -/
def pcWriters : List Mnemonic :=
  [.jmp, .jsr, .rts, .bcc, .bcs, .beq, .bne, .bpl, .bmi, .bvc, .bvs, .brk, .rti]

/-- The instructions with a store, a write-back or a push (20_memory.md R56; 47_stack.md R170). -/
def memoryWriters : List Mnemonic :=
  [.sta, .stx, .sty, .inc, .dec, .asl, .lsr, .rol, .ror, .pha, .php, .jsr, .brk]

/-- `k` events of the driver. -/
def runSteps (c : Config) : Nat → State → Host.Outcome State Fault Refusal
  | 0, s => .next s
  | k + 1, s =>
    match stepWith c s with
    | .next t => runSteps c k t
    | .fault f => .fault f
    | .refused r => .refused r

/-- `k` instructions, each cut to its first `Clock`: the instruction-level step of
70_reset_and_hazards.md R260, with the countdown dropped. -/
def runInstrs (c : Config) : Nat → State → Host.Outcome State Fault Refusal
  | 0, s => .next s
  | k + 1, s =>
    match stepWith c s with
    | .next t => runInstrs c k (t.setCycles 0)
    | .fault f => .fault f
    | .refused r => .refused r

/-- One event at an instruction boundary, an instruction taking `base` for its base count in place of
the table's: the counter is a separate output (70_reset_and_hazards.md R260). -/
def instrWithBase (c : Config) (base : Byte) (s : State) : Host.Outcome State Fault Refusal :=
  match nextEvent s with
  | .clock => exec (instrAt c s.beginEvent) ((s.beginEvent.beginInstr c).setCycles base)
  | e => deliver c e s.beginEvent

/-- Instructions run one after the other, each with the base count the list gives it. -/
def runWithBases (c : Config) : List Byte → State → Host.Outcome State Fault Refusal
  | [], s => .next s
  | base :: bases, s =>
    match instrWithBase c base s with
    | .next t => runWithBases c bases (t.setCycles 0)
    | .fault f => .fault f
    | .refused r => .refused r

/-- A safe run: `k` events each answer a next state. -/
def SafeFor (c : Config) (k : Nat) (s : State) : Prop := ∃ t, runSteps c k s = .next t

/-- The invariant of the machine at the default parameters: memory in canonical form, the mode tag the
one the table gives the current opcode (10_state.md R31), the counter at most 8 (R32). -/
def Inv (s : State) : Prop :=
  s.mem.wf = true ∧ s.mode = (describe Config.default s.opcode).mode ∧ s.cycles.toNat ≤ 8

end Sys2Proof.Machine
end

