-- ==== Sys2Proof/Certificates/Slice0/Obligations.lean ====
section
/-! DEFINITION. The statements for the provers. Each formalises sentences of spec/; OBLIGATIONS.json
says which. -/

open Sys2Proof Sys2Proof.Machine

/-- Decode and encode agree for every well-formed instruction, at every value of its operands and of the
parameters, whatever bytes follow (30_encoding.md sections 1 and 2). -/
def Obligations.DecodeOfEncodeIsIdentity : Prop :=
  ∀ (c : Config) (i : Instr) (rest : List Byte), i.wellFormed c = true →
    decode c (encode i ++ rest) = .ok (i, rest)

/-- Each instruction's bytes are what the decoder read: no bit of an encoding is dropped. -/
def Obligations.EncodeOfDecodeGivesTheBytes : Prop :=
  ∀ (c : Config) (op b1 b2 : Byte),
    encode (decodeBytes c op b1 b2) = [op, b1, b2].take (decodeBytes c op b1 b2).length

/-- 30_encoding.md R92: every byte value decodes to exactly one descriptor, the documented one or UND's,
and decoding never fails. -/
def Obligations.EveryOpcodeByteDecodes : Prop :=
  ∀ (c : Config) (op b1 b2 : Byte) (rest : List Byte),
    (∃ i left, decode c (op :: b1 :: b2 :: rest) = .ok (i, left) ∧ i.wellFormed c = true) ∧
    ((∃ r ∈ documentedRows c, r.opcode = op) ↔ op ∉ undefinedOpcodes) ∧
    (∀ r ∈ documentedRows c, r.opcode = op → describe c op = r) ∧
    (op ∈ undefinedOpcodes → describe c op = ⟨op, .und, c.undefMode op, c.undefCycles op⟩)

/-- Words written out from the spec's encodings decode to what they stand for, one or more of every
family. The opcode values are general knowledge in the spec (decision D4; log entry 7). That 0x1C has the
mode IMP and is in `UNDEF_EXTRA` are the defaults of those parameters, the spec's choice (decision D6; log
entry 5). -/
def Obligations.SpecWordsDecode : Prop :=
  decodeTableWord 16 0x00A9 = some (.lda (.imm 0x00)) ∧
  decodeTableWord 24 0x80004C = some (.jmp (.abs 0x8000)) ∧
  decodeTableWord 24 0x123420 = some (.jsr 0x1234) ∧
  decodeTableWord 24 0x12F07D = some (.adc (.abx 0x12F0)) ∧
  decodeTableWord 16 0x2031 = some (.and (.izy 0x20)) ∧
  decodeTableWord 16 0x1076 = some (.ror (.zpx 0x10)) ∧
  decodeTableWord 24 0x02FFD9 = some (.cmp (.aby 0x02FF)) ∧
  decodeTableWord 8 0xCA = some .dex ∧
  decodeTableWord 16 0xF096 = some (.stx (.zpy 0xF0)) ∧
  decodeTableWord 8 0x28 = some .plp ∧
  decodeTableWord 16 0xF9D0 = some (.bne 0xF9) ∧
  decodeTableWord 24 0x02FF6C = some (.jmp (.ind 0x02FF)) ∧
  decodeTableWord 8 0x78 = some .sei ∧
  decodeTableWord 8 0x1C = some (.und 0x1C true .imp)

/-- The resolvers of 40_addressing_modes.md R101 to R106 and R112: what each writes, how far it moves
PC, what it reads, and that it never signals; IMM's byte is read by `fetch()`; of all documented rows,
whatever the parameters, only the branches' have REL, and of all 256 descriptors only theirs and those of
the undefined opcodes that `UNDEF_MODE` gives it (`Obligations.DefaultTableHasRelOnlyForBranches` is about
the default). -/
def Obligations.UnindexedResolvers : Prop :=
  ∀ s : State,
    let b1 := s.mem.read s.pc
    let b2 := s.mem.read (s.pc + 1)
    (resolveMode .imp s = { s with fetched := s.a } ∧ modeSignal .imp s = false) ∧
    (resolveMode .imm s = { s with addrAbs := s.pc, pc := s.pc + 1 } ∧ modeSignal .imm s = false ∧
      ((resolveMode .imm s).fetchOperand (.imm b1)).fetched = b1 ∧
      ((resolveMode .imm s).fetchOperand (.imm b1)).bus = s.bus ++ [.read s.pc b1]) ∧
    (resolveMode .zp0 s = { s with
        addrAbs := BitVec.ofNat 16 b1.toNat, pc := s.pc + 1, bus := s.bus ++ [.read s.pc b1] } ∧
      modeSignal .zp0 s = false) ∧
    (resolveMode .zpx s = { s with
        addrAbs := BitVec.ofNat 16 ((b1.toNat + s.x.toNat) % 256), pc := s.pc + 1,
        bus := s.bus ++ [.read s.pc b1] } ∧ modeSignal .zpx s = false) ∧
    (resolveMode .zpy s = { s with
        addrAbs := BitVec.ofNat 16 ((b1.toNat + s.y.toNat) % 256), pc := s.pc + 1,
        bus := s.bus ++ [.read s.pc b1] } ∧ modeSignal .zpy s = false) ∧
    (resolveMode .abs s = { s with
        addrAbs := BitVec.ofNat 16 (b2.toNat * 256 + b1.toNat), pc := s.pc + 2,
        bus := s.bus ++ [.read s.pc b1, .read (s.pc + 1) b2] } ∧ modeSignal .abs s = false) ∧
    (resolveMode .rel s = { s with
        addrRel := BitVec.ofNat 16 (if b1.getLsbD 7 then 0xFF00 + b1.toNat else b1.toNat),
        pc := s.pc + 1, bus := s.bus ++ [.read s.pc b1] } ∧ modeSignal .rel s = false) ∧
    (∀ c : Config, ∀ r ∈ documentedRows c, r.mode = .rel ↔ r.operation ∈ branches) ∧
    (∀ (c : Config) (op : Byte), (describe c op).mode = .rel ↔
      (describe c op).operation ∈ branches ∨ (op ∈ undefinedOpcodes ∧ c.undefMode op = .rel))

/-- The indexed absolute resolvers: the sum modulo 65536 and the signal, true exactly when the low byte
plus the index leaves the page. The wrap is the spec's own inference (40_addressing_modes.md, rule of
ABX: "16-bit field, decision D11"; log entry 12). -/
def Obligations.IndexedAbsoluteResolvers : Prop :=
  ∀ s : State,
    let b1 := s.mem.read s.pc
    let b2 := s.mem.read (s.pc + 1)
    let reads : List Access := [.read s.pc b1, .read (s.pc + 1) b2]
    (resolveMode .abx s = { s with
        addrAbs := BitVec.ofNat 16 ((b2.toNat * 256 + b1.toNat + s.x.toNat) % 65536),
        pc := s.pc + 2, bus := s.bus ++ reads } ∧
      modeSignal .abx s = decide (256 ≤ b1.toNat + s.x.toNat)) ∧
    (resolveMode .aby s = { s with
        addrAbs := BitVec.ofNat 16 ((b2.toNat * 256 + b1.toNat + s.y.toNat) % 65536),
        pc := s.pc + 2, bus := s.bus ++ reads } ∧
      modeSignal .aby s = decide (256 ≤ b1.toNat + s.y.toNat))

/-- IND: the high byte comes from the start of the same page when the pointer's low byte is 0xFF, else
from the next address; no signal. The order of the two pointer reads and the missing signal are the
spec's own choices (decision D27 and "derived" in the rule of IND; log entry 13). -/
def Obligations.IndirectResolverStaysInPage : Prop :=
  ∀ s : State,
    let lo := s.mem.read s.pc
    let hi := s.mem.read (s.pc + 1)
    let ptr := BitVec.ofNat 16 (hi.toNat * 256 + lo.toNat)
    let high := if lo.toNat = 255 then BitVec.ofNat 16 (hi.toNat * 256) else ptr + 1
    resolveMode .ind s = { s with
        addrAbs := BitVec.ofNat 16 ((s.mem.read high).toNat * 256 + (s.mem.read ptr).toNat),
        pc := s.pc + 2,
        bus := s.bus ++ [.read s.pc lo, .read (s.pc + 1) hi, .read ptr (s.mem.read ptr),
          .read high (s.mem.read high)] } ∧
      modeSignal .ind s = false

/-- IZX and IZY: both pointer bytes lie in page zero; IZY adds Y to the pointer's value and signals when
that leaves the page. The page-zero wrap of the pointer is general knowledge in the spec (decision D10;
log entry 12). -/
def Obligations.PageZeroPointerResolvers : Prop :=
  ∀ s : State,
    let t := (s.mem.read s.pc).toNat
    let zero := fun n => BitVec.ofNat 16 (n % 256)
    let byte := fun n => (s.mem.read (zero n)).toNat
    let traffic := fun n : Nat => ([.read s.pc (s.mem.read s.pc),
      .read (zero n) (s.mem.read (zero n)), .read (zero (n + 1)) (s.mem.read (zero (n + 1)))] :
      List Access)
    (resolveMode .izx s = { s with
        addrAbs := BitVec.ofNat 16 (byte (t + s.x.toNat + 1) * 256 + byte (t + s.x.toNat)),
        pc := s.pc + 1, bus := s.bus ++ traffic (t + s.x.toNat) } ∧
      modeSignal .izx s = false) ∧
    (resolveMode .izy s = { s with
        addrAbs := BitVec.ofNat 16 ((byte (t + 1) * 256 + byte t + s.y.toNat) % 65536),
        pc := s.pc + 1, bus := s.bus ++ traffic t } ∧
      modeSignal .izy s = decide (256 ≤ byte t + s.y.toNat))

/-- Only ABX, ABY and IZY can report a page cross, and each of them does somewhere; an instruction whose
operation returns false, and that is no taken branch (`Obligations.BranchResults` has those), keeps its
cycle count whether or not the index crosses a page; the base counts of 0x9D (STA ABX) and 0x1E (ASL ABX)
are 5 and 7 (40_addressing_modes.md section 4). Which operations return false is the spec's decision D8
(log entry 11); the two opcode values and counts are general knowledge in the spec (decisions D4 and D5;
log entry 7). -/
def Obligations.OnlyThreeModesReportPageCross : Prop :=
  (∀ (o : Operand) (s : State), pageCross o s = true →
    o.mode = .abx ∨ o.mode = .aby ∨ o.mode = .izy) ∧
  (∀ m ∈ [Mode.abx, .aby, .izy], ∃ (o : Operand) (s : State),
    o.mode = m ∧ pageCross o s = true) ∧
  (∀ (i : Instr) (s : State), signals i = false → branchTaken i s = false →
    Yields i s (fun t => t.cycles = s.cycles)) ∧
  (∀ c : Config, (describe c 0x9D).base = 5 ∧ (describe c 0x1E).base = 7)

/-- `fetch()`: for IMP the accumulator and no read; else one read of the resolved address, the byte of
IMM among them; and nothing else changes (40_addressing_modes.md section 3). -/
def Obligations.FetchReadsTheOperandOnce : Prop :=
  ∀ (m : Mode) (s : State), m ≠ .rel →
    let o := assemble m (s.mem.read s.pc) (s.mem.read (s.pc + 1))
    let r := resolveMode m s
    if m = .imp then (r.fetchOperand o) = { s with fetched := s.a }
    else (r.fetchOperand o) = { r with
      fetched := s.mem.read r.addrAbs,
      bus := r.bus ++ [.read r.addrAbs (s.mem.read r.addrAbs)] }

/-- 10_state.md R30: a flag write changes one bit of P and no other; it ORs or ANDs the bit in; a flag
read tests the bit, and counts as 0 or 1 in a sum. -/
def Obligations.FlagWriteChangesOneBit : Prop :=
  ∀ (s : State) (f g : Flag) (on : Bool),
    (s.setFlag f on).flag g = (if g = f then on else s.flag g) ∧
    s.setFlag f on = { s with p := if on then s.p ||| f.mask else s.p &&& ~~~f.mask } ∧
    (s.flagNat f = if s.flag f = true then 1 else 0) ∧
    (s.flag f = false ↔ s.p &&& f.mask = 0)

/-- The layout of P: C0 Z1 I2 D3 B4 U5 V6 N7. All but Unused's place is the spec's inference (decision
D3; log entry 8). -/
def Obligations.StatusLayout : Prop :=
  ∀ s : State, s.p.toNat = s.flagNat .c + 2 * s.flagNat .z + 4 * s.flagNat .i + 8 * s.flagNat .d +
    16 * s.flagNat .b + 32 * s.flagNat .u + 64 * s.flagNat .v + 128 * s.flagNat .n

/-- ADC and SBC: the binary sum, carry, zero, negative and the overflow expression of the spec (conflict
C1, decision D28; log entry 15), and the frame. -/
def Obligations.AddAndSubtractResults : Prop :=
  ∀ (o : Operand) (s : State),
    let m := operandValue o s
    let sum := s.a.toNat + m.toNat + s.flagNat .c
    let diff := s.a.toNat + (255 - m.toNat) + s.flagNat .c
    Yields (.adc o) s (fun t =>
      t.a.toNat = sum % 256 ∧ t.flag .c = decide (255 < sum) ∧ t.flag .z = decide (sum % 256 = 0) ∧
      t.flag .v = ((~~~(s.a ^^^ m)) &&& (s.a ^^^ t.a)).getLsbD 7 ∧
      t.flag .n = decide (128 ≤ sum % 256) ∧ Frame [.a] [.c, .z, .v, .n] [] s t) ∧
    Yields (.sbc o) s (fun t =>
      t.a.toNat = diff % 256 ∧ t.flag .c = decide (255 < diff) ∧
      t.flag .z = decide (diff % 256 = 0) ∧
      t.flag .v = ((s.a ^^^ m) &&& (s.a ^^^ t.a)).getLsbD 7 ∧
      t.flag .n = decide (128 ≤ diff % 256) ∧ Frame [.a] [.c, .z, .v, .n] [] s t)

/-- V after ADC and SBC is the signed overflow, C after SBC the absence of a borrow; both are the spec's
own reading of its pseudocode (41_arithmetic.md; log entry 15). -/
def Obligations.OverflowIsSignedOverflow : Prop :=
  ∀ (o : Operand) (s : State),
    let m := operandValue o s
    let added := s.a.toInt + m.toInt + (s.flagNat .c : Int)
    let taken := s.a.toInt - m.toInt - (1 - (s.flagNat .c : Int))
    Yields (.adc o) s (fun t => t.flag .v = decide (added < -128 ∨ 127 < added)) ∧
    Yields (.sbc o) s (fun t => t.flag .v = decide (taken < -128 ∨ 127 < taken) ∧
      t.flag .c = decide (m.toNat + (1 - s.flagNat .c) ≤ s.a.toNat))

/-- The Decimal flag changes nothing: an instruction that neither pushes nor writes P does the same with
D at either value, and leaves D as it found it (10_state.md section 3). That SED and CLD exist is
general knowledge in the spec (log entry 16). -/
def Obligations.DecimalFlagHasNoEffect : Prop :=
  ∀ (i : Instr) (s t : State) (d : Bool),
    i.mnemonic ∉ [Mnemonic.sed, .cld, .php, .plp, .brk, .rti] →
    exec i s = .next t → exec i (s.setFlag .d d) = .next (t.setFlag .d d)

/-- 42_logical.md R125: AND, ORA and EOR write A, Z and N and nothing else and return the signal true;
BIT takes N and V from the operand's bits 7 and 6 and Z from the AND. -/
def Obligations.LogicalResults : Prop :=
  ∀ (o : Operand) (s : State),
    let m := operandValue o s
    let zn := fun (v : Byte) (t : State) =>
      t.flag .z = decide (v = 0) ∧ t.flag .n = decide (128 ≤ v.toNat)
    let extra := fun t : State => t.cycles = if pageCross o s then s.cycles + 1 else s.cycles
    Yields (.and o) s (fun t => t.a = s.a &&& m ∧ zn t.a t ∧ extra t ∧ t.pc = s.pc ∧
      Frame [.a] [.z, .n] [] s t) ∧
    Yields (.ora o) s (fun t => t.a = s.a ||| m ∧ zn t.a t ∧ extra t ∧ t.pc = s.pc ∧
      Frame [.a] [.z, .n] [] s t) ∧
    Yields (.eor o) s (fun t => t.a = s.a ^^^ m ∧ zn t.a t ∧ extra t ∧ t.pc = s.pc ∧
      Frame [.a] [.z, .n] [] s t) ∧
    Yields (.bit o) s (fun t => t.flag .z = decide (s.a &&& m = 0) ∧ t.flag .n = m.getLsbD 7 ∧
      t.flag .v = m.getLsbD 6 ∧ Frame [] [.z, .n, .v] [] s t)

/-- What a shift or rotate of `m` to `r` with `out` shifted out leaves: the result in A for IMP and in
memory else, C, Z and N, and the frame. -/
def ShiftLeaves (o : Operand) (s : State) (r : Nat) (out : Bool) (t : State) : Prop :=
  (resultAt o s t).toNat = r ∧ t.flag .c = out ∧ t.flag .z = decide (r = 0) ∧
  t.flag .n = decide (128 ≤ r) ∧
  Frame (if o = .imp then [.a] else []) [.c, .z, .n]
    (if o = .imp then [] else [effectiveAddress o s]) s t

/-- ASL, LSR, ROL and ROR, accumulator and memory forms. Z and N from the result are general knowledge
in the spec (decision D21; log entry 16), as is the carry rotated in. -/
def Obligations.ShiftAndRotateResults : Prop :=
  ∀ (o : Operand) (s : State),
    let m := (operandValue o s).toNat
    let cin := s.flagNat .c
    Yields (.asl o) s (ShiftLeaves o s (2 * m % 256) (decide (128 ≤ m))) ∧
    Yields (.lsr o) s (ShiftLeaves o s (m / 2) (decide (m % 2 = 1))) ∧
    Yields (.rol o) s (ShiftLeaves o s ((2 * m + cin) % 256) (decide (128 ≤ m))) ∧
    Yields (.ror o) s (ShiftLeaves o s (128 * cin + m / 2) (decide (m % 2 = 1)))

/-- Nine ROLs in a row restore the accumulator and the carry, and so do nine RORs
(43_shift_rotate.md, corner cases of ROL). -/
def Obligations.NineRotatesRestore : Prop :=
  ∀ (i : Instr) (s : State), (i = .rol .imp ∨ i = .ror .imp) →
    let again := fun r : Option State => r.bind fun t =>
      match exec i t with
      | .next u => some u
      | .fault _ => none
      | .refused _ => none
    ∃ t, again^[9] (some s) = some t ∧ t.a = s.a ∧ t.flag .c = s.flag .c

/-- CMP, CPX and CPY: C is "no borrow", Z equality, N bit 7 of the difference; nothing else changes. -/
def Obligations.CompareResults : Prop :=
  ∀ (o : Operand) (s : State),
    let m := (operandValue o s).toNat
    let leaves := fun (reg : Byte) (t : State) =>
      t.flag .c = decide (m ≤ reg.toNat) ∧ t.flag .z = decide (reg.toNat = m) ∧
      t.flag .n = decide (128 ≤ (reg.toNat + 256 - m) % 256) ∧ t.pc = s.pc ∧
      Frame [] [.c, .z, .n] [] s t
    Yields (.cmp o) s (leaves s.a) ∧ Yields (.cpx o) s (leaves s.x) ∧
      Yields (.cpy o) s (leaves s.y)

/-- 45_incdec.md R145: plus or minus one with wraparound on memory, X or Y; Z and N from the result; no
carry, no overflow; the signal false; INC and DEC make one read and one write of the operand address
and have no accumulator form, the others touch no memory. -/
def Obligations.IncrementAndDecrementResults : Prop :=
  ∀ (o : Operand) (s : State),
    let zn := fun (v : Nat) (t : State) =>
      t.flag .z = decide (v % 256 = 0) ∧ t.flag .n = decide (128 ≤ v % 256)
    let memory := fun (v : Nat) (t : State) =>
      (t.mem.read (effectiveAddress o s)).toNat = v % 256 ∧ zn v t ∧ t.cycles = s.cycles ∧
      t.pc = s.pc ∧ Frame [] [.z, .n] [effectiveAddress o s] s t ∧
      (o ≠ .imp → t.bus = s.bus ++ (pointerAddrs o s).map (fun a => .read a (s.mem.read a)) ++
        [.read (effectiveAddress o s) (operandValue o s),
          .write (effectiveAddress o s) (t.mem.read (effectiveAddress o s))])
    let register := fun (r : Reg) (v : Nat) (t : State) =>
      (t.reg r).toNat = v % 256 ∧ zn v t ∧ t.cycles = s.cycles ∧ t.pc = s.pc ∧
      t.bus = s.bus ∧ Frame [r] [.z, .n] [] s t
    opcodeOf .inc .imp = none ∧ opcodeOf .dec .imp = none ∧
    Yields (.inc o) s (memory ((operandValue o s).toNat + 1)) ∧
    Yields (.dec o) s (memory ((operandValue o s).toNat + 255)) ∧
    Yields .inx s (register .x (s.x.toNat + 1)) ∧ Yields .iny s (register .y (s.y.toNat + 1)) ∧
    Yields .dex s (register .x (s.x.toNat + 255)) ∧ Yields .dey s (register .y (s.y.toNat + 255))

/-- LDA, LDX and LDY copy the operand and set Z and N from it. That LDX and LDY exist is general
knowledge in the spec (decision D29; log entry 16). -/
def Obligations.LoadResults : Prop :=
  ∀ (o : Operand) (s : State),
    let m := operandValue o s
    let leaves := fun (r : Reg) (t : State) =>
      t.reg r = m ∧ t.flag .z = decide (m = 0) ∧ t.flag .n = decide (128 ≤ m.toNat) ∧
      t.pc = s.pc ∧ Frame [r] [.z, .n] [] s t
    Yields (.lda o) s (leaves .a) ∧ Yields (.ldx o) s (leaves .x) ∧ Yields (.ldy o) s (leaves .y)

/-- STA, STX and STY copy the register to the resolved address and write nothing else, no flag among it.
That they exist is general knowledge in the spec (decision D29; log entry 16). -/
def Obligations.StoreResults : Prop :=
  ∀ (o : Operand) (s : State),
    let leaves := fun (r : Reg) (t : State) =>
      t.mem.read (effectiveAddress o s) = s.reg r ∧ t.p = s.p ∧ t.pc = s.pc ∧
      Frame [] [] [effectiveAddress o s] s t
    Yields (.sta o) s (leaves .a) ∧ Yields (.stx o) s (leaves .x) ∧ Yields (.sty o) s (leaves .y)

/-- The six transfers; all but TXS set Z and N from the byte copied. That all but TXS exist is general
knowledge in the spec (decision D29; log entry 16). -/
def Obligations.TransferResults : Prop :=
  ∀ s : State,
    let leaves := fun (source target : Reg) (t : State) =>
      t.reg target = s.reg source ∧ t.flag .z = decide (s.reg source = 0) ∧
      t.flag .n = decide (128 ≤ (s.reg source).toNat) ∧ Frame [target] [.z, .n] [] s t
    Yields .tax s (leaves .a .x) ∧ Yields .tay s (leaves .a .y) ∧ Yields .txa s (leaves .x .a) ∧
    Yields .tya s (leaves .y .a) ∧ Yields .tsx s (leaves .sp .x) ∧
    Yields .txs s (fun t => t.sp = s.x ∧ t.p = s.p ∧ Frame [.sp] [] [] s t)

/-- 47_stack.md R170 and R171: a push writes in page one at SP and then decrements, a pull increments and
then reads; both wrap; a 16-bit value lies little-endian; a pull after a push gives the value back
and restores SP, and erases nothing. -/
def Obligations.PushAndPull : Prop :=
  ∀ (s : State) (v hi lo : Byte),
    let at' := fun n : Nat => BitVec.ofNat 16 (0x0100 + n % 256)
    let pushed := s.push v
    let pair := (s.push hi).push lo
    (pushed.sp.toNat = (s.sp.toNat + 255) % 256 ∧ pushed.mem.read (at' s.sp.toNat) = v ∧
      (∀ a, a ≠ at' s.sp.toNat → pushed.mem.read a = s.mem.read a) ∧
      pushed.bus = s.bus ++ [.write (at' s.sp.toNat) v]) ∧
    (pair.mem.read (at' s.sp.toNat) = hi ∧ pair.mem.read (at' (s.sp.toNat + 255)) = lo) ∧
    (s.pull.sp.toNat = (s.sp.toNat + 1) % 256 ∧ s.top = s.mem.read (at' (s.sp.toNat + 1)) ∧
      s.pull.mem = s.mem ∧ s.pull.bus = s.bus ++ [.read (at' (s.sp.toNat + 1)) s.top]) ∧
    (pushed.top = v ∧ pushed.pull.sp = s.sp)

/-- PHA, PLA, PHP and PLP. -/
def Obligations.StackInstructionResults : Prop :=
  ∀ s : State,
    let free := stackAddr s.sp
    let top := s.mem.read (stackAddr (s.sp + 1))
    Yields .pha s (fun t => t.mem.read free = s.a ∧ t.sp = s.sp - 1 ∧ t.p = s.p ∧
      Frame [.sp] [] [free] s t) ∧
    Yields .pla s (fun t => t.a = top ∧ t.sp = s.sp + 1 ∧ t.flag .z = decide (top = 0) ∧
      t.flag .n = decide (128 ≤ top.toNat) ∧ Frame [.a, .sp] [.z, .n] [] s t) ∧
    Yields .php s (fun t => t.mem.read free = s.p ||| 0x30 ∧ t.sp = s.sp - 1 ∧ t.p = s.p ∧
      Frame [.sp] [] [free] s t) ∧
    Yields .plp s (fun t => t.p = top ||| 0x20 ∧ t.sp = s.sp + 1 ∧ Frame [.sp] allFlags [] s t)

/-- PHA then PLA gives the accumulator and SP back and recomputes Z and N from it, whatever the flags
were before the push (47_stack.md, quoted property of section 2). -/
def Obligations.PushPullAccumulatorRoundTrip : Prop :=
  ∀ s : State, Yields .pha s (fun t => ∀ p : Byte, Yields .pla { t with a := 0, p := p } (fun u =>
    u.a = s.a ∧ u.sp = s.sp ∧ u.flag .z = decide (s.a = 0) ∧ u.flag .n = decide (128 ≤ s.a.toNat)))

/-- JMP, JSR and RTS. PC is behind the instruction when the meaning starts, so JSR pushes PC minus 1,
high byte first (conflict C2; log entry 15). The wraps at 16 bits are the spec's inference (decision D11;
log entry 12). -/
def Obligations.JumpResults : Prop :=
  ∀ (o : Operand) (target : Word) (s : State),
    let back := s.pc - 1
    let lo := s.mem.read (stackAddr (s.sp + 1))
    let hi := s.mem.read (stackAddr (s.sp + 2))
    Yields (.jmp o) s (fun t => t.pc = effectiveAddress o s ∧ t.p = s.p ∧ Frame [] [] [] s t) ∧
    Yields (.jsr target) s (fun t => t.pc = target ∧ t.sp = s.sp - 2 ∧ t.p = s.p ∧
      t.mem.read (stackAddr s.sp) = hiByte back ∧
      t.mem.read (stackAddr (s.sp - 1)) = loByte back ∧
      Frame [.sp] [] [stackAddr s.sp, stackAddr (s.sp - 1)] s t) ∧
    Yields .rts s (fun t => t.pc.toNat = (hi.toNat * 256 + lo.toNat + 1) % 65536 ∧
      t.sp = s.sp + 2 ∧ t.p = s.p ∧ Frame [.sp] [] [] s t)

/-- RTS after JSR, with the stack as JSR left it, resumes at the instruction after the JSR and restores
SP (48_control_flow.md section 1). -/
def Obligations.SubroutineReturnsBehindTheCall : Prop :=
  ∀ (target : Word) (s : State), Yields (.jsr target) s (fun t =>
    ∀ u : State, u.sp = t.sp → u.mem.read (stackAddr s.sp) = t.mem.read (stackAddr s.sp) →
      u.mem.read (stackAddr (s.sp - 1)) = t.mem.read (stackAddr (s.sp - 1)) →
      Yields .rts u (fun v => v.pc = s.pc ∧ v.sp = s.sp))

/-- What a branch leaves: PC at the signed offset from the instruction after the branch or unchanged,
one cycle more when taken and a second when the target is on another page, no flag. -/
def BranchLeaves (rel8 : Byte) (taken : Bool) (s t : State) : Prop :=
  (if taken = true then
    (t.pc.toNat : Int) = ((s.pc.toNat : Int) + rel8.toInt) % 65536 ∧
    t.cycles = s.cycles + (if t.pc.toNat / 256 = s.pc.toNat / 256 then 1 else 2)
  else t.pc = s.pc ∧ t.cycles = s.cycles) ∧ t.p = s.p ∧ Frame [] [] [] s t

/-- The eight branches. The wrap of the target at 16 bits is the spec's inference (decision D11; log
entry 12). -/
def Obligations.BranchResults : Prop :=
  ∀ (rel8 : Byte) (s : State),
    Yields (.bcc rel8) s (BranchLeaves rel8 (!s.flag .c) s) ∧
    Yields (.bcs rel8) s (BranchLeaves rel8 (s.flag .c) s) ∧
    Yields (.beq rel8) s (BranchLeaves rel8 (s.flag .z) s) ∧
    Yields (.bne rel8) s (BranchLeaves rel8 (!s.flag .z) s) ∧
    Yields (.bpl rel8) s (BranchLeaves rel8 (!s.flag .n) s) ∧
    Yields (.bmi rel8) s (BranchLeaves rel8 (s.flag .n) s) ∧
    Yields (.bvc rel8) s (BranchLeaves rel8 (!s.flag .v) s) ∧
    Yields (.bvs rel8) s (BranchLeaves rel8 (s.flag .v) s)

/-- BRK: PC past itself pushed high then low, then P with B and I set; I set and B clear afterwards; PC
from the IRQ/BRK vector. "Past itself" is read as one more than the fetch's advance (decision D7; log
entry 6). -/
def Obligations.BrkEntersTheHandler : Prop :=
  ∀ s : State,
    let back := s.pc + 1
    Yields .brk s (fun t =>
      t.pc.toNat = (s.mem.read 0xFFFF).toNat * 256 + (s.mem.read 0xFFFE).toNat ∧
      t.sp = s.sp - 3 ∧ t.flag .i = true ∧ t.flag .b = false ∧
      t.mem.read (stackAddr s.sp) = hiByte back ∧
      t.mem.read (stackAddr (s.sp - 1)) = loByte back ∧
      t.mem.read (stackAddr (s.sp - 2)) = s.p ||| 0x14 ∧
      Frame [.sp] [.i, .b] [stackAddr s.sp, stackAddr (s.sp - 1), stackAddr (s.sp - 2)] s t)

/-- RTI: P from the stack with B and U cleared, then PC low and high with no increment. -/
def Obligations.RtiRestores : Prop :=
  ∀ s : State,
    let status := s.mem.read (stackAddr (s.sp + 1))
    let lo := s.mem.read (stackAddr (s.sp + 2))
    let hi := s.mem.read (stackAddr (s.sp + 3))
    Yields .rti s (fun t => t.p = status &&& 0xCF ∧ t.pc.toNat = hi.toNat * 256 + lo.toNat ∧
      t.sp = s.sp + 3 ∧ Frame [.sp] allFlags [] s t)

/-- The seven flag instructions each write one bit of P and nothing else. Their existence is general
knowledge in the spec (decision D20; log entry 16). -/
def Obligations.FlagInstructionResults : Prop :=
  ∀ s : State,
    let leaves := fun (f : Flag) (on : Bool) (t : State) =>
      t.flag f = on ∧ t.pc = s.pc ∧ Frame [] [f] [] s t
    Yields .clc s (leaves .c false) ∧ Yields .sec s (leaves .c true) ∧
    Yields .cli s (leaves .i false) ∧ Yields .sei s (leaves .i true) ∧
    Yields .cld s (leaves .d false) ∧ Yields .sed s (leaves .d true) ∧
    Yields .clv s (leaves .v false)

/-- NOP and UND change no register, no flag, no memory byte and not PC; UND may only gain the extra cycle
and makes no operand read. The parameters of UND are decision D6 (log entry 5). -/
def Obligations.NoOperationResults : Prop :=
  ∀ (op : Byte) (extra : Bool) (o : Operand) (s : State),
    Yields .nop s (fun t => t.p = s.p ∧ t.pc = s.pc ∧ t.mem = s.mem ∧ t.cycles = s.cycles ∧
      t.bus = s.bus ∧ Frame [] [] [] s t) ∧
    Yields (.und op extra o) s (fun t => t.p = s.p ∧ t.pc = s.pc ∧ t.mem = s.mem ∧
      t.cycles = s.cycles + (if pageCross o s && extra then 1 else 0) ∧
      t.bus = s.bus ++ (pointerAddrs o s).map (fun a => .read a (s.mem.read a)) ∧
      Frame [] [] [] s t)

/-- Every instruction adds to the cycle counter exactly the page-cross cycle and the branch cycles
(60_exceptions.md section 3; which operations signal is decision D8, log entry 11), and leaves the
driver's events, the opcode and the mode tag alone. -/
def Obligations.ExtraCyclesOfEveryInstruction : Prop :=
  ∀ (i : Instr) (s : State), Yields i s (fun t =>
    t.cycles = s.cycles + BitVec.ofNat 8 (extraCycles i s) ∧ t.events = s.events ∧
    t.opcode = s.opcode ∧ t.mode = s.mode)

/-- Which instruction can change which flag (the table of 10_state.md section 3; the flag instructions'
rows are general knowledge in the spec, log entry 16). -/
def Obligations.OnlyListedInstructionsWriteFlags : Prop :=
  ∀ (i : Instr) (s t : State) (f : Flag), exec i s = .next t → t.flag f ≠ s.flag f →
    i.mnemonic ∈ flagWriters f

/-- Exactly PLP, RTI, BRK, reset and the interrupt entries change Break and Unused; PHP, the countdown and
an instruction's start do not (10_state.md section 3). That the entries change the live bits, before
the push, is the spec's decision D16 (log entry 17). -/
def Obligations.BreakAndUnusedAreStorageBits : Prop :=
  (∀ (i : Instr) (s : State), i.mnemonic ∉ [Mnemonic.plp, .rti, .brk] →
    Yields i s (fun t => t.flag .b = s.flag .b ∧ t.flag .u = s.flag .u)) ∧
  (∀ s : State,
    let top := s.mem.read (stackAddr (s.sp + 1))
    Yields .plp s (fun t => t.flag .b = getFlag .b top ∧ t.flag .u = true) ∧
    Yields .rti s (fun t => t.flag .b = false ∧ t.flag .u = false) ∧
    Yields .brk s (fun t => t.flag .b = false ∧ t.flag .u = s.flag .u ∧
      t.mem.read (stackAddr (s.sp - 2)) = s.p ||| 0x14) ∧
    Yields .php s (fun t => t.p = s.p ∧ t.mem.read (stackAddr s.sp) = s.p ||| 0x30)) ∧
  (∀ (c : Config) (s : State),
    ((s.takeReset c).flag .b = false ∧ (s.takeReset c).flag .u = true) ∧
    (s.takeNmi.flag .b = false ∧ s.takeNmi.flag .u = true ∧
      s.takeNmi.mem.read (stackAddr (s.sp - 2)) = (s.p &&& 0xEF) ||| 0x20) ∧
    (s.flag .i = false → s.takeIrq.flag .b = false ∧ s.takeIrq.flag .u = true ∧
      s.takeIrq.mem.read (stackAddr (s.sp - 2)) = (s.p &&& 0xEF) ||| 0x20) ∧
    (s.flag .i = true → s.takeIrq.p = s.p) ∧
    (s.cycles ≠ 0 → ∃ t, clockEvent c s = .next t ∧ t.p = s.p) ∧
    ((s.beginInstr c).p = s.p))

/-- Which instruction can change which register and PC; the accumulator changes through a shift only in
its IMP form (10_state.md sections 1 and 2). -/
def Obligations.OnlyListedInstructionsWriteRegisters : Prop :=
  ∀ (i : Instr) (s t : State), exec i s = .next t →
    (∀ r, t.reg r ≠ s.reg r → i.mnemonic ∈ regWriters r) ∧
    (t.a ≠ s.a → i.mnemonic ∈ [Mnemonic.asl, .lsr, .rol, .ror] → i.operand = .imp) ∧
    (t.pc ≠ s.pc → i.mnemonic ∈ pcWriters)

/-- Only stores, read-modify-writes on memory and pushes change memory; every other instruction leaves
the whole of it alone. -/
def Obligations.OnlyListedInstructionsWriteMemory : Prop :=
  ∀ (i : Instr) (s t : State), exec i s = .next t → t.mem ≠ s.mem →
    i.mnemonic ∈ memoryWriters ∧
    (i.mnemonic ∈ [Mnemonic.asl, .lsr, .rol, .ror] → i.operand ≠ .imp)

/-- The bus transactions, in order, of an instruction with an operand outside IMP: the resolver's pointer
reads, the one operand read of the operations that use an operand, then the one write of a store or a
read-modify-write. Which operations read an operand, the order and the single write are the spec's own
choices (decisions D9, D27, D30; log entry 13). The other instructions and the entries stand in
`Obligations.BusTrafficOfTheOthers`, UND in `Obligations.NoOperationResults`. -/
def Obligations.BusTrafficOfMemoryInstructions : Prop :=
  ∀ (o : Operand) (s : State), o ≠ .imp →
    let ea := effectiveAddress o s
    let pointer : List Access := (pointerAddrs o s).map (fun a => .read a (s.mem.read a))
    let operand : List Access := [.read ea (operandValue o s)]
    (∀ i ∈ [Instr.adc o, .sbc o, .and o, .ora o, .eor o, .bit o, .cmp o, .cpx o, .cpy o, .lda o,
        .ldx o, .ldy o], Yields i s (fun t => t.bus = s.bus ++ pointer ++ operand)) ∧
    (∀ i ∈ [Instr.asl o, .lsr o, .rol o, .ror o, .inc o, .dec o], Yields i s (fun t =>
      t.bus = s.bus ++ pointer ++ operand ++ [.write ea (t.mem.read ea)])) ∧
    (∀ i ∈ [Instr.sta o, .stx o, .sty o], Yields i s (fun t =>
      t.bus = s.bus ++ pointer ++ [.write ea (t.mem.read ea)])) ∧
    Yields (.jmp o) s (fun t => t.bus = s.bus ++ pointer)

/-- A step at an instruction boundary runs the instruction that the bytes at PC decode to: the clock
machine reads the opcode and the operand bytes, moves PC behind them, clears the transients, loads
the base count, runs the meaning and decrements. -/
def Obligations.StepRunsTheDecodedInstruction : Prop :=
  ∀ (c : Config) (s : State) (i : Instr) (rest : List Byte),
    nextEvent s = .clock → s.cycles = 0 →
    decode c [s.mem.read s.pc, s.mem.read (s.pc + 1), s.mem.read (s.pc + 2)] = .ok (i, rest) →
    let begun := s.beginEvent.beginInstr c
    stepWith c s = finishClock (exec i begun) ∧
    (∀ t, exec i begun = .next t → stepWith c s = .next { t with cycles := t.cycles - 1 }) ∧
    begun.pc = s.pc + BitVec.ofNat 16 i.length ∧
    begun.cycles = (describe c (s.mem.read s.pc)).base ∧ begun.opcode = s.mem.read s.pc ∧
    begun.mode = i.operand.mode ∧
    begun.fetched = 0 ∧ begun.addrAbs = 0 ∧ begun.addrRel = 0 ∧
    begun.a = s.a ∧ begun.x = s.x ∧ begun.y = s.y ∧ begun.sp = s.sp ∧ begun.p = s.p ∧
    begun.mem = s.mem ∧ begun.events = s.events.tail ∧
    begun.bus = .read s.pc (s.mem.read s.pc) ::
      (if i.operand.mode = .imm then []
       else ([.read (s.pc + 1) (s.mem.read (s.pc + 1)), .read (s.pc + 2) (s.mem.read (s.pc + 2))] :
        List Access).take (operandBytes i.operand.mode))

/-- 60_exceptions.md R224 and R227: with the counter above zero a `Clock` only counts down, changes
nothing else and makes no bus transaction; at zero it starts an instruction, the first transaction of
which is the opcode read at PC. -/
def Obligations.CountdownOnlyCountsDown : Prop :=
  ∀ s : State, nextEvent s = .clock →
    (s.cycles ≠ 0 → step s = .next
      { s with cycles := s.cycles - 1, events := s.events.tail, bus := [] }) ∧
    (s.cycles = 0 → StepYields s (fun t => t.opcode = s.mem.read s.pc ∧
      t.bus.head? = some (.read s.pc (s.mem.read s.pc))))

/-- 60_exceptions.md R222: no event and no instruction raises an exception; the step is total, at every
value of the parameters; no instruction but the jumps, calls, returns, branches and BRK moves PC. -/
def Obligations.NothingFaults : Prop :=
  (∀ (i : Instr) (s : State), ∃ t, exec i s = .next t) ∧
  (∀ (c : Config) (s : State), ∃ t, stepWith c s = .next t) ∧
  (∀ (c : Config) (k : Nat) (s : State), SafeFor c k s) ∧
  (∀ (i : Instr) (s t : State), exec i s = .next t → t.pc ≠ s.pc → i.mnemonic ∈ pcWriters)

/-- The counter never wraps, whatever the parameters inside their constraints: the first `Clock` of an
instruction leaves exactly its cycle count minus one, and the count is at least 1 and at most 255
(10_state.md section 5; the bound is the spec's inference, decision D19, log entry 9). -/
def Obligations.CounterStaysInRange : Prop :=
  ∀ (c : Config) (s : State), c.CountsValid → nextEvent s = .clock → s.cycles = 0 →
    1 ≤ instrCycles c s ∧ instrCycles c s ≤ 255 ∧
    ∃ t, stepWith c s = .next t ∧ t.cycles.toNat + 1 = instrCycles c s

/-- From idle an instruction occupies exactly n `Clock` events, n its base
count plus the extras, at every value of the parameters; the first makes all of its effects, the
others only count down; after the n-th the counter is 0. The entries take 8, 8, 7 and, for a masked
`Irq`, 0; the three base counts the source gives are 2, 3 and 2 (70_reset_and_hazards.md section 5). Which
operations signal is the spec's decision D8 (log entry 11); that an entry may come during a countdown and
assigns the counter is its decision D14 (log entry 17); the opcode values of the eight branches are general
knowledge in the spec (30_encoding.md section 2, decision D4; log entry 7). -/
def Obligations.InstructionOccupiesItsCycles : Prop :=
  (∀ (c : Config) (s : State), c.CountsValid → s.events = [] → s.cycles = 0 →
    let begun := s.beginEvent.beginInstr c
    let i := instrAt c s
    let n := instrCycles c s
    n = (describe c (s.mem.read s.pc)).base.toNat +
      (if pageCross i.operand begun && signals i then 1 else 0) +
      (if branchTaken i begun then 1 else 0) +
      (if branchTaken i begun && (hiByte (branchTarget i begun) != hiByte begun.pc)
        then 1 else 0) ∧
    1 ≤ n ∧ ∃ t, stepWith c s = .next t ∧ t.cycles.toNat = n - 1 ∧
      ∀ k, k + 1 < n → runSteps c (k + 2) s =
        .next { t with cycles := BitVec.ofNat 8 (n - (k + 2)), bus := [] }) ∧
  (∀ (c : Config) (s : State), (s.takeReset c).cycles = 8 ∧ s.takeNmi.cycles = 8 ∧
    s.takeIrq.cycles = if s.flag .i then s.cycles else 7) ∧
  (∀ c : Config, (describe c 0xA9).base = 2 ∧ (describe c 0x4C).base = 3 ∧
    ∀ op ∈ ([0x90, 0xB0, 0xF0, 0xD0, 0x10, 0x30, 0x50, 0x70] : List Byte),
      (describe c op).base = 2 ∧ (describe c op).mode = .rel)

/-- The reset state meets the invariant. The memory it lists is the model's choice (log entry 3). -/
def Obligations.ResetStateMeetsTheInvariant : Prop := Inv State.reset

/-- Every step keeps the invariant: memory stays canonical, the mode tag is the table's for the current
opcode, the counter never exceeds 8 (10_state.md section 5; at the default parameters of log entries 4,
5 and 6). -/
def Obligations.EveryStepKeepsTheInvariant : Prop :=
  ∀ s t : State, Inv s → step s = .next t → Inv t

/-- Timing never changes a value. No instruction reads the counter: started with any count it reaches the
same state, the counter shifted by the difference and nothing else. Hence a run whose instructions take
any base counts at all, and machines that differ only in their count parameters, go through the same
states at instruction boundaries (70_reset_and_hazards.md section 5, the spec's own inference). -/
def Obligations.TimingNeverChangesValues : Prop :=
  (∀ (i : Instr) (s : State) (n : Byte), ∃ t, exec i s = .next t ∧
    exec i (s.setCycles n) = .next (t.setCycles (t.cycles + (n - s.cycles)))) ∧
  (∀ (c : Config) (bases : List Byte) (s : State), s.cycles = 0 →
    runWithBases c bases s = runInstrs c bases.length s) ∧
  (∀ (c c' : Config), c'.undefMode = c.undefMode → c'.undefExtra = c.undefExtra →
    c'.busReinit = c.busReinit →
    ∀ (k : Nat) (s : State), s.cycles = 0 → runInstrs c k s = runInstrs c' k s)

/-- An `Irq` with Interrupt-disable set changes nothing at all and is not remembered (the spec's decision
D15; log entry 17); with it clear the entry runs; just after `Reset` it is clear; CLI, SEI, PLP and RTI
change it at once (60_exceptions.md section 4). -/
def Obligations.IrqIsMaskedByInterruptDisable : Prop :=
  (∀ (s : State) (rest : List Event), s.events = .irq :: rest → s.flag .i = true →
    step s = .next { s with events := rest, bus := [] }) ∧
  (∀ (s : State) (rest : List Event), s.events = .irq :: rest → s.flag .i = false →
    StepYields s (fun t => t.cycles = 7 ∧ t.flag .i = true ∧
      t.pc = s.mem.readVector irqVector ∧ t.events = rest)) ∧
  (∀ (c : Config) (s : State), (s.takeReset c).flag .i = false) ∧
  (∀ s : State,
    Yields .cli s (fun t => t.flag .i = false) ∧ Yields .sei s (fun t => t.flag .i = true) ∧
    Yields .plp s (fun t => t.flag .i = getFlag .i (s.mem.read (stackAddr (s.sp + 1)))) ∧
    Yields .rti s (fun t => t.flag .i = getFlag .i (s.mem.read (stackAddr (s.sp + 1)))))

/-- What an accepted interrupt leaves: PC pushed high then low with no adjustment, P pushed with B clear
and U set and the I of before, both kept in the live P, I then set, PC from the vector, the counter
assigned. -/
def InterruptLeaves (low : Word) (count : Byte) (s t : State) : Prop :=
  t.pc.toNat = (s.mem.read (low + 1)).toNat * 256 + (s.mem.read low).toNat ∧
  t.sp = s.sp - 3 ∧ t.cycles = count ∧
  t.flag .i = true ∧ t.flag .b = false ∧ t.flag .u = true ∧
  t.mem.read (stackAddr s.sp) = hiByte s.pc ∧
  t.mem.read (stackAddr (s.sp - 1)) = loByte s.pc ∧
  t.mem.read (stackAddr (s.sp - 2)) = (s.p &&& 0xEF) ||| 0x20 ∧
  Frame [.sp] [.i, .b, .u] [stackAddr s.sp, stackAddr (s.sp - 1), stackAddr (s.sp - 2)] s t

/-- An accepted `Irq` and every `Nmi`, at whatever point of a countdown. That the live B and U change, that
`Nmi` sets I, and that events land in a countdown are the spec's decisions D16, D17 and D14 (log
entry 17). -/
def Obligations.InterruptEntries : Prop :=
  (∀ (s : State) (rest : List Event), s.events = .irq :: rest → s.flag .i = false →
    StepYields s (fun t => InterruptLeaves 0xFFFE 7 s t ∧ t.events = rest)) ∧
  (∀ (s : State) (rest : List Event), s.events = .nmi :: rest →
    StepYields s (fun t => InterruptLeaves 0xFFFA 8 s t ∧ t.events = rest))

/-- RTI after an entry resumes where the entry cut in: PC and SP come back, and P with B and U clear;
after BRK it resumes one byte past the BRK's successor with I still set, and that only
(60_exceptions.md section 4; BRK's return address is decision D7, log entry 6). -/
def Obligations.ReturnFromInterruptResumes : Prop :=
  (∀ s : State, s.flag .i = false → Yields .rti s.takeIrq (fun t =>
    t.pc = s.pc ∧ t.sp = s.sp ∧ t.p = s.p &&& 0xCF ∧ t.a = s.a ∧ t.x = s.x ∧ t.y = s.y)) ∧
  (∀ s : State, Yields .rti s.takeNmi (fun t =>
    t.pc = s.pc ∧ t.sp = s.sp ∧ t.p = s.p &&& 0xCF ∧ t.a = s.a ∧ t.x = s.x ∧ t.y = s.y)) ∧
  (∀ s : State, Yields .brk s (fun b => Yields .rti b (fun t =>
    t.pc = s.pc + 1 ∧ t.sp = s.sp ∧ t.p = (s.p ||| 0x04) &&& 0xCF ∧
    t.a = s.a ∧ t.x = s.x ∧ t.y = s.y)))

/-- The strobes of one rising edge: `Reset` discards the other two; an `Irq` beside an `Nmi` is dropped by
the mask the `Nmi` has just set; the edge's `Clock` comes last and counts the first cycle of the entry
(60_exceptions.md section 4, decision D18; log entry 17). -/
def Obligations.EdgeDeliversStrobesInOrder : Prop :=
  (∀ (nmi irq : Bool) (s : State), s.events = [] →
    ∃ t, runSteps Config.default 2 (s.withEdge ⟨true, nmi, irq⟩) = .next t ∧
      t = { (s.takeReset Config.default) with cycles := 7, bus := [] }) ∧
  (∀ s : State, s.events = [] →
    ∃ t u, runSteps Config.default 2 (s.withEdge ⟨false, true, false⟩) = .next t ∧
      runSteps Config.default 3 (s.withEdge ⟨false, true, true⟩) = .next u ∧
      u = t ∧ t = { s.takeNmi with cycles := 7, bus := [] }) ∧
  (∀ s : State, s.events = [] → s.flag .i = false →
    ∃ t, runSteps Config.default 2 (s.withEdge ⟨false, false, true⟩) = .next t ∧
      t = { s.takeIrq with cycles := 6, bus := [] }) ∧
  (∀ s : State, s.events = [] →
    step (s.withEdge ⟨false, false, false⟩) = step s)

/-- The `Reset` event: every field. A, X and Y at zero and the memory through `BUS_REINIT` are the spec's
decisions D12 and D13 (log entries 10 and 4). With the default parameters a second `Reset` changes
nothing (70_reset_and_hazards.md section 1). -/
def Obligations.ResetEventLeaves : Prop :=
  ∀ (c : Config) (s : State) (rest : List Event), s.events = .reset :: rest →
    (∃ t, stepWith c s = .next t ∧
      t.pc.toNat = (s.mem.read 0xFFFD).toNat * 256 + (s.mem.read 0xFFFC).toNat ∧
      t.a = 0 ∧ t.x = 0 ∧ t.y = 0 ∧ t.sp = 0xFD ∧ t.p = 0x20 ∧
      t.flag .u = true ∧ (∀ f, f ≠ .u → t.flag f = false) ∧
      t.fetched = 0 ∧ t.addrAbs = 0 ∧ t.addrRel = 0 ∧ t.opcode = 0 ∧ t.mode = .imp ∧
      t.cycles = 8 ∧ t.mem = c.busReinit s.mem ∧ t.events = rest ∧
      t.bus = [.read 0xFFFC (s.mem.read 0xFFFC), .read 0xFFFD (s.mem.read 0xFFFD)]) ∧
    (∀ u : State, u.bus = [] →
      let once := u.takeReset Config.default
      (once.setBus []).takeReset Config.default = once)

/-- The created state, and what the reset state is: a `Clock` in the created state starts the instruction
at 0x0000 at once, and `State.reset` is the `Reset` event on the created state with the memory of log
entry 3. -/
def Obligations.CreatedStateRunsAtOnce : Prop :=
  (∀ m : Memory, StepYields (State.created m) (fun t => t.opcode = m.read 0x0000)) ∧
  (State.created []).takeReset Config.default = State.reset ∧
  (State.created []).sp ≠ State.reset.sp ∧ (State.created []).p ≠ State.reset.p ∧
  (State.created []).cycles ≠ State.reset.cycles

/-- At the default of `UNDEF_MODE`, the spec's choice (decision D6; log entry 5), the eight branch opcodes
are the only ones of all 256 with the mode REL (40_addressing_modes.md section 2). Their values are general
knowledge in the spec (decision D4; log entry 7). -/
def Obligations.DefaultTableHasRelOnlyForBranches : Prop :=
  ∀ op : Byte, (describe Config.default op).mode = .rel ↔
    op ∈ ([0x90, 0xB0, 0xF0, 0xD0, 0x10, 0x30, 0x50, 0x70] : List Byte)

/-- The bus transactions, in order, of what `Obligations.BusTrafficOfMemoryInstructions` leaves out. The
accumulator forms, the register and flag instructions, NOP and the branches make none; a push is one write
and a pull one read; JSR, RTS, BRK, RTI and the interrupt entries make their pushes or pulls in order, and
an entry then reads its vector, low byte first; a masked `Irq` makes none. The order of the vector's bytes
is the spec's own choice (decision D27; log entry 13), as are BRK's return address (decision D7; log entry
6) and the status byte of an interrupt entry (decision D16; log entry 17). -/
def Obligations.BusTrafficOfTheOthers : Prop :=
  ∀ s : State,
    let adds := fun (l : List Access) (t : State) => t.bus = s.bus ++ l
    let push := fun (n : Byte) (v : Byte) => Access.write (stackAddr (s.sp - n)) v
    let pull := fun n : Byte => Access.read (stackAddr (s.sp + n)) (s.mem.read (stackAddr (s.sp + n)))
    let vector := fun v : Word => [Access.read v (s.mem.read v), .read (v + 1) (s.mem.read (v + 1))]
    let entry := fun (back : Word) (status : Byte) (v : Word) =>
      [push 0 (hiByte back), push 1 (loByte back), push 2 status] ++ vector v
    (∀ i ∈ [Instr.asl .imp, .lsr .imp, .rol .imp, .ror .imp, .inx, .iny, .dex, .dey, .tax, .tay, .txa,
        .tya, .tsx, .txs, .clc, .sec, .cli, .sei, .cld, .sed, .clv, .nop], Yields i s (adds [])) ∧
    (∀ rel8 : Byte, ∀ i ∈ [Instr.bcc rel8, .bcs rel8, .beq rel8, .bne rel8, .bpl rel8, .bmi rel8,
        .bvc rel8, .bvs rel8], Yields i s (adds [])) ∧
    Yields .pha s (adds [push 0 s.a]) ∧ Yields .php s (adds [push 0 (s.p ||| 0x30)]) ∧
    Yields .pla s (adds [pull 1]) ∧ Yields .plp s (adds [pull 1]) ∧
    (∀ target : Word, Yields (.jsr target) s
      (adds [push 0 (hiByte (s.pc - 1)), push 1 (loByte (s.pc - 1))])) ∧
    Yields .rts s (adds [pull 1, pull 2]) ∧ Yields .rti s (adds [pull 1, pull 2, pull 3]) ∧
    Yields .brk s (adds (entry (s.pc + 1) (s.p ||| 0x14) irqVector)) ∧
    adds (entry s.pc ((s.p &&& 0xEF) ||| 0x20) nmiVector) s.takeNmi ∧
    (s.flag .i = false → adds (entry s.pc ((s.p &&& 0xEF) ||| 0x20) irqVector) s.takeIrq) ∧
    (s.flag .i = true → adds [] s.takeIrq)
end

