-- ==== Sys2Proof/Laws/Bits.lean ====
section
/-! SUPPORT. The laws of bytes and words. -/

namespace Sys2Proof.Machine

theorem mkWord_toNat (h l : Byte) : (mkWord h l).toNat = h.toNat * 256 + l.toNat := by
  rw [mkWord, BitVec.toNat_append, Nat.shiftLeft_eq, Nat.mul_comm,
    ← Nat.two_pow_add_eq_or_of_lt l.isLt]

theorem hiByte_toNat (w : Word) : (hiByte w).toNat = w.toNat / 256 := by
  have := w.isLt
  simp [hiByte, BitVec.extractLsb'_toNat, Nat.shiftRight_eq_div_pow]
  omega

theorem loByte_toNat (w : Word) : (loByte w).toNat = w.toNat % 256 := by
  simp [loByte, BitVec.extractLsb'_toNat]

@[simp] theorem hiByte_mkWord (h l : Byte) : hiByte (mkWord h l) = h := by
  apply BitVec.eq_of_toNat_eq
  have := l.isLt
  rw [hiByte_toNat, mkWord_toNat]
  omega

@[simp] theorem loByte_mkWord (h l : Byte) : loByte (mkWord h l) = l := by
  apply BitVec.eq_of_toNat_eq
  have := l.isLt
  rw [loByte_toNat, mkWord_toNat]
  omega

@[simp] theorem mkWord_hiByte_loByte (w : Word) : mkWord (hiByte w) (loByte w) = w := by
  apply BitVec.eq_of_toNat_eq
  rw [mkWord_toNat, hiByte_toNat, loByte_toNat]
  omega

@[simp] theorem zext16_toNat (b : Byte) : (zext16 b).toNat = b.toNat := by
  have := b.isLt
  simp [zext16]
  omega

/-- A byte's top bit is its sign, and its size. -/
theorem getLsbD_seven (b : Byte) : b.getLsbD 7 = decide (128 ≤ b.toNat) := by
  revert b; decide +kernel

end Sys2Proof.Machine
end

