-- ==== Sys2Proof/Laws/State.lean ====
section
/-! SUPPORT. One lemma per field per writer of State, true by `rfl`, so that no proof unfolds a record
update. A writer that leaves P alone leaves every flag alone (`_flag`). -/

namespace Sys2Proof.Machine

@[simp] theorem State.setA_a (s : State) (v : Byte) : (s.setA v).a = v := rfl
@[simp] theorem State.setA_x (s : State) (v : Byte) : (s.setA v).x = s.x := rfl
@[simp] theorem State.setA_y (s : State) (v : Byte) : (s.setA v).y = s.y := rfl
@[simp] theorem State.setA_sp (s : State) (v : Byte) : (s.setA v).sp = s.sp := rfl
@[simp] theorem State.setA_pc (s : State) (v : Byte) : (s.setA v).pc = s.pc := rfl
@[simp] theorem State.setA_p (s : State) (v : Byte) : (s.setA v).p = s.p := rfl
@[simp] theorem State.setA_fetched (s : State) (v : Byte) : (s.setA v).fetched = s.fetched := rfl
@[simp] theorem State.setA_addrAbs (s : State) (v : Byte) : (s.setA v).addrAbs = s.addrAbs := rfl
@[simp] theorem State.setA_addrRel (s : State) (v : Byte) : (s.setA v).addrRel = s.addrRel := rfl
@[simp] theorem State.setA_opcode (s : State) (v : Byte) : (s.setA v).opcode = s.opcode := rfl
@[simp] theorem State.setA_mode (s : State) (v : Byte) : (s.setA v).mode = s.mode := rfl
@[simp] theorem State.setA_cycles (s : State) (v : Byte) : (s.setA v).cycles = s.cycles := rfl
@[simp] theorem State.setA_mem (s : State) (v : Byte) : (s.setA v).mem = s.mem := rfl
@[simp] theorem State.setA_events (s : State) (v : Byte) : (s.setA v).events = s.events := rfl
@[simp] theorem State.setA_bus (s : State) (v : Byte) : (s.setA v).bus = s.bus := rfl
@[simp] theorem State.setA_flag (s : State) (v : Byte) (f : Flag) : (s.setA v).flag f = s.flag f := rfl

@[simp] theorem State.setX_a (s : State) (v : Byte) : (s.setX v).a = s.a := rfl
@[simp] theorem State.setX_x (s : State) (v : Byte) : (s.setX v).x = v := rfl
@[simp] theorem State.setX_y (s : State) (v : Byte) : (s.setX v).y = s.y := rfl
@[simp] theorem State.setX_sp (s : State) (v : Byte) : (s.setX v).sp = s.sp := rfl
@[simp] theorem State.setX_pc (s : State) (v : Byte) : (s.setX v).pc = s.pc := rfl
@[simp] theorem State.setX_p (s : State) (v : Byte) : (s.setX v).p = s.p := rfl
@[simp] theorem State.setX_fetched (s : State) (v : Byte) : (s.setX v).fetched = s.fetched := rfl
@[simp] theorem State.setX_addrAbs (s : State) (v : Byte) : (s.setX v).addrAbs = s.addrAbs := rfl
@[simp] theorem State.setX_addrRel (s : State) (v : Byte) : (s.setX v).addrRel = s.addrRel := rfl
@[simp] theorem State.setX_opcode (s : State) (v : Byte) : (s.setX v).opcode = s.opcode := rfl
@[simp] theorem State.setX_mode (s : State) (v : Byte) : (s.setX v).mode = s.mode := rfl
@[simp] theorem State.setX_cycles (s : State) (v : Byte) : (s.setX v).cycles = s.cycles := rfl
@[simp] theorem State.setX_mem (s : State) (v : Byte) : (s.setX v).mem = s.mem := rfl
@[simp] theorem State.setX_events (s : State) (v : Byte) : (s.setX v).events = s.events := rfl
@[simp] theorem State.setX_bus (s : State) (v : Byte) : (s.setX v).bus = s.bus := rfl
@[simp] theorem State.setX_flag (s : State) (v : Byte) (f : Flag) : (s.setX v).flag f = s.flag f := rfl

@[simp] theorem State.setY_a (s : State) (v : Byte) : (s.setY v).a = s.a := rfl
@[simp] theorem State.setY_x (s : State) (v : Byte) : (s.setY v).x = s.x := rfl
@[simp] theorem State.setY_y (s : State) (v : Byte) : (s.setY v).y = v := rfl
@[simp] theorem State.setY_sp (s : State) (v : Byte) : (s.setY v).sp = s.sp := rfl
@[simp] theorem State.setY_pc (s : State) (v : Byte) : (s.setY v).pc = s.pc := rfl
@[simp] theorem State.setY_p (s : State) (v : Byte) : (s.setY v).p = s.p := rfl
@[simp] theorem State.setY_fetched (s : State) (v : Byte) : (s.setY v).fetched = s.fetched := rfl
@[simp] theorem State.setY_addrAbs (s : State) (v : Byte) : (s.setY v).addrAbs = s.addrAbs := rfl
@[simp] theorem State.setY_addrRel (s : State) (v : Byte) : (s.setY v).addrRel = s.addrRel := rfl
@[simp] theorem State.setY_opcode (s : State) (v : Byte) : (s.setY v).opcode = s.opcode := rfl
@[simp] theorem State.setY_mode (s : State) (v : Byte) : (s.setY v).mode = s.mode := rfl
@[simp] theorem State.setY_cycles (s : State) (v : Byte) : (s.setY v).cycles = s.cycles := rfl
@[simp] theorem State.setY_mem (s : State) (v : Byte) : (s.setY v).mem = s.mem := rfl
@[simp] theorem State.setY_events (s : State) (v : Byte) : (s.setY v).events = s.events := rfl
@[simp] theorem State.setY_bus (s : State) (v : Byte) : (s.setY v).bus = s.bus := rfl
@[simp] theorem State.setY_flag (s : State) (v : Byte) (f : Flag) : (s.setY v).flag f = s.flag f := rfl

@[simp] theorem State.setSp_a (s : State) (v : Byte) : (s.setSp v).a = s.a := rfl
@[simp] theorem State.setSp_x (s : State) (v : Byte) : (s.setSp v).x = s.x := rfl
@[simp] theorem State.setSp_y (s : State) (v : Byte) : (s.setSp v).y = s.y := rfl
@[simp] theorem State.setSp_sp (s : State) (v : Byte) : (s.setSp v).sp = v := rfl
@[simp] theorem State.setSp_pc (s : State) (v : Byte) : (s.setSp v).pc = s.pc := rfl
@[simp] theorem State.setSp_p (s : State) (v : Byte) : (s.setSp v).p = s.p := rfl
@[simp] theorem State.setSp_fetched (s : State) (v : Byte) : (s.setSp v).fetched = s.fetched := rfl
@[simp] theorem State.setSp_addrAbs (s : State) (v : Byte) : (s.setSp v).addrAbs = s.addrAbs := rfl
@[simp] theorem State.setSp_addrRel (s : State) (v : Byte) : (s.setSp v).addrRel = s.addrRel := rfl
@[simp] theorem State.setSp_opcode (s : State) (v : Byte) : (s.setSp v).opcode = s.opcode := rfl
@[simp] theorem State.setSp_mode (s : State) (v : Byte) : (s.setSp v).mode = s.mode := rfl
@[simp] theorem State.setSp_cycles (s : State) (v : Byte) : (s.setSp v).cycles = s.cycles := rfl
@[simp] theorem State.setSp_mem (s : State) (v : Byte) : (s.setSp v).mem = s.mem := rfl
@[simp] theorem State.setSp_events (s : State) (v : Byte) : (s.setSp v).events = s.events := rfl
@[simp] theorem State.setSp_bus (s : State) (v : Byte) : (s.setSp v).bus = s.bus := rfl
@[simp] theorem State.setSp_flag (s : State) (v : Byte) (f : Flag) : (s.setSp v).flag f = s.flag f := rfl

@[simp] theorem State.setPc_a (s : State) (v : Word) : (s.setPc v).a = s.a := rfl
@[simp] theorem State.setPc_x (s : State) (v : Word) : (s.setPc v).x = s.x := rfl
@[simp] theorem State.setPc_y (s : State) (v : Word) : (s.setPc v).y = s.y := rfl
@[simp] theorem State.setPc_sp (s : State) (v : Word) : (s.setPc v).sp = s.sp := rfl
@[simp] theorem State.setPc_pc (s : State) (v : Word) : (s.setPc v).pc = v := rfl
@[simp] theorem State.setPc_p (s : State) (v : Word) : (s.setPc v).p = s.p := rfl
@[simp] theorem State.setPc_fetched (s : State) (v : Word) : (s.setPc v).fetched = s.fetched := rfl
@[simp] theorem State.setPc_addrAbs (s : State) (v : Word) : (s.setPc v).addrAbs = s.addrAbs := rfl
@[simp] theorem State.setPc_addrRel (s : State) (v : Word) : (s.setPc v).addrRel = s.addrRel := rfl
@[simp] theorem State.setPc_opcode (s : State) (v : Word) : (s.setPc v).opcode = s.opcode := rfl
@[simp] theorem State.setPc_mode (s : State) (v : Word) : (s.setPc v).mode = s.mode := rfl
@[simp] theorem State.setPc_cycles (s : State) (v : Word) : (s.setPc v).cycles = s.cycles := rfl
@[simp] theorem State.setPc_mem (s : State) (v : Word) : (s.setPc v).mem = s.mem := rfl
@[simp] theorem State.setPc_events (s : State) (v : Word) : (s.setPc v).events = s.events := rfl
@[simp] theorem State.setPc_bus (s : State) (v : Word) : (s.setPc v).bus = s.bus := rfl
@[simp] theorem State.setPc_flag (s : State) (v : Word) (f : Flag) : (s.setPc v).flag f = s.flag f := rfl

@[simp] theorem State.setP_a (s : State) (v : Byte) : (s.setP v).a = s.a := rfl
@[simp] theorem State.setP_x (s : State) (v : Byte) : (s.setP v).x = s.x := rfl
@[simp] theorem State.setP_y (s : State) (v : Byte) : (s.setP v).y = s.y := rfl
@[simp] theorem State.setP_sp (s : State) (v : Byte) : (s.setP v).sp = s.sp := rfl
@[simp] theorem State.setP_pc (s : State) (v : Byte) : (s.setP v).pc = s.pc := rfl
@[simp] theorem State.setP_p (s : State) (v : Byte) : (s.setP v).p = v := rfl
@[simp] theorem State.setP_fetched (s : State) (v : Byte) : (s.setP v).fetched = s.fetched := rfl
@[simp] theorem State.setP_addrAbs (s : State) (v : Byte) : (s.setP v).addrAbs = s.addrAbs := rfl
@[simp] theorem State.setP_addrRel (s : State) (v : Byte) : (s.setP v).addrRel = s.addrRel := rfl
@[simp] theorem State.setP_opcode (s : State) (v : Byte) : (s.setP v).opcode = s.opcode := rfl
@[simp] theorem State.setP_mode (s : State) (v : Byte) : (s.setP v).mode = s.mode := rfl
@[simp] theorem State.setP_cycles (s : State) (v : Byte) : (s.setP v).cycles = s.cycles := rfl
@[simp] theorem State.setP_mem (s : State) (v : Byte) : (s.setP v).mem = s.mem := rfl
@[simp] theorem State.setP_events (s : State) (v : Byte) : (s.setP v).events = s.events := rfl
@[simp] theorem State.setP_bus (s : State) (v : Byte) : (s.setP v).bus = s.bus := rfl

@[simp] theorem State.setFetched_a (s : State) (v : Byte) : (s.setFetched v).a = s.a := rfl
@[simp] theorem State.setFetched_x (s : State) (v : Byte) : (s.setFetched v).x = s.x := rfl
@[simp] theorem State.setFetched_y (s : State) (v : Byte) : (s.setFetched v).y = s.y := rfl
@[simp] theorem State.setFetched_sp (s : State) (v : Byte) : (s.setFetched v).sp = s.sp := rfl
@[simp] theorem State.setFetched_pc (s : State) (v : Byte) : (s.setFetched v).pc = s.pc := rfl
@[simp] theorem State.setFetched_p (s : State) (v : Byte) : (s.setFetched v).p = s.p := rfl
@[simp] theorem State.setFetched_fetched (s : State) (v : Byte) : (s.setFetched v).fetched = v := rfl
@[simp] theorem State.setFetched_addrAbs (s : State) (v : Byte) : (s.setFetched v).addrAbs = s.addrAbs := rfl
@[simp] theorem State.setFetched_addrRel (s : State) (v : Byte) : (s.setFetched v).addrRel = s.addrRel := rfl
@[simp] theorem State.setFetched_opcode (s : State) (v : Byte) : (s.setFetched v).opcode = s.opcode := rfl
@[simp] theorem State.setFetched_mode (s : State) (v : Byte) : (s.setFetched v).mode = s.mode := rfl
@[simp] theorem State.setFetched_cycles (s : State) (v : Byte) : (s.setFetched v).cycles = s.cycles := rfl
@[simp] theorem State.setFetched_mem (s : State) (v : Byte) : (s.setFetched v).mem = s.mem := rfl
@[simp] theorem State.setFetched_events (s : State) (v : Byte) : (s.setFetched v).events = s.events := rfl
@[simp] theorem State.setFetched_bus (s : State) (v : Byte) : (s.setFetched v).bus = s.bus := rfl
@[simp] theorem State.setFetched_flag (s : State) (v : Byte) (f : Flag) : (s.setFetched v).flag f = s.flag f := rfl

@[simp] theorem State.setAddrAbs_a (s : State) (v : Word) : (s.setAddrAbs v).a = s.a := rfl
@[simp] theorem State.setAddrAbs_x (s : State) (v : Word) : (s.setAddrAbs v).x = s.x := rfl
@[simp] theorem State.setAddrAbs_y (s : State) (v : Word) : (s.setAddrAbs v).y = s.y := rfl
@[simp] theorem State.setAddrAbs_sp (s : State) (v : Word) : (s.setAddrAbs v).sp = s.sp := rfl
@[simp] theorem State.setAddrAbs_pc (s : State) (v : Word) : (s.setAddrAbs v).pc = s.pc := rfl
@[simp] theorem State.setAddrAbs_p (s : State) (v : Word) : (s.setAddrAbs v).p = s.p := rfl
@[simp] theorem State.setAddrAbs_fetched (s : State) (v : Word) : (s.setAddrAbs v).fetched = s.fetched := rfl
@[simp] theorem State.setAddrAbs_addrAbs (s : State) (v : Word) : (s.setAddrAbs v).addrAbs = v := rfl
@[simp] theorem State.setAddrAbs_addrRel (s : State) (v : Word) : (s.setAddrAbs v).addrRel = s.addrRel := rfl
@[simp] theorem State.setAddrAbs_opcode (s : State) (v : Word) : (s.setAddrAbs v).opcode = s.opcode := rfl
@[simp] theorem State.setAddrAbs_mode (s : State) (v : Word) : (s.setAddrAbs v).mode = s.mode := rfl
@[simp] theorem State.setAddrAbs_cycles (s : State) (v : Word) : (s.setAddrAbs v).cycles = s.cycles := rfl
@[simp] theorem State.setAddrAbs_mem (s : State) (v : Word) : (s.setAddrAbs v).mem = s.mem := rfl
@[simp] theorem State.setAddrAbs_events (s : State) (v : Word) : (s.setAddrAbs v).events = s.events := rfl
@[simp] theorem State.setAddrAbs_bus (s : State) (v : Word) : (s.setAddrAbs v).bus = s.bus := rfl
@[simp] theorem State.setAddrAbs_flag (s : State) (v : Word) (f : Flag) : (s.setAddrAbs v).flag f = s.flag f := rfl

@[simp] theorem State.setAddrRel_a (s : State) (v : Word) : (s.setAddrRel v).a = s.a := rfl
@[simp] theorem State.setAddrRel_x (s : State) (v : Word) : (s.setAddrRel v).x = s.x := rfl
@[simp] theorem State.setAddrRel_y (s : State) (v : Word) : (s.setAddrRel v).y = s.y := rfl
@[simp] theorem State.setAddrRel_sp (s : State) (v : Word) : (s.setAddrRel v).sp = s.sp := rfl
@[simp] theorem State.setAddrRel_pc (s : State) (v : Word) : (s.setAddrRel v).pc = s.pc := rfl
@[simp] theorem State.setAddrRel_p (s : State) (v : Word) : (s.setAddrRel v).p = s.p := rfl
@[simp] theorem State.setAddrRel_fetched (s : State) (v : Word) : (s.setAddrRel v).fetched = s.fetched := rfl
@[simp] theorem State.setAddrRel_addrAbs (s : State) (v : Word) : (s.setAddrRel v).addrAbs = s.addrAbs := rfl
@[simp] theorem State.setAddrRel_addrRel (s : State) (v : Word) : (s.setAddrRel v).addrRel = v := rfl
@[simp] theorem State.setAddrRel_opcode (s : State) (v : Word) : (s.setAddrRel v).opcode = s.opcode := rfl
@[simp] theorem State.setAddrRel_mode (s : State) (v : Word) : (s.setAddrRel v).mode = s.mode := rfl
@[simp] theorem State.setAddrRel_cycles (s : State) (v : Word) : (s.setAddrRel v).cycles = s.cycles := rfl
@[simp] theorem State.setAddrRel_mem (s : State) (v : Word) : (s.setAddrRel v).mem = s.mem := rfl
@[simp] theorem State.setAddrRel_events (s : State) (v : Word) : (s.setAddrRel v).events = s.events := rfl
@[simp] theorem State.setAddrRel_bus (s : State) (v : Word) : (s.setAddrRel v).bus = s.bus := rfl
@[simp] theorem State.setAddrRel_flag (s : State) (v : Word) (f : Flag) : (s.setAddrRel v).flag f = s.flag f := rfl

@[simp] theorem State.setOpcode_a (s : State) (v : Byte) : (s.setOpcode v).a = s.a := rfl
@[simp] theorem State.setOpcode_x (s : State) (v : Byte) : (s.setOpcode v).x = s.x := rfl
@[simp] theorem State.setOpcode_y (s : State) (v : Byte) : (s.setOpcode v).y = s.y := rfl
@[simp] theorem State.setOpcode_sp (s : State) (v : Byte) : (s.setOpcode v).sp = s.sp := rfl
@[simp] theorem State.setOpcode_pc (s : State) (v : Byte) : (s.setOpcode v).pc = s.pc := rfl
@[simp] theorem State.setOpcode_p (s : State) (v : Byte) : (s.setOpcode v).p = s.p := rfl
@[simp] theorem State.setOpcode_fetched (s : State) (v : Byte) : (s.setOpcode v).fetched = s.fetched := rfl
@[simp] theorem State.setOpcode_addrAbs (s : State) (v : Byte) : (s.setOpcode v).addrAbs = s.addrAbs := rfl
@[simp] theorem State.setOpcode_addrRel (s : State) (v : Byte) : (s.setOpcode v).addrRel = s.addrRel := rfl
@[simp] theorem State.setOpcode_opcode (s : State) (v : Byte) : (s.setOpcode v).opcode = v := rfl
@[simp] theorem State.setOpcode_mode (s : State) (v : Byte) : (s.setOpcode v).mode = s.mode := rfl
@[simp] theorem State.setOpcode_cycles (s : State) (v : Byte) : (s.setOpcode v).cycles = s.cycles := rfl
@[simp] theorem State.setOpcode_mem (s : State) (v : Byte) : (s.setOpcode v).mem = s.mem := rfl
@[simp] theorem State.setOpcode_events (s : State) (v : Byte) : (s.setOpcode v).events = s.events := rfl
@[simp] theorem State.setOpcode_bus (s : State) (v : Byte) : (s.setOpcode v).bus = s.bus := rfl
@[simp] theorem State.setOpcode_flag (s : State) (v : Byte) (f : Flag) : (s.setOpcode v).flag f = s.flag f := rfl

@[simp] theorem State.setMode_a (s : State) (v : Mode) : (s.setMode v).a = s.a := rfl
@[simp] theorem State.setMode_x (s : State) (v : Mode) : (s.setMode v).x = s.x := rfl
@[simp] theorem State.setMode_y (s : State) (v : Mode) : (s.setMode v).y = s.y := rfl
@[simp] theorem State.setMode_sp (s : State) (v : Mode) : (s.setMode v).sp = s.sp := rfl
@[simp] theorem State.setMode_pc (s : State) (v : Mode) : (s.setMode v).pc = s.pc := rfl
@[simp] theorem State.setMode_p (s : State) (v : Mode) : (s.setMode v).p = s.p := rfl
@[simp] theorem State.setMode_fetched (s : State) (v : Mode) : (s.setMode v).fetched = s.fetched := rfl
@[simp] theorem State.setMode_addrAbs (s : State) (v : Mode) : (s.setMode v).addrAbs = s.addrAbs := rfl
@[simp] theorem State.setMode_addrRel (s : State) (v : Mode) : (s.setMode v).addrRel = s.addrRel := rfl
@[simp] theorem State.setMode_opcode (s : State) (v : Mode) : (s.setMode v).opcode = s.opcode := rfl
@[simp] theorem State.setMode_mode (s : State) (v : Mode) : (s.setMode v).mode = v := rfl
@[simp] theorem State.setMode_cycles (s : State) (v : Mode) : (s.setMode v).cycles = s.cycles := rfl
@[simp] theorem State.setMode_mem (s : State) (v : Mode) : (s.setMode v).mem = s.mem := rfl
@[simp] theorem State.setMode_events (s : State) (v : Mode) : (s.setMode v).events = s.events := rfl
@[simp] theorem State.setMode_bus (s : State) (v : Mode) : (s.setMode v).bus = s.bus := rfl
@[simp] theorem State.setMode_flag (s : State) (v : Mode) (f : Flag) : (s.setMode v).flag f = s.flag f := rfl

@[simp] theorem State.setCycles_a (s : State) (v : Byte) : (s.setCycles v).a = s.a := rfl
@[simp] theorem State.setCycles_x (s : State) (v : Byte) : (s.setCycles v).x = s.x := rfl
@[simp] theorem State.setCycles_y (s : State) (v : Byte) : (s.setCycles v).y = s.y := rfl
@[simp] theorem State.setCycles_sp (s : State) (v : Byte) : (s.setCycles v).sp = s.sp := rfl
@[simp] theorem State.setCycles_pc (s : State) (v : Byte) : (s.setCycles v).pc = s.pc := rfl
@[simp] theorem State.setCycles_p (s : State) (v : Byte) : (s.setCycles v).p = s.p := rfl
@[simp] theorem State.setCycles_fetched (s : State) (v : Byte) : (s.setCycles v).fetched = s.fetched := rfl
@[simp] theorem State.setCycles_addrAbs (s : State) (v : Byte) : (s.setCycles v).addrAbs = s.addrAbs := rfl
@[simp] theorem State.setCycles_addrRel (s : State) (v : Byte) : (s.setCycles v).addrRel = s.addrRel := rfl
@[simp] theorem State.setCycles_opcode (s : State) (v : Byte) : (s.setCycles v).opcode = s.opcode := rfl
@[simp] theorem State.setCycles_mode (s : State) (v : Byte) : (s.setCycles v).mode = s.mode := rfl
@[simp] theorem State.setCycles_cycles (s : State) (v : Byte) : (s.setCycles v).cycles = v := rfl
@[simp] theorem State.setCycles_mem (s : State) (v : Byte) : (s.setCycles v).mem = s.mem := rfl
@[simp] theorem State.setCycles_events (s : State) (v : Byte) : (s.setCycles v).events = s.events := rfl
@[simp] theorem State.setCycles_bus (s : State) (v : Byte) : (s.setCycles v).bus = s.bus := rfl
@[simp] theorem State.setCycles_flag (s : State) (v : Byte) (f : Flag) : (s.setCycles v).flag f = s.flag f := rfl

@[simp] theorem State.setMem_a (s : State) (v : Memory) : (s.setMem v).a = s.a := rfl
@[simp] theorem State.setMem_x (s : State) (v : Memory) : (s.setMem v).x = s.x := rfl
@[simp] theorem State.setMem_y (s : State) (v : Memory) : (s.setMem v).y = s.y := rfl
@[simp] theorem State.setMem_sp (s : State) (v : Memory) : (s.setMem v).sp = s.sp := rfl
@[simp] theorem State.setMem_pc (s : State) (v : Memory) : (s.setMem v).pc = s.pc := rfl
@[simp] theorem State.setMem_p (s : State) (v : Memory) : (s.setMem v).p = s.p := rfl
@[simp] theorem State.setMem_fetched (s : State) (v : Memory) : (s.setMem v).fetched = s.fetched := rfl
@[simp] theorem State.setMem_addrAbs (s : State) (v : Memory) : (s.setMem v).addrAbs = s.addrAbs := rfl
@[simp] theorem State.setMem_addrRel (s : State) (v : Memory) : (s.setMem v).addrRel = s.addrRel := rfl
@[simp] theorem State.setMem_opcode (s : State) (v : Memory) : (s.setMem v).opcode = s.opcode := rfl
@[simp] theorem State.setMem_mode (s : State) (v : Memory) : (s.setMem v).mode = s.mode := rfl
@[simp] theorem State.setMem_cycles (s : State) (v : Memory) : (s.setMem v).cycles = s.cycles := rfl
@[simp] theorem State.setMem_mem (s : State) (v : Memory) : (s.setMem v).mem = v := rfl
@[simp] theorem State.setMem_events (s : State) (v : Memory) : (s.setMem v).events = s.events := rfl
@[simp] theorem State.setMem_bus (s : State) (v : Memory) : (s.setMem v).bus = s.bus := rfl
@[simp] theorem State.setMem_flag (s : State) (v : Memory) (f : Flag) : (s.setMem v).flag f = s.flag f := rfl

@[simp] theorem State.setEvents_a (s : State) (v : List Event) : (s.setEvents v).a = s.a := rfl
@[simp] theorem State.setEvents_x (s : State) (v : List Event) : (s.setEvents v).x = s.x := rfl
@[simp] theorem State.setEvents_y (s : State) (v : List Event) : (s.setEvents v).y = s.y := rfl
@[simp] theorem State.setEvents_sp (s : State) (v : List Event) : (s.setEvents v).sp = s.sp := rfl
@[simp] theorem State.setEvents_pc (s : State) (v : List Event) : (s.setEvents v).pc = s.pc := rfl
@[simp] theorem State.setEvents_p (s : State) (v : List Event) : (s.setEvents v).p = s.p := rfl
@[simp] theorem State.setEvents_fetched (s : State) (v : List Event) : (s.setEvents v).fetched = s.fetched := rfl
@[simp] theorem State.setEvents_addrAbs (s : State) (v : List Event) : (s.setEvents v).addrAbs = s.addrAbs := rfl
@[simp] theorem State.setEvents_addrRel (s : State) (v : List Event) : (s.setEvents v).addrRel = s.addrRel := rfl
@[simp] theorem State.setEvents_opcode (s : State) (v : List Event) : (s.setEvents v).opcode = s.opcode := rfl
@[simp] theorem State.setEvents_mode (s : State) (v : List Event) : (s.setEvents v).mode = s.mode := rfl
@[simp] theorem State.setEvents_cycles (s : State) (v : List Event) : (s.setEvents v).cycles = s.cycles := rfl
@[simp] theorem State.setEvents_mem (s : State) (v : List Event) : (s.setEvents v).mem = s.mem := rfl
@[simp] theorem State.setEvents_events (s : State) (v : List Event) : (s.setEvents v).events = v := rfl
@[simp] theorem State.setEvents_bus (s : State) (v : List Event) : (s.setEvents v).bus = s.bus := rfl
@[simp] theorem State.setEvents_flag (s : State) (v : List Event) (f : Flag) : (s.setEvents v).flag f = s.flag f := rfl

@[simp] theorem State.setBus_a (s : State) (v : List Access) : (s.setBus v).a = s.a := rfl
@[simp] theorem State.setBus_x (s : State) (v : List Access) : (s.setBus v).x = s.x := rfl
@[simp] theorem State.setBus_y (s : State) (v : List Access) : (s.setBus v).y = s.y := rfl
@[simp] theorem State.setBus_sp (s : State) (v : List Access) : (s.setBus v).sp = s.sp := rfl
@[simp] theorem State.setBus_pc (s : State) (v : List Access) : (s.setBus v).pc = s.pc := rfl
@[simp] theorem State.setBus_p (s : State) (v : List Access) : (s.setBus v).p = s.p := rfl
@[simp] theorem State.setBus_fetched (s : State) (v : List Access) : (s.setBus v).fetched = s.fetched := rfl
@[simp] theorem State.setBus_addrAbs (s : State) (v : List Access) : (s.setBus v).addrAbs = s.addrAbs := rfl
@[simp] theorem State.setBus_addrRel (s : State) (v : List Access) : (s.setBus v).addrRel = s.addrRel := rfl
@[simp] theorem State.setBus_opcode (s : State) (v : List Access) : (s.setBus v).opcode = s.opcode := rfl
@[simp] theorem State.setBus_mode (s : State) (v : List Access) : (s.setBus v).mode = s.mode := rfl
@[simp] theorem State.setBus_cycles (s : State) (v : List Access) : (s.setBus v).cycles = s.cycles := rfl
@[simp] theorem State.setBus_mem (s : State) (v : List Access) : (s.setBus v).mem = s.mem := rfl
@[simp] theorem State.setBus_events (s : State) (v : List Access) : (s.setBus v).events = s.events := rfl
@[simp] theorem State.setBus_bus (s : State) (v : List Access) : (s.setBus v).bus = v := rfl
@[simp] theorem State.setBus_flag (s : State) (v : List Access) (f : Flag) : (s.setBus v).flag f = s.flag f := rfl

end Sys2Proof.Machine
end

