-- ==== Sys2Proof/Laws/Frames.lean ====
section
/-! SUPPORT. What each shared operation leaves alone, one lemma per field (the frame of an operation). -/

namespace Sys2Proof.Machine

@[simp] theorem State.setFlag_a (s : State) (g : Flag) (on : Bool) : (s.setFlag g on).a = s.a := rfl
@[simp] theorem State.setFlag_x (s : State) (g : Flag) (on : Bool) : (s.setFlag g on).x = s.x := rfl
@[simp] theorem State.setFlag_y (s : State) (g : Flag) (on : Bool) : (s.setFlag g on).y = s.y := rfl
@[simp] theorem State.setFlag_sp (s : State) (g : Flag) (on : Bool) : (s.setFlag g on).sp = s.sp := rfl
@[simp] theorem State.setFlag_pc (s : State) (g : Flag) (on : Bool) : (s.setFlag g on).pc = s.pc := rfl
@[simp] theorem State.setFlag_fetched (s : State) (g : Flag) (on : Bool) : (s.setFlag g on).fetched = s.fetched := rfl
@[simp] theorem State.setFlag_addrAbs (s : State) (g : Flag) (on : Bool) : (s.setFlag g on).addrAbs = s.addrAbs := rfl
@[simp] theorem State.setFlag_addrRel (s : State) (g : Flag) (on : Bool) : (s.setFlag g on).addrRel = s.addrRel := rfl
@[simp] theorem State.setFlag_opcode (s : State) (g : Flag) (on : Bool) : (s.setFlag g on).opcode = s.opcode := rfl
@[simp] theorem State.setFlag_mode (s : State) (g : Flag) (on : Bool) : (s.setFlag g on).mode = s.mode := rfl
@[simp] theorem State.setFlag_cycles (s : State) (g : Flag) (on : Bool) : (s.setFlag g on).cycles = s.cycles := rfl
@[simp] theorem State.setFlag_mem (s : State) (g : Flag) (on : Bool) : (s.setFlag g on).mem = s.mem := rfl
@[simp] theorem State.setFlag_events (s : State) (g : Flag) (on : Bool) : (s.setFlag g on).events = s.events := rfl
@[simp] theorem State.setFlag_bus (s : State) (g : Flag) (on : Bool) : (s.setFlag g on).bus = s.bus := rfl

@[simp] theorem State.setZN_a (s : State) (v : Byte) : (s.setZN v).a = s.a := rfl
@[simp] theorem State.setZN_x (s : State) (v : Byte) : (s.setZN v).x = s.x := rfl
@[simp] theorem State.setZN_y (s : State) (v : Byte) : (s.setZN v).y = s.y := rfl
@[simp] theorem State.setZN_sp (s : State) (v : Byte) : (s.setZN v).sp = s.sp := rfl
@[simp] theorem State.setZN_pc (s : State) (v : Byte) : (s.setZN v).pc = s.pc := rfl
@[simp] theorem State.setZN_fetched (s : State) (v : Byte) : (s.setZN v).fetched = s.fetched := rfl
@[simp] theorem State.setZN_addrAbs (s : State) (v : Byte) : (s.setZN v).addrAbs = s.addrAbs := rfl
@[simp] theorem State.setZN_addrRel (s : State) (v : Byte) : (s.setZN v).addrRel = s.addrRel := rfl
@[simp] theorem State.setZN_opcode (s : State) (v : Byte) : (s.setZN v).opcode = s.opcode := rfl
@[simp] theorem State.setZN_mode (s : State) (v : Byte) : (s.setZN v).mode = s.mode := rfl
@[simp] theorem State.setZN_cycles (s : State) (v : Byte) : (s.setZN v).cycles = s.cycles := rfl
@[simp] theorem State.setZN_mem (s : State) (v : Byte) : (s.setZN v).mem = s.mem := rfl
@[simp] theorem State.setZN_events (s : State) (v : Byte) : (s.setZN v).events = s.events := rfl
@[simp] theorem State.setZN_bus (s : State) (v : Byte) : (s.setZN v).bus = s.bus := rfl

@[simp] theorem State.loadA_x (s : State) (v : Byte) : (s.loadA v).x = s.x := rfl
@[simp] theorem State.loadA_y (s : State) (v : Byte) : (s.loadA v).y = s.y := rfl
@[simp] theorem State.loadA_sp (s : State) (v : Byte) : (s.loadA v).sp = s.sp := rfl
@[simp] theorem State.loadA_pc (s : State) (v : Byte) : (s.loadA v).pc = s.pc := rfl
@[simp] theorem State.loadA_fetched (s : State) (v : Byte) : (s.loadA v).fetched = s.fetched := rfl
@[simp] theorem State.loadA_addrAbs (s : State) (v : Byte) : (s.loadA v).addrAbs = s.addrAbs := rfl
@[simp] theorem State.loadA_addrRel (s : State) (v : Byte) : (s.loadA v).addrRel = s.addrRel := rfl
@[simp] theorem State.loadA_opcode (s : State) (v : Byte) : (s.loadA v).opcode = s.opcode := rfl
@[simp] theorem State.loadA_mode (s : State) (v : Byte) : (s.loadA v).mode = s.mode := rfl
@[simp] theorem State.loadA_cycles (s : State) (v : Byte) : (s.loadA v).cycles = s.cycles := rfl
@[simp] theorem State.loadA_mem (s : State) (v : Byte) : (s.loadA v).mem = s.mem := rfl
@[simp] theorem State.loadA_events (s : State) (v : Byte) : (s.loadA v).events = s.events := rfl
@[simp] theorem State.loadA_bus (s : State) (v : Byte) : (s.loadA v).bus = s.bus := rfl

@[simp] theorem State.loadX_a (s : State) (v : Byte) : (s.loadX v).a = s.a := rfl
@[simp] theorem State.loadX_y (s : State) (v : Byte) : (s.loadX v).y = s.y := rfl
@[simp] theorem State.loadX_sp (s : State) (v : Byte) : (s.loadX v).sp = s.sp := rfl
@[simp] theorem State.loadX_pc (s : State) (v : Byte) : (s.loadX v).pc = s.pc := rfl
@[simp] theorem State.loadX_fetched (s : State) (v : Byte) : (s.loadX v).fetched = s.fetched := rfl
@[simp] theorem State.loadX_addrAbs (s : State) (v : Byte) : (s.loadX v).addrAbs = s.addrAbs := rfl
@[simp] theorem State.loadX_addrRel (s : State) (v : Byte) : (s.loadX v).addrRel = s.addrRel := rfl
@[simp] theorem State.loadX_opcode (s : State) (v : Byte) : (s.loadX v).opcode = s.opcode := rfl
@[simp] theorem State.loadX_mode (s : State) (v : Byte) : (s.loadX v).mode = s.mode := rfl
@[simp] theorem State.loadX_cycles (s : State) (v : Byte) : (s.loadX v).cycles = s.cycles := rfl
@[simp] theorem State.loadX_mem (s : State) (v : Byte) : (s.loadX v).mem = s.mem := rfl
@[simp] theorem State.loadX_events (s : State) (v : Byte) : (s.loadX v).events = s.events := rfl
@[simp] theorem State.loadX_bus (s : State) (v : Byte) : (s.loadX v).bus = s.bus := rfl

@[simp] theorem State.loadY_a (s : State) (v : Byte) : (s.loadY v).a = s.a := rfl
@[simp] theorem State.loadY_x (s : State) (v : Byte) : (s.loadY v).x = s.x := rfl
@[simp] theorem State.loadY_sp (s : State) (v : Byte) : (s.loadY v).sp = s.sp := rfl
@[simp] theorem State.loadY_pc (s : State) (v : Byte) : (s.loadY v).pc = s.pc := rfl
@[simp] theorem State.loadY_fetched (s : State) (v : Byte) : (s.loadY v).fetched = s.fetched := rfl
@[simp] theorem State.loadY_addrAbs (s : State) (v : Byte) : (s.loadY v).addrAbs = s.addrAbs := rfl
@[simp] theorem State.loadY_addrRel (s : State) (v : Byte) : (s.loadY v).addrRel = s.addrRel := rfl
@[simp] theorem State.loadY_opcode (s : State) (v : Byte) : (s.loadY v).opcode = s.opcode := rfl
@[simp] theorem State.loadY_mode (s : State) (v : Byte) : (s.loadY v).mode = s.mode := rfl
@[simp] theorem State.loadY_cycles (s : State) (v : Byte) : (s.loadY v).cycles = s.cycles := rfl
@[simp] theorem State.loadY_mem (s : State) (v : Byte) : (s.loadY v).mem = s.mem := rfl
@[simp] theorem State.loadY_events (s : State) (v : Byte) : (s.loadY v).events = s.events := rfl
@[simp] theorem State.loadY_bus (s : State) (v : Byte) : (s.loadY v).bus = s.bus := rfl

@[simp] theorem State.addWithCarry_x (s : State) (m : Byte) : (s.addWithCarry m).x = s.x := by simp [State.addWithCarry]
@[simp] theorem State.addWithCarry_y (s : State) (m : Byte) : (s.addWithCarry m).y = s.y := by simp [State.addWithCarry]
@[simp] theorem State.addWithCarry_sp (s : State) (m : Byte) : (s.addWithCarry m).sp = s.sp := by simp [State.addWithCarry]
@[simp] theorem State.addWithCarry_pc (s : State) (m : Byte) : (s.addWithCarry m).pc = s.pc := by simp [State.addWithCarry]
@[simp] theorem State.addWithCarry_fetched (s : State) (m : Byte) : (s.addWithCarry m).fetched = s.fetched := by simp [State.addWithCarry]
@[simp] theorem State.addWithCarry_addrAbs (s : State) (m : Byte) : (s.addWithCarry m).addrAbs = s.addrAbs := by simp [State.addWithCarry]
@[simp] theorem State.addWithCarry_addrRel (s : State) (m : Byte) : (s.addWithCarry m).addrRel = s.addrRel := by simp [State.addWithCarry]
@[simp] theorem State.addWithCarry_opcode (s : State) (m : Byte) : (s.addWithCarry m).opcode = s.opcode := by simp [State.addWithCarry]
@[simp] theorem State.addWithCarry_mode (s : State) (m : Byte) : (s.addWithCarry m).mode = s.mode := by simp [State.addWithCarry]
@[simp] theorem State.addWithCarry_cycles (s : State) (m : Byte) : (s.addWithCarry m).cycles = s.cycles := by simp [State.addWithCarry]
@[simp] theorem State.addWithCarry_mem (s : State) (m : Byte) : (s.addWithCarry m).mem = s.mem := by simp [State.addWithCarry]
@[simp] theorem State.addWithCarry_events (s : State) (m : Byte) : (s.addWithCarry m).events = s.events := by simp [State.addWithCarry]
@[simp] theorem State.addWithCarry_bus (s : State) (m : Byte) : (s.addWithCarry m).bus = s.bus := by simp [State.addWithCarry]

@[simp] theorem State.compareFlags_a (s : State) (r m : Byte) : (s.compareFlags r m).a = s.a := by simp [State.compareFlags]
@[simp] theorem State.compareFlags_x (s : State) (r m : Byte) : (s.compareFlags r m).x = s.x := by simp [State.compareFlags]
@[simp] theorem State.compareFlags_y (s : State) (r m : Byte) : (s.compareFlags r m).y = s.y := by simp [State.compareFlags]
@[simp] theorem State.compareFlags_sp (s : State) (r m : Byte) : (s.compareFlags r m).sp = s.sp := by simp [State.compareFlags]
@[simp] theorem State.compareFlags_pc (s : State) (r m : Byte) : (s.compareFlags r m).pc = s.pc := by simp [State.compareFlags]
@[simp] theorem State.compareFlags_fetched (s : State) (r m : Byte) : (s.compareFlags r m).fetched = s.fetched := by simp [State.compareFlags]
@[simp] theorem State.compareFlags_addrAbs (s : State) (r m : Byte) : (s.compareFlags r m).addrAbs = s.addrAbs := by simp [State.compareFlags]
@[simp] theorem State.compareFlags_addrRel (s : State) (r m : Byte) : (s.compareFlags r m).addrRel = s.addrRel := by simp [State.compareFlags]
@[simp] theorem State.compareFlags_opcode (s : State) (r m : Byte) : (s.compareFlags r m).opcode = s.opcode := by simp [State.compareFlags]
@[simp] theorem State.compareFlags_mode (s : State) (r m : Byte) : (s.compareFlags r m).mode = s.mode := by simp [State.compareFlags]
@[simp] theorem State.compareFlags_cycles (s : State) (r m : Byte) : (s.compareFlags r m).cycles = s.cycles := by simp [State.compareFlags]
@[simp] theorem State.compareFlags_mem (s : State) (r m : Byte) : (s.compareFlags r m).mem = s.mem := by simp [State.compareFlags]
@[simp] theorem State.compareFlags_events (s : State) (r m : Byte) : (s.compareFlags r m).events = s.events := by simp [State.compareFlags]
@[simp] theorem State.compareFlags_bus (s : State) (r m : Byte) : (s.compareFlags r m).bus = s.bus := by simp [State.compareFlags]

@[simp] theorem State.bitFlags_a (s : State) (m : Byte) : (s.bitFlags m).a = s.a := rfl
@[simp] theorem State.bitFlags_x (s : State) (m : Byte) : (s.bitFlags m).x = s.x := rfl
@[simp] theorem State.bitFlags_y (s : State) (m : Byte) : (s.bitFlags m).y = s.y := rfl
@[simp] theorem State.bitFlags_sp (s : State) (m : Byte) : (s.bitFlags m).sp = s.sp := rfl
@[simp] theorem State.bitFlags_pc (s : State) (m : Byte) : (s.bitFlags m).pc = s.pc := rfl
@[simp] theorem State.bitFlags_fetched (s : State) (m : Byte) : (s.bitFlags m).fetched = s.fetched := rfl
@[simp] theorem State.bitFlags_addrAbs (s : State) (m : Byte) : (s.bitFlags m).addrAbs = s.addrAbs := rfl
@[simp] theorem State.bitFlags_addrRel (s : State) (m : Byte) : (s.bitFlags m).addrRel = s.addrRel := rfl
@[simp] theorem State.bitFlags_opcode (s : State) (m : Byte) : (s.bitFlags m).opcode = s.opcode := rfl
@[simp] theorem State.bitFlags_mode (s : State) (m : Byte) : (s.bitFlags m).mode = s.mode := rfl
@[simp] theorem State.bitFlags_cycles (s : State) (m : Byte) : (s.bitFlags m).cycles = s.cycles := rfl
@[simp] theorem State.bitFlags_mem (s : State) (m : Byte) : (s.bitFlags m).mem = s.mem := rfl
@[simp] theorem State.bitFlags_events (s : State) (m : Byte) : (s.bitFlags m).events = s.events := rfl
@[simp] theorem State.bitFlags_bus (s : State) (m : Byte) : (s.bitFlags m).bus = s.bus := rfl

@[simp] theorem State.shiftFlags_a (s : State) (out : Bool) (r : Byte) : (s.shiftFlags out r).a = s.a := rfl
@[simp] theorem State.shiftFlags_x (s : State) (out : Bool) (r : Byte) : (s.shiftFlags out r).x = s.x := rfl
@[simp] theorem State.shiftFlags_y (s : State) (out : Bool) (r : Byte) : (s.shiftFlags out r).y = s.y := rfl
@[simp] theorem State.shiftFlags_sp (s : State) (out : Bool) (r : Byte) : (s.shiftFlags out r).sp = s.sp := rfl
@[simp] theorem State.shiftFlags_pc (s : State) (out : Bool) (r : Byte) : (s.shiftFlags out r).pc = s.pc := rfl
@[simp] theorem State.shiftFlags_fetched (s : State) (out : Bool) (r : Byte) : (s.shiftFlags out r).fetched = s.fetched := rfl
@[simp] theorem State.shiftFlags_addrAbs (s : State) (out : Bool) (r : Byte) : (s.shiftFlags out r).addrAbs = s.addrAbs := rfl
@[simp] theorem State.shiftFlags_addrRel (s : State) (out : Bool) (r : Byte) : (s.shiftFlags out r).addrRel = s.addrRel := rfl
@[simp] theorem State.shiftFlags_opcode (s : State) (out : Bool) (r : Byte) : (s.shiftFlags out r).opcode = s.opcode := rfl
@[simp] theorem State.shiftFlags_mode (s : State) (out : Bool) (r : Byte) : (s.shiftFlags out r).mode = s.mode := rfl
@[simp] theorem State.shiftFlags_cycles (s : State) (out : Bool) (r : Byte) : (s.shiftFlags out r).cycles = s.cycles := rfl
@[simp] theorem State.shiftFlags_mem (s : State) (out : Bool) (r : Byte) : (s.shiftFlags out r).mem = s.mem := rfl
@[simp] theorem State.shiftFlags_events (s : State) (out : Bool) (r : Byte) : (s.shiftFlags out r).events = s.events := rfl
@[simp] theorem State.shiftFlags_bus (s : State) (out : Bool) (r : Byte) : (s.shiftFlags out r).bus = s.bus := rfl

@[simp] theorem State.logRead_a (s : State) (a : Word) : (s.logRead a).a = s.a := rfl
@[simp] theorem State.logRead_x (s : State) (a : Word) : (s.logRead a).x = s.x := rfl
@[simp] theorem State.logRead_y (s : State) (a : Word) : (s.logRead a).y = s.y := rfl
@[simp] theorem State.logRead_sp (s : State) (a : Word) : (s.logRead a).sp = s.sp := rfl
@[simp] theorem State.logRead_pc (s : State) (a : Word) : (s.logRead a).pc = s.pc := rfl
@[simp] theorem State.logRead_p (s : State) (a : Word) : (s.logRead a).p = s.p := rfl
@[simp] theorem State.logRead_fetched (s : State) (a : Word) : (s.logRead a).fetched = s.fetched := rfl
@[simp] theorem State.logRead_addrAbs (s : State) (a : Word) : (s.logRead a).addrAbs = s.addrAbs := rfl
@[simp] theorem State.logRead_addrRel (s : State) (a : Word) : (s.logRead a).addrRel = s.addrRel := rfl
@[simp] theorem State.logRead_opcode (s : State) (a : Word) : (s.logRead a).opcode = s.opcode := rfl
@[simp] theorem State.logRead_mode (s : State) (a : Word) : (s.logRead a).mode = s.mode := rfl
@[simp] theorem State.logRead_cycles (s : State) (a : Word) : (s.logRead a).cycles = s.cycles := rfl
@[simp] theorem State.logRead_mem (s : State) (a : Word) : (s.logRead a).mem = s.mem := rfl
@[simp] theorem State.logRead_events (s : State) (a : Word) : (s.logRead a).events = s.events := rfl
@[simp] theorem State.logRead_flag (s : State) (a : Word) (f : Flag) : (s.logRead a).flag f = s.flag f := rfl

@[simp] theorem State.logReads_a (s : State) (as : List Word) : (s.logReads as).a = s.a := rfl
@[simp] theorem State.logReads_x (s : State) (as : List Word) : (s.logReads as).x = s.x := rfl
@[simp] theorem State.logReads_y (s : State) (as : List Word) : (s.logReads as).y = s.y := rfl
@[simp] theorem State.logReads_sp (s : State) (as : List Word) : (s.logReads as).sp = s.sp := rfl
@[simp] theorem State.logReads_pc (s : State) (as : List Word) : (s.logReads as).pc = s.pc := rfl
@[simp] theorem State.logReads_p (s : State) (as : List Word) : (s.logReads as).p = s.p := rfl
@[simp] theorem State.logReads_fetched (s : State) (as : List Word) : (s.logReads as).fetched = s.fetched := rfl
@[simp] theorem State.logReads_addrAbs (s : State) (as : List Word) : (s.logReads as).addrAbs = s.addrAbs := rfl
@[simp] theorem State.logReads_addrRel (s : State) (as : List Word) : (s.logReads as).addrRel = s.addrRel := rfl
@[simp] theorem State.logReads_opcode (s : State) (as : List Word) : (s.logReads as).opcode = s.opcode := rfl
@[simp] theorem State.logReads_mode (s : State) (as : List Word) : (s.logReads as).mode = s.mode := rfl
@[simp] theorem State.logReads_cycles (s : State) (as : List Word) : (s.logReads as).cycles = s.cycles := rfl
@[simp] theorem State.logReads_mem (s : State) (as : List Word) : (s.logReads as).mem = s.mem := rfl
@[simp] theorem State.logReads_events (s : State) (as : List Word) : (s.logReads as).events = s.events := rfl
@[simp] theorem State.logReads_flag (s : State) (as : List Word) (f : Flag) : (s.logReads as).flag f = s.flag f := rfl

@[simp] theorem State.busWrite_a (s : State) (a : Word) (v : Byte) : (s.busWrite a v).a = s.a := rfl
@[simp] theorem State.busWrite_x (s : State) (a : Word) (v : Byte) : (s.busWrite a v).x = s.x := rfl
@[simp] theorem State.busWrite_y (s : State) (a : Word) (v : Byte) : (s.busWrite a v).y = s.y := rfl
@[simp] theorem State.busWrite_sp (s : State) (a : Word) (v : Byte) : (s.busWrite a v).sp = s.sp := rfl
@[simp] theorem State.busWrite_pc (s : State) (a : Word) (v : Byte) : (s.busWrite a v).pc = s.pc := rfl
@[simp] theorem State.busWrite_p (s : State) (a : Word) (v : Byte) : (s.busWrite a v).p = s.p := rfl
@[simp] theorem State.busWrite_fetched (s : State) (a : Word) (v : Byte) : (s.busWrite a v).fetched = s.fetched := rfl
@[simp] theorem State.busWrite_addrAbs (s : State) (a : Word) (v : Byte) : (s.busWrite a v).addrAbs = s.addrAbs := rfl
@[simp] theorem State.busWrite_addrRel (s : State) (a : Word) (v : Byte) : (s.busWrite a v).addrRel = s.addrRel := rfl
@[simp] theorem State.busWrite_opcode (s : State) (a : Word) (v : Byte) : (s.busWrite a v).opcode = s.opcode := rfl
@[simp] theorem State.busWrite_mode (s : State) (a : Word) (v : Byte) : (s.busWrite a v).mode = s.mode := rfl
@[simp] theorem State.busWrite_cycles (s : State) (a : Word) (v : Byte) : (s.busWrite a v).cycles = s.cycles := rfl
@[simp] theorem State.busWrite_events (s : State) (a : Word) (v : Byte) : (s.busWrite a v).events = s.events := rfl
@[simp] theorem State.busWrite_flag (s : State) (a : Word) (v : Byte) (f : Flag) : (s.busWrite a v).flag f = s.flag f := rfl

@[simp] theorem State.push_a (s : State) (v : Byte) : (s.push v).a = s.a := rfl
@[simp] theorem State.push_x (s : State) (v : Byte) : (s.push v).x = s.x := rfl
@[simp] theorem State.push_y (s : State) (v : Byte) : (s.push v).y = s.y := rfl
@[simp] theorem State.push_pc (s : State) (v : Byte) : (s.push v).pc = s.pc := rfl
@[simp] theorem State.push_p (s : State) (v : Byte) : (s.push v).p = s.p := rfl
@[simp] theorem State.push_fetched (s : State) (v : Byte) : (s.push v).fetched = s.fetched := rfl
@[simp] theorem State.push_addrAbs (s : State) (v : Byte) : (s.push v).addrAbs = s.addrAbs := rfl
@[simp] theorem State.push_addrRel (s : State) (v : Byte) : (s.push v).addrRel = s.addrRel := rfl
@[simp] theorem State.push_opcode (s : State) (v : Byte) : (s.push v).opcode = s.opcode := rfl
@[simp] theorem State.push_mode (s : State) (v : Byte) : (s.push v).mode = s.mode := rfl
@[simp] theorem State.push_cycles (s : State) (v : Byte) : (s.push v).cycles = s.cycles := rfl
@[simp] theorem State.push_events (s : State) (v : Byte) : (s.push v).events = s.events := rfl
@[simp] theorem State.push_flag (s : State) (v : Byte) (f : Flag) : (s.push v).flag f = s.flag f := rfl

@[simp] theorem State.pushWord_a (s : State) (w : Word) : (s.pushWord w).a = s.a := by simp [State.pushWord]
@[simp] theorem State.pushWord_x (s : State) (w : Word) : (s.pushWord w).x = s.x := by simp [State.pushWord]
@[simp] theorem State.pushWord_y (s : State) (w : Word) : (s.pushWord w).y = s.y := by simp [State.pushWord]
@[simp] theorem State.pushWord_pc (s : State) (w : Word) : (s.pushWord w).pc = s.pc := by simp [State.pushWord]
@[simp] theorem State.pushWord_p (s : State) (w : Word) : (s.pushWord w).p = s.p := by simp [State.pushWord]
@[simp] theorem State.pushWord_fetched (s : State) (w : Word) : (s.pushWord w).fetched = s.fetched := by simp [State.pushWord]
@[simp] theorem State.pushWord_addrAbs (s : State) (w : Word) : (s.pushWord w).addrAbs = s.addrAbs := by simp [State.pushWord]
@[simp] theorem State.pushWord_addrRel (s : State) (w : Word) : (s.pushWord w).addrRel = s.addrRel := by simp [State.pushWord]
@[simp] theorem State.pushWord_opcode (s : State) (w : Word) : (s.pushWord w).opcode = s.opcode := by simp [State.pushWord]
@[simp] theorem State.pushWord_mode (s : State) (w : Word) : (s.pushWord w).mode = s.mode := by simp [State.pushWord]
@[simp] theorem State.pushWord_cycles (s : State) (w : Word) : (s.pushWord w).cycles = s.cycles := by simp [State.pushWord]
@[simp] theorem State.pushWord_events (s : State) (w : Word) : (s.pushWord w).events = s.events := by simp [State.pushWord]
@[simp] theorem State.pushWord_flag (s : State) (w : Word) (f : Flag) : (s.pushWord w).flag f = s.flag f := by simp [State.pushWord]

@[simp] theorem State.pull_a (s : State) : s.pull.a = s.a := rfl
@[simp] theorem State.pull_x (s : State) : s.pull.x = s.x := rfl
@[simp] theorem State.pull_y (s : State) : s.pull.y = s.y := rfl
@[simp] theorem State.pull_pc (s : State) : s.pull.pc = s.pc := rfl
@[simp] theorem State.pull_p (s : State) : s.pull.p = s.p := rfl
@[simp] theorem State.pull_fetched (s : State) : s.pull.fetched = s.fetched := rfl
@[simp] theorem State.pull_addrAbs (s : State) : s.pull.addrAbs = s.addrAbs := rfl
@[simp] theorem State.pull_addrRel (s : State) : s.pull.addrRel = s.addrRel := rfl
@[simp] theorem State.pull_opcode (s : State) : s.pull.opcode = s.opcode := rfl
@[simp] theorem State.pull_mode (s : State) : s.pull.mode = s.mode := rfl
@[simp] theorem State.pull_cycles (s : State) : s.pull.cycles = s.cycles := rfl
@[simp] theorem State.pull_mem (s : State) : s.pull.mem = s.mem := rfl
@[simp] theorem State.pull_events (s : State) : s.pull.events = s.events := rfl
@[simp] theorem State.pull_flag (s : State) (f : Flag) : s.pull.flag f = s.flag f := rfl

@[simp] theorem State.pullWord_a (s : State) : s.pullWord.a = s.a := by simp [State.pullWord]
@[simp] theorem State.pullWord_x (s : State) : s.pullWord.x = s.x := by simp [State.pullWord]
@[simp] theorem State.pullWord_y (s : State) : s.pullWord.y = s.y := by simp [State.pullWord]
@[simp] theorem State.pullWord_pc (s : State) : s.pullWord.pc = s.pc := by simp [State.pullWord]
@[simp] theorem State.pullWord_p (s : State) : s.pullWord.p = s.p := by simp [State.pullWord]
@[simp] theorem State.pullWord_fetched (s : State) : s.pullWord.fetched = s.fetched := by simp [State.pullWord]
@[simp] theorem State.pullWord_addrAbs (s : State) : s.pullWord.addrAbs = s.addrAbs := by simp [State.pullWord]
@[simp] theorem State.pullWord_addrRel (s : State) : s.pullWord.addrRel = s.addrRel := by simp [State.pullWord]
@[simp] theorem State.pullWord_opcode (s : State) : s.pullWord.opcode = s.opcode := by simp [State.pullWord]
@[simp] theorem State.pullWord_mode (s : State) : s.pullWord.mode = s.mode := by simp [State.pullWord]
@[simp] theorem State.pullWord_cycles (s : State) : s.pullWord.cycles = s.cycles := by simp [State.pullWord]
@[simp] theorem State.pullWord_mem (s : State) : s.pullWord.mem = s.mem := by simp [State.pullWord]
@[simp] theorem State.pullWord_events (s : State) : s.pullWord.events = s.events := by simp [State.pullWord]
@[simp] theorem State.pullWord_flag (s : State) (f : Flag) : s.pullWord.flag f = s.flag f := by simp [State.pullWord]

@[simp] theorem State.loadVector_a (s : State) (v : Word) : (s.loadVector v).a = s.a := rfl
@[simp] theorem State.loadVector_x (s : State) (v : Word) : (s.loadVector v).x = s.x := rfl
@[simp] theorem State.loadVector_y (s : State) (v : Word) : (s.loadVector v).y = s.y := rfl
@[simp] theorem State.loadVector_sp (s : State) (v : Word) : (s.loadVector v).sp = s.sp := rfl
@[simp] theorem State.loadVector_p (s : State) (v : Word) : (s.loadVector v).p = s.p := rfl
@[simp] theorem State.loadVector_fetched (s : State) (v : Word) : (s.loadVector v).fetched = s.fetched := rfl
@[simp] theorem State.loadVector_addrAbs (s : State) (v : Word) : (s.loadVector v).addrAbs = s.addrAbs := rfl
@[simp] theorem State.loadVector_addrRel (s : State) (v : Word) : (s.loadVector v).addrRel = s.addrRel := rfl
@[simp] theorem State.loadVector_opcode (s : State) (v : Word) : (s.loadVector v).opcode = s.opcode := rfl
@[simp] theorem State.loadVector_mode (s : State) (v : Word) : (s.loadVector v).mode = s.mode := rfl
@[simp] theorem State.loadVector_cycles (s : State) (v : Word) : (s.loadVector v).cycles = s.cycles := rfl
@[simp] theorem State.loadVector_mem (s : State) (v : Word) : (s.loadVector v).mem = s.mem := rfl
@[simp] theorem State.loadVector_events (s : State) (v : Word) : (s.loadVector v).events = s.events := rfl
@[simp] theorem State.loadVector_flag (s : State) (v : Word) (f : Flag) : (s.loadVector v).flag f = s.flag f := rfl

@[simp] theorem State.enterHandler_a (s : State) (vector : Word) (before after : Byte → Byte) : (s.enterHandler vector before after).a = s.a := by simp [State.enterHandler]
@[simp] theorem State.enterHandler_x (s : State) (vector : Word) (before after : Byte → Byte) : (s.enterHandler vector before after).x = s.x := by simp [State.enterHandler]
@[simp] theorem State.enterHandler_y (s : State) (vector : Word) (before after : Byte → Byte) : (s.enterHandler vector before after).y = s.y := by simp [State.enterHandler]
@[simp] theorem State.enterHandler_fetched (s : State) (vector : Word) (before after : Byte → Byte) : (s.enterHandler vector before after).fetched = s.fetched := by simp [State.enterHandler]
@[simp] theorem State.enterHandler_addrAbs (s : State) (vector : Word) (before after : Byte → Byte) : (s.enterHandler vector before after).addrAbs = s.addrAbs := by simp [State.enterHandler]
@[simp] theorem State.enterHandler_addrRel (s : State) (vector : Word) (before after : Byte → Byte) : (s.enterHandler vector before after).addrRel = s.addrRel := by simp [State.enterHandler]
@[simp] theorem State.enterHandler_opcode (s : State) (vector : Word) (before after : Byte → Byte) : (s.enterHandler vector before after).opcode = s.opcode := by simp [State.enterHandler]
@[simp] theorem State.enterHandler_mode (s : State) (vector : Word) (before after : Byte → Byte) : (s.enterHandler vector before after).mode = s.mode := by simp [State.enterHandler]
@[simp] theorem State.enterHandler_cycles (s : State) (vector : Word) (before after : Byte → Byte) : (s.enterHandler vector before after).cycles = s.cycles := by simp [State.enterHandler]
@[simp] theorem State.enterHandler_events (s : State) (vector : Word) (before after : Byte → Byte) : (s.enterHandler vector before after).events = s.events := by simp [State.enterHandler]

@[simp] theorem State.returnFromHandler_a (s : State) : s.returnFromHandler.a = s.a := by simp [State.returnFromHandler]
@[simp] theorem State.returnFromHandler_x (s : State) : s.returnFromHandler.x = s.x := by simp [State.returnFromHandler]
@[simp] theorem State.returnFromHandler_y (s : State) : s.returnFromHandler.y = s.y := by simp [State.returnFromHandler]
@[simp] theorem State.returnFromHandler_fetched (s : State) : s.returnFromHandler.fetched = s.fetched := by simp [State.returnFromHandler]
@[simp] theorem State.returnFromHandler_addrAbs (s : State) : s.returnFromHandler.addrAbs = s.addrAbs := by simp [State.returnFromHandler]
@[simp] theorem State.returnFromHandler_addrRel (s : State) : s.returnFromHandler.addrRel = s.addrRel := by simp [State.returnFromHandler]
@[simp] theorem State.returnFromHandler_opcode (s : State) : s.returnFromHandler.opcode = s.opcode := by simp [State.returnFromHandler]
@[simp] theorem State.returnFromHandler_mode (s : State) : s.returnFromHandler.mode = s.mode := by simp [State.returnFromHandler]
@[simp] theorem State.returnFromHandler_cycles (s : State) : s.returnFromHandler.cycles = s.cycles := by simp [State.returnFromHandler]
@[simp] theorem State.returnFromHandler_mem (s : State) : s.returnFromHandler.mem = s.mem := by simp [State.returnFromHandler]
@[simp] theorem State.returnFromHandler_events (s : State) : s.returnFromHandler.events = s.events := by simp [State.returnFromHandler]

@[simp] theorem State.resolve_a (s : State) (o : Operand) : (s.resolve o).a = s.a := by cases o <;> rfl
@[simp] theorem State.resolve_x (s : State) (o : Operand) : (s.resolve o).x = s.x := by cases o <;> rfl
@[simp] theorem State.resolve_y (s : State) (o : Operand) : (s.resolve o).y = s.y := by cases o <;> rfl
@[simp] theorem State.resolve_sp (s : State) (o : Operand) : (s.resolve o).sp = s.sp := by cases o <;> rfl
@[simp] theorem State.resolve_pc (s : State) (o : Operand) : (s.resolve o).pc = s.pc := by cases o <;> rfl
@[simp] theorem State.resolve_p (s : State) (o : Operand) : (s.resolve o).p = s.p := by cases o <;> rfl
@[simp] theorem State.resolve_opcode (s : State) (o : Operand) : (s.resolve o).opcode = s.opcode := by cases o <;> rfl
@[simp] theorem State.resolve_mode (s : State) (o : Operand) : (s.resolve o).mode = s.mode := by cases o <;> rfl
@[simp] theorem State.resolve_cycles (s : State) (o : Operand) : (s.resolve o).cycles = s.cycles := by cases o <;> rfl
@[simp] theorem State.resolve_mem (s : State) (o : Operand) : (s.resolve o).mem = s.mem := by cases o <;> rfl
@[simp] theorem State.resolve_events (s : State) (o : Operand) : (s.resolve o).events = s.events := by cases o <;> rfl
@[simp] theorem State.resolve_flag (s : State) (o : Operand) (f : Flag) : (s.resolve o).flag f = s.flag f := by cases o <;> rfl

@[simp] theorem State.fetchOperand_a (s : State) (o : Operand) : (s.fetchOperand o).a = s.a := by cases o <;> rfl
@[simp] theorem State.fetchOperand_x (s : State) (o : Operand) : (s.fetchOperand o).x = s.x := by cases o <;> rfl
@[simp] theorem State.fetchOperand_y (s : State) (o : Operand) : (s.fetchOperand o).y = s.y := by cases o <;> rfl
@[simp] theorem State.fetchOperand_sp (s : State) (o : Operand) : (s.fetchOperand o).sp = s.sp := by cases o <;> rfl
@[simp] theorem State.fetchOperand_pc (s : State) (o : Operand) : (s.fetchOperand o).pc = s.pc := by cases o <;> rfl
@[simp] theorem State.fetchOperand_p (s : State) (o : Operand) : (s.fetchOperand o).p = s.p := by cases o <;> rfl
@[simp] theorem State.fetchOperand_addrAbs (s : State) (o : Operand) : (s.fetchOperand o).addrAbs = s.addrAbs := by cases o <;> rfl
@[simp] theorem State.fetchOperand_addrRel (s : State) (o : Operand) : (s.fetchOperand o).addrRel = s.addrRel := by cases o <;> rfl
@[simp] theorem State.fetchOperand_opcode (s : State) (o : Operand) : (s.fetchOperand o).opcode = s.opcode := by cases o <;> rfl
@[simp] theorem State.fetchOperand_mode (s : State) (o : Operand) : (s.fetchOperand o).mode = s.mode := by cases o <;> rfl
@[simp] theorem State.fetchOperand_cycles (s : State) (o : Operand) : (s.fetchOperand o).cycles = s.cycles := by cases o <;> rfl
@[simp] theorem State.fetchOperand_mem (s : State) (o : Operand) : (s.fetchOperand o).mem = s.mem := by cases o <;> rfl
@[simp] theorem State.fetchOperand_events (s : State) (o : Operand) : (s.fetchOperand o).events = s.events := by cases o <;> rfl
@[simp] theorem State.fetchOperand_flag (s : State) (o : Operand) (f : Flag) : (s.fetchOperand o).flag f = s.flag f := by cases o <;> rfl

@[simp] theorem State.writeback_x (s : State) (o : Operand) (v : Byte) : (s.writeback o v).x = s.x := by cases o <;> rfl
@[simp] theorem State.writeback_y (s : State) (o : Operand) (v : Byte) : (s.writeback o v).y = s.y := by cases o <;> rfl
@[simp] theorem State.writeback_sp (s : State) (o : Operand) (v : Byte) : (s.writeback o v).sp = s.sp := by cases o <;> rfl
@[simp] theorem State.writeback_pc (s : State) (o : Operand) (v : Byte) : (s.writeback o v).pc = s.pc := by cases o <;> rfl
@[simp] theorem State.writeback_p (s : State) (o : Operand) (v : Byte) : (s.writeback o v).p = s.p := by cases o <;> rfl
@[simp] theorem State.writeback_fetched (s : State) (o : Operand) (v : Byte) : (s.writeback o v).fetched = s.fetched := by cases o <;> rfl
@[simp] theorem State.writeback_addrAbs (s : State) (o : Operand) (v : Byte) : (s.writeback o v).addrAbs = s.addrAbs := by cases o <;> rfl
@[simp] theorem State.writeback_addrRel (s : State) (o : Operand) (v : Byte) : (s.writeback o v).addrRel = s.addrRel := by cases o <;> rfl
@[simp] theorem State.writeback_opcode (s : State) (o : Operand) (v : Byte) : (s.writeback o v).opcode = s.opcode := by cases o <;> rfl
@[simp] theorem State.writeback_mode (s : State) (o : Operand) (v : Byte) : (s.writeback o v).mode = s.mode := by cases o <;> rfl
@[simp] theorem State.writeback_cycles (s : State) (o : Operand) (v : Byte) : (s.writeback o v).cycles = s.cycles := by cases o <;> rfl
@[simp] theorem State.writeback_events (s : State) (o : Operand) (v : Byte) : (s.writeback o v).events = s.events := by cases o <;> rfl
@[simp] theorem State.writeback_flag (s : State) (o : Operand) (v : Byte) (f : Flag) : (s.writeback o v).flag f = s.flag f := by cases o <;> rfl

@[simp] theorem State.addExtra_a (s : State) (both : Bool) : (s.addExtra both).a = s.a := by cases both <;> rfl
@[simp] theorem State.addExtra_x (s : State) (both : Bool) : (s.addExtra both).x = s.x := by cases both <;> rfl
@[simp] theorem State.addExtra_y (s : State) (both : Bool) : (s.addExtra both).y = s.y := by cases both <;> rfl
@[simp] theorem State.addExtra_sp (s : State) (both : Bool) : (s.addExtra both).sp = s.sp := by cases both <;> rfl
@[simp] theorem State.addExtra_pc (s : State) (both : Bool) : (s.addExtra both).pc = s.pc := by cases both <;> rfl
@[simp] theorem State.addExtra_p (s : State) (both : Bool) : (s.addExtra both).p = s.p := by cases both <;> rfl
@[simp] theorem State.addExtra_fetched (s : State) (both : Bool) : (s.addExtra both).fetched = s.fetched := by cases both <;> rfl
@[simp] theorem State.addExtra_addrAbs (s : State) (both : Bool) : (s.addExtra both).addrAbs = s.addrAbs := by cases both <;> rfl
@[simp] theorem State.addExtra_addrRel (s : State) (both : Bool) : (s.addExtra both).addrRel = s.addrRel := by cases both <;> rfl
@[simp] theorem State.addExtra_opcode (s : State) (both : Bool) : (s.addExtra both).opcode = s.opcode := by cases both <;> rfl
@[simp] theorem State.addExtra_mode (s : State) (both : Bool) : (s.addExtra both).mode = s.mode := by cases both <;> rfl
@[simp] theorem State.addExtra_mem (s : State) (both : Bool) : (s.addExtra both).mem = s.mem := by cases both <;> rfl
@[simp] theorem State.addExtra_events (s : State) (both : Bool) : (s.addExtra both).events = s.events := by cases both <;> rfl
@[simp] theorem State.addExtra_bus (s : State) (both : Bool) : (s.addExtra both).bus = s.bus := by cases both <;> rfl
@[simp] theorem State.addExtra_flag (s : State) (both : Bool) (f : Flag) : (s.addExtra both).flag f = s.flag f := by cases both <;> rfl

end Sys2Proof.Machine
end

