-- ==== Sys2Proof/Laws/Flags.lean ====
section
/-! SUPPORT. The laws of the flags: what a flag write and the shared flag computations leave in each
flag. -/

namespace Sys2Proof.Machine

/-- A flag write changes one bit of P and no other (10_state.md R30 as a law of the status byte). -/
theorem getFlag_putFlag_all : ∀ p : Byte, ∀ on : Bool,
    (∀ g ∈ [Flag.c, .z, .i, .d, .b, .u, .v, .n], ∀ f ∈ [Flag.c, .z, .i, .d, .b, .u, .v, .n],
      getFlag g (putFlag f on p) = if g = f then on else getFlag g p) := by decide +kernel

@[simp] theorem getFlag_putFlag (g f : Flag) (on : Bool) (p : Byte) :
    getFlag g (putFlag f on p) = if g = f then on else getFlag g p :=
  getFlag_putFlag_all p on g (by cases g <;> simp) f (by cases f <;> simp)

theorem status_ext_all : ∀ p q : Byte,
    (∀ f ∈ [Flag.c, .z, .i, .d, .b, .u, .v, .n], getFlag f p = getFlag f q) → p = q := by
  intro p q h
  simp only [List.mem_cons, List.not_mem_nil, or_false, forall_eq_or_imp, forall_eq] at h
  obtain ⟨h0, h1, h2, h3, h4, h5, h6, h7⟩ := h
  apply BitVec.eq_of_getLsbD_eq
  intro i hi
  have : i = 0 ∨ i = 1 ∨ i = 2 ∨ i = 3 ∨ i = 4 ∨ i = 5 ∨ i = 6 ∨ i = 7 := by omega
  rcases this with e | e | e | e | e | e | e | e <;> subst e <;> assumption

/-- Two status bytes with the same eight flags are equal. -/
theorem status_ext {p q : Byte} (h : ∀ f, getFlag f p = getFlag f q) : p = q :=
  status_ext_all p q (fun f _ => h f)

@[simp] theorem State.flag_setP (s : State) (v : Byte) (f : Flag) :
    (s.setP v).flag f = getFlag f v := rfl

theorem getFlag_p (s : State) (f : Flag) : getFlag f s.p = s.flag f := rfl

@[simp] theorem State.flag_setFlag (s : State) (f g : Flag) (on : Bool) :
    (s.setFlag f on).flag g = if g = f then on else s.flag g :=
  getFlag_putFlag g f on s.p

@[simp] theorem State.flag_setZN (s : State) (v : Byte) (g : Flag) :
    (s.setZN v).flag g = if g = .n then v.getLsbD 7 else if g = .z then v == 0 else s.flag g := by
  simp [State.setZN]

@[simp] theorem State.flag_loadA (s : State) (v : Byte) (g : Flag) :
    (s.loadA v).flag g = if g = .n then v.getLsbD 7 else if g = .z then v == 0 else s.flag g := by
  simp [State.loadA]

@[simp] theorem State.flag_loadX (s : State) (v : Byte) (g : Flag) :
    (s.loadX v).flag g = if g = .n then v.getLsbD 7 else if g = .z then v == 0 else s.flag g := by
  simp [State.loadX]

@[simp] theorem State.flag_loadY (s : State) (v : Byte) (g : Flag) :
    (s.loadY v).flag g = if g = .n then v.getLsbD 7 else if g = .z then v == 0 else s.flag g := by
  simp [State.loadY]

@[simp] theorem State.loadA_a (s : State) (v : Byte) : (s.loadA v).a = v := rfl
@[simp] theorem State.loadX_x (s : State) (v : Byte) : (s.loadX v).x = v := rfl
@[simp] theorem State.loadY_y (s : State) (v : Byte) : (s.loadY v).y = v := rfl

@[simp] theorem State.addWithCarry_a (s : State) (m : Byte) :
    (s.addWithCarry m).a = BitVec.ofNat 8 (s.carrySum m) := rfl

@[simp] theorem State.flag_addWithCarry (s : State) (m : Byte) (g : Flag) :
    (s.addWithCarry m).flag g =
      if g = .n then (BitVec.ofNat 8 (s.carrySum m)).getLsbD 7
      else if g = .v then addOverflow s.a m (BitVec.ofNat 8 (s.carrySum m))
      else if g = .z then BitVec.ofNat 8 (s.carrySum m) == 0
      else if g = .c then decide (255 < s.carrySum m) else s.flag g := by
  simp [State.addWithCarry]

@[simp] theorem State.flag_compareFlags (s : State) (r m : Byte) (g : Flag) :
    (s.compareFlags r m).flag g =
      if g = .n then (r - m).getLsbD 7 else if g = .z then r - m == 0
      else if g = .c then decide (m.toNat ≤ r.toNat) else s.flag g := by
  simp [State.compareFlags]

@[simp] theorem State.flag_bitFlags (s : State) (m : Byte) (g : Flag) :
    (s.bitFlags m).flag g =
      if g = .v then m.getLsbD 6 else if g = .n then m.getLsbD 7
      else if g = .z then s.a &&& m == 0 else s.flag g := by
  simp [State.bitFlags]

@[simp] theorem State.flag_shiftFlags (s : State) (out : Bool) (r : Byte) (g : Flag) :
    (s.shiftFlags out r).flag g =
      if g = .n then r.getLsbD 7 else if g = .z then r == 0
      else if g = .c then out else s.flag g := by
  simp [State.shiftFlags]

end Sys2Proof.Machine
end

