-- ==== Sys2Proof/Laws/Memory.lean ====
section
/-! SUPPORT. The laws of the memory: read after write, and the canonical form. They hold of every list,
canonical or not, but for the canonical form itself. -/

namespace Sys2Proof.Machine

theorem Memory.lookup_erase_same (a : Nat) (m : Memory) :
    Memory.lookup a (Memory.erase a m) = Memory.unlisted := by
  induction m with
  | nil => rfl
  | cons cell rest ih =>
    obtain ⟨k, v⟩ := cell
    by_cases h : k = a
    · simp [Memory.erase, h, ih]
    · simp [Memory.erase, Memory.lookup, h, ih]

theorem Memory.lookup_erase_other {a b : Nat} (h : b ≠ a) (m : Memory) :
    Memory.lookup b (Memory.erase a m) = Memory.lookup b m := by
  induction m with
  | nil => rfl
  | cons cell rest ih =>
    obtain ⟨k, v⟩ := cell
    by_cases hk : k = a
    · have : k ≠ b := fun e => h (e.symm.trans hk)
      simp [Memory.erase, Memory.lookup, hk, ih, Ne.symm h]
    · simp [Memory.erase, Memory.lookup, hk, ih]

theorem Memory.lookup_insert_same (a : Nat) (v : Byte) (m : Memory)
    (absent : ∀ w, (a, w) ∉ m) :
    Memory.lookup a (Memory.insert a v m) = v := by
  induction m with
  | nil => simp [Memory.insert, Memory.lookup]
  | cons cell rest ih =>
    obtain ⟨k, w⟩ := cell
    have hk : k ≠ a := fun e => absent w (by simp [e])
    by_cases hl : a < k
    · simp [Memory.insert, Memory.lookup, hl]
    · have hrest : ∀ w, (a, w) ∉ rest := fun w hw => absent w (List.mem_cons_of_mem _ hw)
      simp [Memory.insert, Memory.lookup, hl, hk, ih hrest]

theorem Memory.lookup_insert_other {a b : Nat} (h : b ≠ a) (v : Byte) (m : Memory) :
    Memory.lookup b (Memory.insert a v m) = Memory.lookup b m := by
  induction m with
  | nil => simp [Memory.insert, Memory.lookup, Ne.symm h]
  | cons cell rest ih =>
    obtain ⟨k, w⟩ := cell
    by_cases hl : a < k
    · simp [Memory.insert, Memory.lookup, hl, Ne.symm h]
    · simp [Memory.insert, Memory.lookup, hl, ih]

theorem Memory.not_mem_erase (a : Nat) (m : Memory) (w : Byte) : (a, w) ∉ Memory.erase a m := by
  induction m with
  | nil => simp [Memory.erase]
  | cons cell rest ih =>
    obtain ⟨k, v⟩ := cell
    by_cases h : k = a
    · simp [Memory.erase, h, ih]
    · simp [Memory.erase, h, ih, Ne.symm h]

/-- A read after a write to the same address gives the value written. -/
@[simp] theorem Memory.read_write_same (m : Memory) (a : Word) (v : Byte) :
    (m.write a v).read a = v := by
  unfold Memory.read Memory.write
  split
  · next h => rw [Memory.lookup_erase_same, h]
  · exact Memory.lookup_insert_same _ _ _ (Memory.not_mem_erase _ _)

/-- A write leaves every other address alone. -/
theorem Memory.read_write_other {a b : Word} (h : b ≠ a) (m : Memory) (v : Byte) :
    (m.write a v).read b = m.read b := by
  have hn : b.toNat ≠ a.toNat := fun e => h (BitVec.eq_of_toNat_eq e)
  unfold Memory.read Memory.write
  split
  · exact Memory.lookup_erase_other hn m
  · rw [Memory.lookup_insert_other hn, Memory.lookup_erase_other hn]

/-- A read after a write, whichever the address. -/
theorem Memory.read_write (m : Memory) (a b : Word) (v : Byte) :
    (m.write a v).read b = if b = a then v else m.read b := by
  split
  · next h => rw [h, Memory.read_write_same]
  · next h => exact Memory.read_write_other h m v

theorem Memory.wfFrom_mono {low low' : Nat} (h : low' ≤ low) {m : Memory}
    (hm : Memory.wfFrom low m = true) : Memory.wfFrom low' m = true := by
  cases m with
  | nil => rfl
  | cons cell rest =>
    obtain ⟨k, v⟩ := cell
    simp only [Memory.wfFrom, Bool.and_eq_true, decide_eq_true_eq] at hm ⊢
    exact ⟨⟨⟨by omega, hm.1.1.2⟩, hm.1.2⟩, hm.2⟩

theorem Memory.wfFrom_erase (a : Nat) {m : Memory} {low : Nat}
    (hm : Memory.wfFrom low m = true) : Memory.wfFrom low (Memory.erase a m) = true := by
  induction m generalizing low with
  | nil => rfl
  | cons cell rest ih =>
    obtain ⟨k, v⟩ := cell
    simp only [Memory.wfFrom, Bool.and_eq_true, decide_eq_true_eq] at hm
    unfold Memory.erase
    split
    · exact Memory.wfFrom_mono (by omega) (ih hm.2)
    · simp only [Memory.wfFrom, Bool.and_eq_true, decide_eq_true_eq]
      exact ⟨hm.1, ih hm.2⟩

theorem Memory.wfFrom_insert {a : Nat} {v : Byte} {m : Memory} {low : Nat} (hlow : low ≤ a)
    (ha : a < 65536) (hv : v ≠ Memory.unlisted) (absent : ∀ w, (a, w) ∉ m)
    (hm : Memory.wfFrom low m = true) : Memory.wfFrom low (Memory.insert a v m) = true := by
  induction m generalizing low with
  | nil => simp [Memory.insert, Memory.wfFrom, hlow, ha, hv]
  | cons cell rest ih =>
    obtain ⟨k, w⟩ := cell
    simp only [Memory.wfFrom, Bool.and_eq_true, decide_eq_true_eq] at hm
    have hk : k ≠ a := fun e => absent w (by simp [e])
    unfold Memory.insert
    split
    · simp only [Memory.wfFrom, Bool.and_eq_true, decide_eq_true_eq, bne_iff_ne]
      exact ⟨⟨⟨hlow, ha⟩, hv⟩, ⟨⟨by omega, hm.1.1.2⟩, by simpa using hm.1.2⟩, hm.2⟩
    · simp only [Memory.wfFrom, Bool.and_eq_true, decide_eq_true_eq]
      exact ⟨hm.1, ih (by omega) (fun w hw => absent w (List.mem_cons_of_mem _ hw)) hm.2⟩

/-- A write keeps the canonical form. -/
theorem Memory.wf_write {m : Memory} (hm : m.wf = true) (a : Word) (v : Byte) :
    (m.write a v).wf = true := by
  unfold Memory.wf Memory.write at *
  split
  · exact Memory.wfFrom_erase _ hm
  · next h =>
    exact Memory.wfFrom_insert (Nat.zero_le _) a.isLt h (Memory.not_mem_erase _ _)
      (Memory.wfFrom_erase _ hm)

theorem Memory.wf_nil : Memory.wf [] = true := rfl

end Sys2Proof.Machine
end

