-- ==== Sys2Proof/Laws/Operands.lean ====
section
/-! SUPPORT. What the resolver, the operand fetch and the write-back do, once for all modes; provers cite
these instead of unfolding the operations. -/

namespace Sys2Proof.Machine

@[simp] theorem State.resolve_addrAbs (s : State) (o : Operand) :
    (s.resolve o).addrAbs = effectiveAddress o s := by
  cases o <;> rfl

theorem State.resolve_bus (s : State) (o : Operand) :
    (s.resolve o).bus = s.bus ++ (pointerAddrs o s).map (fun a => .read a (s.mem.read a)) := by
  cases o <;> simp [State.resolve, State.logReads, pointerAddrs]

@[simp] theorem State.resolve_imp_fetched (s : State) : (s.resolve .imp).fetched = s.a := rfl

@[simp] theorem State.resolve_rel_addrRel (s : State) (r : Byte) :
    (s.resolve (.rel r)).addrRel = sext16 r := rfl

/-- `fetch()` after the resolver yields the operand of the state the resolver started from. -/
@[simp] theorem State.fetched_fetchOperand_resolve (s : State) (o : Operand) :
    ((s.resolve o).fetchOperand o).fetched = operandValue o s := by
  cases o <;> rfl

@[simp] theorem State.fetchOperand_addrAbs_resolve (s : State) (o : Operand) :
    ((s.resolve o).fetchOperand o).addrAbs = effectiveAddress o s := by
  cases o <;> rfl

/-- The one operand read: none for IMP, else the resolved address (40_addressing_modes.md R113). -/
theorem State.fetchOperand_resolve_bus (s : State) (o : Operand) (h : o ≠ .imp) :
    ((s.resolve o).fetchOperand o).bus =
      (s.resolve o).bus ++ [.read (effectiveAddress o s) (operandValue o s)] := by
  cases o <;> first | exact absurd rfl h | rfl

@[simp] theorem State.writeback_imp (s : State) (v : Byte) : s.writeback .imp v = s.setA v := rfl

theorem State.writeback_mem (s : State) (o : Operand) (v : Byte) (h : o ≠ .imp) :
    s.writeback o v = s.busWrite s.addrAbs v := by
  cases o <;> first | exact absurd rfl h | rfl

@[simp] theorem State.busWrite_mem (s : State) (a : Word) (v : Byte) :
    (s.busWrite a v).mem = s.mem.write a v := rfl

@[simp] theorem State.busWrite_bus (s : State) (a : Word) (v : Byte) :
    (s.busWrite a v).bus = s.bus ++ [.write a v] := rfl

@[simp] theorem State.logRead_bus (s : State) (a : Word) :
    (s.logRead a).bus = s.bus ++ [.read a (s.mem.read a)] := rfl

theorem State.addExtra_cycles (s : State) (both : Bool) :
    (s.addExtra both).cycles = s.cycles + (if both then 1 else 0) := by
  cases both <;> simp [State.addExtra]

@[simp] theorem State.addExtra_false (s : State) : s.addExtra false = s := rfl

@[simp] theorem pageCross_imp (s : State) : pageCross .imp s = false := rfl

@[simp] theorem pageCross_rel (r : Byte) (s : State) : pageCross (.rel r) s = false := rfl

@[simp] theorem pageCross_abs (w : Word) (s : State) : pageCross (.abs w) s = false := rfl

end Sys2Proof.Machine
end

