-- ==== Sys2Proof/Laws/Stack.lean ====
section
/-! SUPPORT. The stack and the interrupt entry: the stack addresses near SP are distinct, page one holds
them all, and what pushes and pulls leave. -/

namespace Sys2Proof.Machine

theorem stackAddr_toNat (b : Byte) : (stackAddr b).toNat = 256 + b.toNat := by
  have := b.isLt
  have hz := zext16_toNat b
  rw [stackAddr, BitVec.toNat_add, hz]
  show (256 + b.toNat) % 65536 = _
  omega

@[simp] theorem stackAddr_inj (b c : Byte) : stackAddr b = stackAddr c ↔ b = c := by
  constructor
  · intro h
    have := congrArg BitVec.toNat h
    rw [stackAddr_toNat, stackAddr_toNat] at this
    exact BitVec.eq_of_toNat_eq (by omega)
  · exact congrArg stackAddr

/-- No stack address is in the vector area. -/
theorem stackAddr_ne {w : Word} (h : 512 ≤ w.toNat) (b : Byte) : w ≠ stackAddr b := by
  intro e
  have := b.isLt
  rw [e, stackAddr_toNat] at h
  omega

@[simp] theorem State.push_sp (s : State) (v : Byte) : (s.push v).sp = s.sp - 1 := rfl
@[simp] theorem State.push_mem (s : State) (v : Byte) :
    (s.push v).mem = s.mem.write (stackAddr s.sp) v := rfl
@[simp] theorem State.push_bus (s : State) (v : Byte) :
    (s.push v).bus = s.bus ++ [.write (stackAddr s.sp) v] := rfl
@[simp] theorem State.pull_sp (s : State) : s.pull.sp = s.sp + 1 := rfl
@[simp] theorem State.pull_bus (s : State) :
    s.pull.bus = s.bus ++ [.read (stackAddr (s.sp + 1)) s.top] := rfl

@[simp] theorem sub_two (b : Byte) : b - 1#8 - 1#8 = b - 2#8 := by revert b; decide +kernel
@[simp] theorem sub_three (b : Byte) : b - 2#8 - 1#8 = b - 3#8 := by revert b; decide +kernel
@[simp] theorem add_two (b : Byte) : b + 1#8 + 1#8 = b + 2#8 := by revert b; decide +kernel
@[simp] theorem add_three (b : Byte) : b + 2#8 + 1#8 = b + 3#8 := by revert b; decide +kernel
@[simp] theorem add_one_two (b : Byte) : b + 1#8 + 2#8 = b + 3#8 := by revert b; decide +kernel

/-- SP minus small counts: all distinct. -/
theorem sp_distinct (b : Byte) :
    b - 1 ≠ b ∧ b - 2 ≠ b ∧ b - 2 ≠ b - 1 ∧ b - 3 ≠ b ∧ b - 3 ≠ b - 1 ∧ b - 3 ≠ b - 2 := by
  revert b; decide +kernel

/-- Adding after subtracting. -/
theorem sp_cancel (b : Byte) :
    b - 1 + 1 = b ∧ b - 2 + 1 = b - 1 ∧ b - 2 + 2 = b ∧
      b - 3 + 1 = b - 2 ∧ b - 3 + 2 = b - 1 ∧ b - 3 + 3 = b := by
  revert b; decide +kernel

@[simp] theorem State.pushWord_sp (s : State) (w : Word) : (s.pushWord w).sp = s.sp - 2 := by
  simp [State.pushWord]

theorem State.pushWord_mem (s : State) (w : Word) :
    (s.pushWord w).mem =
      (s.mem.write (stackAddr s.sp) (hiByte w)).write (stackAddr (s.sp - 1)) (loByte w) := rfl

@[simp] theorem State.pullWord_sp (s : State) : s.pullWord.sp = s.sp + 2 := by
  simp [State.pullWord]

theorem State.topWord_eq (s : State) :
    s.topWord = mkWord (s.mem.read (stackAddr (s.sp + 2))) (s.mem.read (stackAddr (s.sp + 1))) := by
  simp [State.topWord, State.top]

@[simp] theorem State.loadVector_pc (s : State) (v : Word) :
    (s.loadVector v).pc = s.mem.readVector v := rfl

/-- The memory an interrupt entry leaves: the three pushes. -/
theorem State.enterHandler_mem (s : State) (vector : Word) (before after : Byte → Byte) :
    (s.enterHandler vector before after).mem =
      ((s.mem.write (stackAddr s.sp) (hiByte s.pc)).write (stackAddr (s.sp - 1))
        (loByte s.pc)).write (stackAddr (s.sp - 2)) (before s.p) := by
  simp [State.enterHandler, State.pushWord_mem]

@[simp] theorem State.enterHandler_sp (s : State) (vector : Word) (before after : Byte → Byte) :
    (s.enterHandler vector before after).sp = s.sp - 3 := by
  simp [State.enterHandler]

@[simp] theorem State.enterHandler_p (s : State) (vector : Word) (before after : Byte → Byte) :
    (s.enterHandler vector before after).p = after (before s.p) := by
  simp [State.enterHandler]

/-- A vector that no stack address overlaps is read as it was before the pushes. -/
theorem State.enterHandler_pc (s : State) (vector : Word) (before after : Byte → Byte)
    (low : 512 ≤ vector.toNat) (high : 512 ≤ (vector + 1).toNat) :
    (s.enterHandler vector before after).pc = s.mem.readVector vector := by
  have h := stackAddr_ne high
  have l := stackAddr_ne low
  simp only [BitVec.ofNat_eq_ofNat] at h
  simp [State.enterHandler, State.pushWord_mem, Memory.readVector, Memory.read_write, l, h]

/-- Which bytes an interrupt entry writes, by address. -/
theorem State.enterHandler_read (s : State) (vector : Word) (before after : Byte → Byte) (a : Word) :
    (s.enterHandler vector before after).mem.read a =
      if a = stackAddr (s.sp - 2) then before s.p
      else if a = stackAddr (s.sp - 1) then loByte s.pc
      else if a = stackAddr s.sp then hiByte s.pc else s.mem.read a := by
  rw [State.enterHandler_mem]
  simp only [Memory.read_write]

@[simp] theorem State.returnFromHandler_sp (s : State) : s.returnFromHandler.sp = s.sp + 3 := by
  simp [State.returnFromHandler]

@[simp] theorem State.returnFromHandler_p (s : State) :
    s.returnFromHandler.p = putFlag .u false (putFlag .b false s.top) := by
  simp [State.returnFromHandler, State.setFlag]

theorem State.returnFromHandler_pc (s : State) :
    s.returnFromHandler.pc =
      mkWord (s.mem.read (stackAddr (s.sp + 3))) (s.mem.read (stackAddr (s.sp + 2))) := by
  simp [State.returnFromHandler, State.topWord_eq]

@[simp] theorem State.enterHandler_flag (s : State) (vector : Word) (before after : Byte → Byte)
    (f : Flag) : (s.enterHandler vector before after).flag f = getFlag f (after (before s.p)) := by
  simp [State.flag]

/-- The bus transactions of a 16-bit push, of a 16-bit pull and of a vector. -/
theorem State.pushWord_bus (s : State) (w : Word) :
    (s.pushWord w).bus = s.bus ++ [.write (stackAddr s.sp) (hiByte w),
      .write (stackAddr (s.sp - 1)) (loByte w)] := by
  simp [State.pushWord]

theorem State.pullWord_bus (s : State) :
    s.pullWord.bus = s.bus ++ [.read (stackAddr (s.sp + 1)) (s.mem.read (stackAddr (s.sp + 1))),
      .read (stackAddr (s.sp + 2)) (s.mem.read (stackAddr (s.sp + 2)))] := by
  simp [State.pullWord, State.top]

theorem State.loadVector_bus (s : State) (v : Word) :
    (s.loadVector v).bus =
      s.bus ++ [.read v (s.mem.read v), .read (v + 1) (s.mem.read (v + 1))] := by
  simp [State.loadVector, State.logRead]

/-- The bus transactions of an interrupt entry: the three pushes, then the vector, which no stack address
overlaps, low byte first. -/
theorem State.enterHandler_bus (s : State) (vector : Word) (before after : Byte → Byte)
    (low : 512 ≤ vector.toNat) (high : 512 ≤ (vector + 1).toNat) :
    (s.enterHandler vector before after).bus =
      s.bus ++ [.write (stackAddr s.sp) (hiByte s.pc), .write (stackAddr (s.sp - 1)) (loByte s.pc),
        .write (stackAddr (s.sp - 2)) (before s.p), .read vector (s.mem.read vector),
        .read (vector + 1) (s.mem.read (vector + 1))] := by
  have h := stackAddr_ne high
  have l := stackAddr_ne low
  simp only [BitVec.ofNat_eq_ofNat] at h
  simp [State.enterHandler, State.loadVector_bus, State.pushWord_bus, State.pushWord_mem,
    Memory.read_write, l, h]

/-- The bus transactions of a return from a handler: P, then PC low and high. -/
theorem State.returnFromHandler_bus (s : State) :
    s.returnFromHandler.bus =
      s.bus ++ [.read (stackAddr (s.sp + 1)) (s.mem.read (stackAddr (s.sp + 1))),
        .read (stackAddr (s.sp + 2)) (s.mem.read (stackAddr (s.sp + 2))),
        .read (stackAddr (s.sp + 3)) (s.mem.read (stackAddr (s.sp + 3)))] := by
  simp [State.returnFromHandler, State.pullWord_bus, State.top]

end Sys2Proof.Machine
end

