-- ==== Sys2Proof/Laws/Clock.lean ====
section
/-! SUPPORT. The laws of the clock machine: what reading the operand bytes and beginning an instruction
leave in each field, and one step for each event. -/

namespace Sys2Proof.Machine

@[simp] theorem State.readOperandBytes_a (s : State) (m : Mode) :
    (s.readOperandBytes m).a = s.a := by
  cases m <;> rfl
@[simp] theorem State.readOperandBytes_x (s : State) (m : Mode) :
    (s.readOperandBytes m).x = s.x := by
  cases m <;> rfl
@[simp] theorem State.readOperandBytes_y (s : State) (m : Mode) :
    (s.readOperandBytes m).y = s.y := by
  cases m <;> rfl
@[simp] theorem State.readOperandBytes_sp (s : State) (m : Mode) :
    (s.readOperandBytes m).sp = s.sp := by
  cases m <;> rfl
@[simp] theorem State.readOperandBytes_p (s : State) (m : Mode) :
    (s.readOperandBytes m).p = s.p := by
  cases m <;> rfl
@[simp] theorem State.readOperandBytes_fetched (s : State) (m : Mode) :
    (s.readOperandBytes m).fetched = s.fetched := by
  cases m <;> rfl
@[simp] theorem State.readOperandBytes_addrAbs (s : State) (m : Mode) :
    (s.readOperandBytes m).addrAbs = s.addrAbs := by
  cases m <;> rfl
@[simp] theorem State.readOperandBytes_addrRel (s : State) (m : Mode) :
    (s.readOperandBytes m).addrRel = s.addrRel := by
  cases m <;> rfl
@[simp] theorem State.readOperandBytes_opcode (s : State) (m : Mode) :
    (s.readOperandBytes m).opcode = s.opcode := by
  cases m <;> rfl
@[simp] theorem State.readOperandBytes_mode (s : State) (m : Mode) :
    (s.readOperandBytes m).mode = s.mode := by
  cases m <;> rfl
@[simp] theorem State.readOperandBytes_cycles (s : State) (m : Mode) :
    (s.readOperandBytes m).cycles = s.cycles := by
  cases m <;> rfl
@[simp] theorem State.readOperandBytes_mem (s : State) (m : Mode) :
    (s.readOperandBytes m).mem = s.mem := by
  cases m <;> rfl
@[simp] theorem State.readOperandBytes_events (s : State) (m : Mode) :
    (s.readOperandBytes m).events = s.events := by
  cases m <;> rfl

/-- PC is behind the operand bytes. -/
@[simp] theorem State.readOperandBytes_pc (s : State) (m : Mode) :
    (s.readOperandBytes m).pc = s.pc + BitVec.ofNat 16 (operandBytes m) := by
  cases m <;> simp [State.readOperandBytes, operandBytes]

/-- The operand bytes are read in order; IMM's byte is read by `fetch()` (40_addressing_modes.md R102). -/
theorem State.readOperandBytes_bus (s : State) (m : Mode) :
    (s.readOperandBytes m).bus = s.bus ++
      (if m = .imm then []
       else ([.read s.pc (s.mem.read s.pc), .read (s.pc + 1) (s.mem.read (s.pc + 1))] :
        List Access).take (operandBytes m)) := by
  cases m <;> simp [State.readOperandBytes, operandBytes, State.logRead]

@[simp] theorem State.beginInstr_a (c : Config) (s : State) : (s.beginInstr c).a = s.a := by
  simp [State.beginInstr, State.clearTransient]
@[simp] theorem State.beginInstr_x (c : Config) (s : State) : (s.beginInstr c).x = s.x := by
  simp [State.beginInstr, State.clearTransient]
@[simp] theorem State.beginInstr_y (c : Config) (s : State) : (s.beginInstr c).y = s.y := by
  simp [State.beginInstr, State.clearTransient]
@[simp] theorem State.beginInstr_sp (c : Config) (s : State) : (s.beginInstr c).sp = s.sp := by
  simp [State.beginInstr, State.clearTransient]
@[simp] theorem State.beginInstr_p (c : Config) (s : State) : (s.beginInstr c).p = s.p := by
  simp [State.beginInstr, State.clearTransient]
@[simp] theorem State.beginInstr_mem (c : Config) (s : State) : (s.beginInstr c).mem = s.mem := by
  simp [State.beginInstr, State.clearTransient]
@[simp] theorem State.beginInstr_events (c : Config) (s : State) : (s.beginInstr c).events = s.events := by
  simp [State.beginInstr, State.clearTransient]
@[simp] theorem State.beginInstr_fetched (c : Config) (s : State) :
    (s.beginInstr c).fetched = 0 := by
  simp [State.beginInstr, State.clearTransient]
@[simp] theorem State.beginInstr_addrAbs (c : Config) (s : State) :
    (s.beginInstr c).addrAbs = 0 := by
  simp [State.beginInstr, State.clearTransient]
@[simp] theorem State.beginInstr_addrRel (c : Config) (s : State) :
    (s.beginInstr c).addrRel = 0 := by
  simp [State.beginInstr, State.clearTransient]
@[simp] theorem State.beginInstr_opcode (c : Config) (s : State) :
    (s.beginInstr c).opcode = s.mem.read s.pc := by
  simp [State.beginInstr, State.clearTransient]
@[simp] theorem State.beginInstr_mode (c : Config) (s : State) :
    (s.beginInstr c).mode = (describe c (s.mem.read s.pc)).mode := by
  simp [State.beginInstr, State.clearTransient]
@[simp] theorem State.beginInstr_cycles (c : Config) (s : State) :
    (s.beginInstr c).cycles = (describe c (s.mem.read s.pc)).base := by
  simp [State.beginInstr, State.clearTransient]

theorem State.beginInstr_pc (c : Config) (s : State) :
    (s.beginInstr c).pc =
      s.pc + 1 + BitVec.ofNat 16 (operandBytes (describe c (s.mem.read s.pc)).mode) := by
  simp [State.beginInstr]

theorem State.beginInstr_bus (c : Config) (s : State) :
    (s.beginInstr c).bus = s.bus ++ [.read s.pc (s.mem.read s.pc)] ++
      (if (describe c (s.mem.read s.pc)).mode = .imm then []
       else ([.read (s.pc + 1) (s.mem.read (s.pc + 1)),
        .read (s.pc + 1 + 1) (s.mem.read (s.pc + 1 + 1))] : List Access).take
          (operandBytes (describe c (s.mem.read s.pc)).mode)) := by
  simp [State.beginInstr, State.readOperandBytes_bus, State.clearTransient]

@[simp] theorem State.beginEvent_a (s : State) : s.beginEvent.a = s.a := rfl
@[simp] theorem State.beginEvent_x (s : State) : s.beginEvent.x = s.x := rfl
@[simp] theorem State.beginEvent_y (s : State) : s.beginEvent.y = s.y := rfl
@[simp] theorem State.beginEvent_sp (s : State) : s.beginEvent.sp = s.sp := rfl
@[simp] theorem State.beginEvent_pc (s : State) : s.beginEvent.pc = s.pc := rfl
@[simp] theorem State.beginEvent_p (s : State) : s.beginEvent.p = s.p := rfl
@[simp] theorem State.beginEvent_fetched (s : State) : s.beginEvent.fetched = s.fetched := rfl
@[simp] theorem State.beginEvent_addrAbs (s : State) : s.beginEvent.addrAbs = s.addrAbs := rfl
@[simp] theorem State.beginEvent_addrRel (s : State) : s.beginEvent.addrRel = s.addrRel := rfl
@[simp] theorem State.beginEvent_opcode (s : State) : s.beginEvent.opcode = s.opcode := rfl
@[simp] theorem State.beginEvent_mode (s : State) : s.beginEvent.mode = s.mode := rfl
@[simp] theorem State.beginEvent_cycles (s : State) : s.beginEvent.cycles = s.cycles := rfl
@[simp] theorem State.beginEvent_mem (s : State) : s.beginEvent.mem = s.mem := rfl
@[simp] theorem State.beginEvent_events (s : State) : s.beginEvent.events = s.events.tail := rfl
@[simp] theorem State.beginEvent_bus (s : State) : s.beginEvent.bus = [] := rfl
@[simp] theorem State.beginEvent_flag (s : State) (f : Flag) : s.beginEvent.flag f = s.flag f := rfl

/-- A step that is a `Reset`. -/
theorem stepWith_reset (c : Config) {s : State} {rest : List Event} (h : s.events = .reset :: rest) :
    stepWith c s = .next (((s.setEvents rest).setBus []).takeReset c) := by
  simp [stepWith, nextEvent, h, deliver, State.beginEvent]

/-- A step that is an `Irq`. -/
theorem stepWith_irq (c : Config) {s : State} {rest : List Event} (h : s.events = .irq :: rest) :
    stepWith c s = .next ((s.setEvents rest).setBus []).takeIrq := by
  simp [stepWith, nextEvent, h, deliver, State.beginEvent]

/-- A step that is an `Nmi`. -/
theorem stepWith_nmi (c : Config) {s : State} {rest : List Event} (h : s.events = .nmi :: rest) :
    stepWith c s = .next ((s.setEvents rest).setBus []).takeNmi := by
  simp [stepWith, nextEvent, h, deliver, State.beginEvent]

/-- A step that is a `Clock` inside an instruction. -/
theorem stepWith_countDown (c : Config) {s : State} (h : nextEvent s = .clock) (hc : s.cycles ≠ 0) :
    stepWith c s = .next s.beginEvent.countDown := by
  have : s.beginEvent.cycles ≠ 0 := hc
  simp only [stepWith, h, deliver, clockEvent, if_neg this]

/-- A step that is a `Clock` at an instruction boundary. -/
theorem stepWith_begin (c : Config) {s : State} (h : nextEvent s = .clock) (hc : s.cycles = 0) :
    stepWith c s =
      finishClock (exec (instrAt c s.beginEvent) (s.beginEvent.beginInstr c)) := by
  have : s.beginEvent.cycles = 0 := hc
  simp only [stepWith, h, deliver, clockEvent, if_pos this]

@[simp] theorem takeIrq_masked {s : State} (h : s.flag .i = true) : s.takeIrq = s := by
  simp [State.takeIrq, h]

theorem takeIrq_open {s : State} (h : s.flag .i = false) :
    s.takeIrq = s.takeInterrupt irqVector 7 := by
  simp [State.takeIrq, h]

end Sys2Proof.Machine
end

