-- ==== Sys2Proof/Laws/Decode.lean ====
section
/-! SUPPORT. The laws of the opcode table, the decoder and the encoder: what `describe` can answer, and
what `decodeBytes`, `decode` and `encode` do in terms of it. -/

namespace Sys2Proof

open Sys2Proof.Machine

/-- All 57 operations. -/
def allMnemonics : List Mnemonic :=
  [Mnemonic.adc, .sbc, .and, .ora, .eor, .bit, .asl, .lsr, .rol, .ror] ++
  [Mnemonic.cmp, .cpx, .cpy, .inc, .dec, .inx, .iny, .dex, .dey, .lda] ++
  [Mnemonic.ldx, .ldy, .sta, .stx, .sty, .tax, .tay, .txa, .tya, .tsx] ++
  [Mnemonic.txs, .pha, .pla, .php, .plp, .jmp, .jsr, .rts, .bcc, .bcs] ++
  [Mnemonic.beq, .bne, .bpl, .bmi, .bvc, .bvs, .brk, .rti, .clc, .sec] ++
  [Mnemonic.cli, .sei, .cld, .sed, .clv, .nop, .und]

theorem mem_allMnemonics (m : Mnemonic) : m ∈ allMnemonics := by cases m <;> decide

/-- Every mode an operation's rule lists has an opcode in the table of 30_encoding.md R91. -/
theorem opcodeOf_listed_all :
    ∀ op ∈ allMnemonics, ∀ m ∈ op.modes, (opcodeOf op m).isSome = true := by decide +kernel

theorem opcodeOf_listed {op : Mnemonic} {m : Mode} (h : m ∈ op.modes) :
    ∃ b, opcodeOf op m = some b :=
  Option.isSome_iff_exists.mp (opcodeOf_listed_all op (mem_allMnemonics op) m h)

theorem encodeOperand_length (o : Operand) : (encodeOperand o).length = operandBytes o.mode := by
  cases o <;> rfl

/-- The bytes of an instruction other than UND are looked up in the table. -/
theorem encoded_length {i : Instr} (h : i.mnemonic.modes.contains i.operand.mode = true)
    (looked : encode i = (match opcodeOf i.mnemonic i.operand.mode with
      | some op => op :: encodeOperand i.operand
      | none => [])) : (encode i).length = i.length := by
  obtain ⟨b, hb⟩ := opcodeOf_listed (List.contains_iff_mem.mp h)
  rw [looked, hb]
  show (b :: encodeOperand i.operand).length = 1 + operandBytes i.operand.mode
  rw [List.length_cons, encodeOperand_length, Nat.add_comm]

/-- The rows of the table that no parameter touches: each has an opcode of its own, not 0, and a mode
its operation lists. -/
theorem fixedRows_facts : ∀ r ∈ fixedRows,
    r.opcode ≠ 0 ∧ r.operation.modes.contains r.mode = true ∧
    opcodeOf r.operation r.mode = some r.opcode ∧ r.operation ≠ .und ∧
    fixedRows.find? (fun q => q.opcode == r.opcode) = some r := by
  decide +kernel

/-- The list of 30_encoding.md R93 is the complement of the table. -/
theorem undefined_iff : ∀ op : Byte, undefinedOpcodes.contains op =
    ((fixedRows.find? (fun q => q.opcode == op)).isNone && op != 0) := by
  decide +kernel

theorem opcodeOf_brk : opcodeOf .brk .imp = some 0 := by decide +kernel

theorem describe_of_ne_zero (c : Config) {op : Byte} (h : op ≠ 0) :
    describe c op = (match fixedRows.find? (fun q => q.opcode == op) with
      | some r => r
      | none => ⟨op, .und, c.undefMode op, c.undefCycles op⟩) := by
  have e : (documentedRows c).find? (fun q => q.opcode == op) =
      fixedRows.find? (fun q => q.opcode == op) :=
    List.find?_cons_of_neg (by simpa using Ne.symm h)
  exact e ▸ rfl

/-- What the descriptor of a byte can be: a documented row, or the UND row. -/
theorem describe_cases (c : Config) (op : Byte) :
    (op ∉ undefinedOpcodes ∧ describe c op ∈ documentedRows c ∧ (describe c op).opcode = op ∧
      (describe c op).operation ≠ .und ∧
      (describe c op).operation.modes.contains (describe c op).mode = true ∧
      opcodeOf (describe c op).operation (describe c op).mode = some op) ∨
    (op ∈ undefinedOpcodes ∧ describe c op = ⟨op, .und, c.undefMode op, c.undefCycles op⟩) := by
  have hu := undefined_iff op
  by_cases h : op = 0
  · subst h
    exact .inl ⟨by decide, List.mem_cons_self .., rfl, nofun, rfl, opcodeOf_brk⟩
  · rw [describe_of_ne_zero c h]
    cases hf : fixedRows.find? (fun q => q.opcode == op) with
    | none =>
      have hn : (op != 0) = true := by simpa using h
      rw [hf, hn] at hu
      exact .inr ⟨List.contains_iff_mem.mp hu, rfl⟩
    | some r =>
      have hm := List.mem_of_find?_eq_some hf
      have ho : r.opcode = op := by simpa using List.find?_some hf
      obtain ⟨_, h2, h3, h4, _⟩ := fixedRows_facts r hm
      rw [hf] at hu
      have hu' : op ∉ undefinedOpcodes := fun hc => by
        rw [List.contains_iff_mem.mpr hc] at hu
        simp at hu
      exact .inl ⟨hu', List.mem_cons_of_mem _ hm, ho, h4, h2, ho ▸ h3⟩

/-- A documented row is the descriptor of its opcode. -/
theorem describe_row (c : Config) {r : Row} (h : r ∈ documentedRows c) : describe c r.opcode = r := by
  rcases List.mem_cons.mp h with h | h
  · subst h
    rfl
  · obtain ⟨h0, _, _, _, h5⟩ := fixedRows_facts r h
    rw [describe_of_ne_zero c h0, h5]

/-- The opcode the encoder picks has the descriptor it was picked for, at every value of the
parameters. -/
theorem describe_opcodeOf {m : Mnemonic} {md : Mode} {b : Byte} (h : opcodeOf m md = some b)
    (c : Config) : (describe c b).operation = m ∧ (describe c b).mode = md := by
  unfold opcodeOf at h
  obtain ⟨r, hr, rfl⟩ := Option.map_eq_some_iff.mp h
  have hm := List.mem_of_find?_eq_some hr
  have hp : r.operation = m ∧ r.mode = md := by simpa using List.find?_some hr
  rcases List.mem_cons.mp hm with hm | hm
  · subst hm
    exact hp
  · rw [describe_row c (List.mem_cons_of_mem _ hm)]
    exact hp

@[simp] theorem assemble_mode (m : Mode) (b1 b2 : Byte) : (assemble m b1 b2).mode = m := by
  cases m <;> rfl

theorem buildInstr_mnemonic (c : Config) (op : Byte) (m : Mnemonic) (o : Operand) :
    (buildInstr c op m o).mnemonic = m := by
  cases m <;> rfl

theorem buildInstr_operand (c : Config) (op : Byte) (m : Mnemonic) (o : Operand)
    (h : m = .und ∨ m.modes.contains o.mode = true) : (buildInstr c op m o).operand = o := by
  cases m <;> cases o <;>
    simp_all [Mnemonic.modes, Operand.mode, readModes, buildInstr, Instr.operand, operandAddr,
      operandOffset]

theorem decodeBytes_mnemonic (c : Config) (op b1 b2 : Byte) :
    (decodeBytes c op b1 b2).mnemonic = (describe c op).operation :=
  buildInstr_mnemonic ..

/-- The decoded instruction's operand is the one its descriptor's mode makes of the bytes. -/
theorem decodeBytes_operand (c : Config) (op b1 b2 : Byte) :
    (decodeBytes c op b1 b2).operand = assemble (describe c op).mode b1 b2 := by
  apply buildInstr_operand
  rcases describe_cases c op with ⟨_, _, _, _, h, _⟩ | ⟨_, e⟩
  · exact .inr (by rw [assemble_mode]; exact h)
  · exact .inl (by rw [e])

@[simp] theorem decodeBytes_mode (c : Config) (op b1 b2 : Byte) :
    (decodeBytes c op b1 b2).operand.mode = (describe c op).mode := by
  rw [decodeBytes_operand, assemble_mode]

/-- The decoder on a list that begins with three bytes. -/
theorem decode_three (c : Config) (op b1 b2 : Byte) (rest : List Byte) :
    decode c (op :: b1 :: b2 :: rest) =
      .ok (decodeBytes c op b1 b2,
        (op :: b1 :: b2 :: rest).drop (1 + operandBytes (describe c op).mode)) := by
  simp only [decode, decodeBytes]
  generalize describe c op = r
  obtain ⟨_, _, m, _⟩ := r
  cases m <;> rfl

/-- The decoder on an opcode byte followed by the bytes of an operand of its mode. -/
theorem decode_encodeOperand (c : Config) (op : Byte) (o : Operand) (rest : List Byte)
    (h : (describe c op).mode = o.mode) :
    decode c (op :: encodeOperand o ++ rest) =
      .ok (buildInstr c op (describe c op).operation o, rest) := by
  cases o <;>
    simp [decode, h, Operand.mode, operandBytes, encodeOperand, decodeBytes, assemble]

end Sys2Proof
end

