-- ==== Sys2Proof/Laws/Instr.lean ====
section
/-! SUPPORT. The laws of the operations that several meanings of one family share: the branch, the end of
a shift, the store of INC and DEC; the state an operation answers; and that none of the shared operations
reads the cycle counter. -/

namespace Sys2Proof.Machine

@[simp] theorem State.branch_a (s : State) (taken : Bool) : (s.branch taken).a = s.a := by
  cases taken <;> rfl
@[simp] theorem State.branch_x (s : State) (taken : Bool) : (s.branch taken).x = s.x := by
  cases taken <;> rfl
@[simp] theorem State.branch_y (s : State) (taken : Bool) : (s.branch taken).y = s.y := by
  cases taken <;> rfl
@[simp] theorem State.branch_sp (s : State) (taken : Bool) : (s.branch taken).sp = s.sp := by
  cases taken <;> rfl
@[simp] theorem State.branch_p (s : State) (taken : Bool) : (s.branch taken).p = s.p := by
  cases taken <;> rfl
@[simp] theorem State.branch_fetched (s : State) (taken : Bool) : (s.branch taken).fetched = s.fetched := by
  cases taken <;> rfl
@[simp] theorem State.branch_addrRel (s : State) (taken : Bool) : (s.branch taken).addrRel = s.addrRel := by
  cases taken <;> rfl
@[simp] theorem State.branch_opcode (s : State) (taken : Bool) : (s.branch taken).opcode = s.opcode := by
  cases taken <;> rfl
@[simp] theorem State.branch_mode (s : State) (taken : Bool) : (s.branch taken).mode = s.mode := by
  cases taken <;> rfl
@[simp] theorem State.branch_mem (s : State) (taken : Bool) : (s.branch taken).mem = s.mem := by
  cases taken <;> rfl
@[simp] theorem State.branch_events (s : State) (taken : Bool) : (s.branch taken).events = s.events := by
  cases taken <;> rfl
@[simp] theorem State.branch_bus (s : State) (taken : Bool) : (s.branch taken).bus = s.bus := by
  cases taken <;> rfl
@[simp] theorem State.branch_flag (s : State) (taken : Bool) (f : Flag) :
    (s.branch taken).flag f = s.flag f := by
  cases taken <;> rfl
@[simp] theorem State.branch_false (s : State) : s.branch false = s := rfl

/-- A taken branch: PC and `addr_abs` at the target. -/
@[simp] theorem State.branch_true_pc (s : State) : (s.branch true).pc = s.pc + s.addrRel := rfl

/-- A taken branch: one cycle more, two when the target is on another page. -/
theorem State.branch_true_cycles (s : State) :
    (s.branch true).cycles =
      s.cycles + (if hiByte (s.pc + s.addrRel) != hiByte s.pc then 2 else 1) := rfl

@[simp] theorem State.shiftTo_x (s : State) (o : Operand) (out : Bool) (r : Byte) :
    (s.shiftTo o out r).x = s.x := by
  simp [State.shiftTo]
@[simp] theorem State.shiftTo_y (s : State) (o : Operand) (out : Bool) (r : Byte) :
    (s.shiftTo o out r).y = s.y := by
  simp [State.shiftTo]
@[simp] theorem State.shiftTo_sp (s : State) (o : Operand) (out : Bool) (r : Byte) :
    (s.shiftTo o out r).sp = s.sp := by
  simp [State.shiftTo]
@[simp] theorem State.shiftTo_pc (s : State) (o : Operand) (out : Bool) (r : Byte) :
    (s.shiftTo o out r).pc = s.pc := by
  simp [State.shiftTo]
@[simp] theorem State.shiftTo_fetched (s : State) (o : Operand) (out : Bool) (r : Byte) :
    (s.shiftTo o out r).fetched = s.fetched := by
  simp [State.shiftTo]
@[simp] theorem State.shiftTo_addrAbs (s : State) (o : Operand) (out : Bool) (r : Byte) :
    (s.shiftTo o out r).addrAbs = s.addrAbs := by
  simp [State.shiftTo]
@[simp] theorem State.shiftTo_addrRel (s : State) (o : Operand) (out : Bool) (r : Byte) :
    (s.shiftTo o out r).addrRel = s.addrRel := by
  simp [State.shiftTo]
@[simp] theorem State.shiftTo_opcode (s : State) (o : Operand) (out : Bool) (r : Byte) :
    (s.shiftTo o out r).opcode = s.opcode := by
  simp [State.shiftTo]
@[simp] theorem State.shiftTo_mode (s : State) (o : Operand) (out : Bool) (r : Byte) :
    (s.shiftTo o out r).mode = s.mode := by
  simp [State.shiftTo]
@[simp] theorem State.shiftTo_cycles (s : State) (o : Operand) (out : Bool) (r : Byte) :
    (s.shiftTo o out r).cycles = s.cycles := by
  simp [State.shiftTo]
@[simp] theorem State.shiftTo_events (s : State) (o : Operand) (out : Bool) (r : Byte) :
    (s.shiftTo o out r).events = s.events := by
  simp [State.shiftTo]
@[simp] theorem State.shiftTo_flag (s : State) (o : Operand) (out : Bool) (r : Byte) (f : Flag) :
    (s.shiftTo o out r).flag f = (s.shiftFlags out r).flag f := by
  simp [State.shiftTo]

/-- The state an operation answers. -/
theorem operate_eq (sig : Bool) (o : Operand) (s : State) (op : State → State) :
    operate sig o s op = .next ((op (s.resolve o)).addExtra (pageCross o s && sig)) := rfl

/-- The state an operation with an operand answers. -/
theorem operateOn_eq (sig : Bool) (o : Operand) (s : State) (op : State → State) :
    operateOn sig o s op =
      .next ((op ((s.resolve o).fetchOperand o)).addExtra (pageCross o s && sig)) := rfl

/-! The shared operations do not read the counter: each commutes with a write of it. -/

theorem State.resolve_setCycles (s : State) (o : Operand) (n : Byte) :
    (s.setCycles n).resolve o = (s.resolve o).setCycles n := by
  cases o <;> rfl

theorem pageCross_setCycles (o : Operand) (s : State) (n : Byte) :
    pageCross o (s.setCycles n) = pageCross o s := by
  cases o <;> rfl

theorem State.fetchOperand_setCycles (s : State) (o : Operand) (n : Byte) :
    (s.setCycles n).fetchOperand o = (s.fetchOperand o).setCycles n := by
  cases o <;> rfl

theorem State.shiftTo_setCycles (s : State) (o : Operand) (out : Bool) (r n : Byte) :
    (s.setCycles n).shiftTo o out r = (s.shiftTo o out r).setCycles n := by
  cases o <;> rfl

theorem State.enterHandler_setCycles (s : State) (vector : Word) (before after : Byte → Byte)
    (n : Byte) : (s.setCycles n).enterHandler vector before after =
      (s.enterHandler vector before after).setCycles n := by
  simp only [State.enterHandler, State.pushWord, State.push, State.busWrite, State.loadVector,
    State.logRead, State.setBus, State.setMem, State.setPc, State.setP, State.setSp, State.setCycles]

theorem State.returnFromHandler_setCycles (s : State) (n : Byte) :
    (s.setCycles n).returnFromHandler = s.returnFromHandler.setCycles n := by
  simp only [State.returnFromHandler, State.pullWord, State.pull, State.topWord, State.top,
    State.logRead, State.setBus, State.setPc, State.setP, State.setSp, State.setFlag,
    State.setCycles]

/-- The branch and the extra cycle add to the counter without reading what it was. -/
theorem State.branch_setCycles (s : State) (taken : Bool) (n : Byte) :
    (s.setCycles n).branch taken =
      (s.branch taken).setCycles ((s.branch taken).cycles + (n - s.cycles)) := by
  have shift : ∀ d x y : Byte, y + d + (x - y) = x + d := by
    intro d x y; rw [BitVec.sub_eq_add_neg]; ac_nf; simp
  cases taken
  · rw [State.branch_false, State.branch_false]
    have := shift 0 n s.cycles
    simp only [BitVec.add_zero, BitVec.ofNat_eq_ofNat] at this
    rw [this]
  · rw [State.branch_true_cycles, shift]
    rfl

theorem State.addExtra_setCycles (s : State) (both : Bool) (n : Byte) :
    (s.setCycles n).addExtra both =
      (s.addExtra both).setCycles (n + (if both then 1 else 0)) := by
  cases both
  · show s.setCycles n = s.setCycles (n + 0)
    simp
  · rfl

end Sys2Proof.Machine
end

