-- ==== Sys2Proof/Laws/PerInstr.lean ====
section
/-! SUPPORT. A statement for every instruction as syntax: a well-formed instruction is encoded in exactly
as many bytes as its addressing mode says (30_encoding.md R80, R81). -/

namespace Sys2Proof

/-- A well-formed instruction's bytes are as many as its mode says. -/
def Laws.EncodedLength.Statement (i : Instr) : Prop :=
  ∀ c : Config, i.wellFormed c = true → (encode i).length = i.length

namespace Laws.EncodedLength

theorem adc (o : Operand) : Statement (.adc o) := fun _ h => encoded_length h rfl

theorem sbc (o : Operand) : Statement (.sbc o) := fun _ h => encoded_length h rfl

theorem and (o : Operand) : Statement (.and o) := fun _ h => encoded_length h rfl

theorem ora (o : Operand) : Statement (.ora o) := fun _ h => encoded_length h rfl

theorem eor (o : Operand) : Statement (.eor o) := fun _ h => encoded_length h rfl

theorem bit (o : Operand) : Statement (.bit o) := fun _ h => encoded_length h rfl

theorem asl (o : Operand) : Statement (.asl o) := fun _ h => encoded_length h rfl

theorem lsr (o : Operand) : Statement (.lsr o) := fun _ h => encoded_length h rfl

theorem rol (o : Operand) : Statement (.rol o) := fun _ h => encoded_length h rfl

theorem ror (o : Operand) : Statement (.ror o) := fun _ h => encoded_length h rfl

theorem cmp (o : Operand) : Statement (.cmp o) := fun _ h => encoded_length h rfl

theorem cpx (o : Operand) : Statement (.cpx o) := fun _ h => encoded_length h rfl

theorem cpy (o : Operand) : Statement (.cpy o) := fun _ h => encoded_length h rfl

theorem inc (o : Operand) : Statement (.inc o) := fun _ h => encoded_length h rfl

theorem dec (o : Operand) : Statement (.dec o) := fun _ h => encoded_length h rfl

theorem inx : Statement (.inx) := fun _ h => encoded_length h rfl

theorem iny : Statement (.iny) := fun _ h => encoded_length h rfl

theorem dex : Statement (.dex) := fun _ h => encoded_length h rfl

theorem dey : Statement (.dey) := fun _ h => encoded_length h rfl

theorem lda (o : Operand) : Statement (.lda o) := fun _ h => encoded_length h rfl

theorem ldx (o : Operand) : Statement (.ldx o) := fun _ h => encoded_length h rfl

theorem ldy (o : Operand) : Statement (.ldy o) := fun _ h => encoded_length h rfl

theorem sta (o : Operand) : Statement (.sta o) := fun _ h => encoded_length h rfl

theorem stx (o : Operand) : Statement (.stx o) := fun _ h => encoded_length h rfl

theorem sty (o : Operand) : Statement (.sty o) := fun _ h => encoded_length h rfl

theorem tax : Statement (.tax) := fun _ h => encoded_length h rfl

theorem tay : Statement (.tay) := fun _ h => encoded_length h rfl

theorem txa : Statement (.txa) := fun _ h => encoded_length h rfl

theorem tya : Statement (.tya) := fun _ h => encoded_length h rfl

theorem tsx : Statement (.tsx) := fun _ h => encoded_length h rfl

theorem txs : Statement (.txs) := fun _ h => encoded_length h rfl

theorem pha : Statement (.pha) := fun _ h => encoded_length h rfl

theorem pla : Statement (.pla) := fun _ h => encoded_length h rfl

theorem php : Statement (.php) := fun _ h => encoded_length h rfl

theorem plp : Statement (.plp) := fun _ h => encoded_length h rfl

theorem jmp (o : Operand) : Statement (.jmp o) := fun _ h => encoded_length h rfl

theorem jsr (target : Word) : Statement (.jsr target) := fun _ h => encoded_length h rfl

theorem rts : Statement (.rts) := fun _ h => encoded_length h rfl

theorem bcc (rel8 : Byte) : Statement (.bcc rel8) := fun _ h => encoded_length h rfl

theorem bcs (rel8 : Byte) : Statement (.bcs rel8) := fun _ h => encoded_length h rfl

theorem beq (rel8 : Byte) : Statement (.beq rel8) := fun _ h => encoded_length h rfl

theorem bne (rel8 : Byte) : Statement (.bne rel8) := fun _ h => encoded_length h rfl

theorem bpl (rel8 : Byte) : Statement (.bpl rel8) := fun _ h => encoded_length h rfl

theorem bmi (rel8 : Byte) : Statement (.bmi rel8) := fun _ h => encoded_length h rfl

theorem bvc (rel8 : Byte) : Statement (.bvc rel8) := fun _ h => encoded_length h rfl

theorem bvs (rel8 : Byte) : Statement (.bvs rel8) := fun _ h => encoded_length h rfl

theorem brk : Statement (.brk) := fun _ h => encoded_length h rfl

theorem rti : Statement (.rti) := fun _ h => encoded_length h rfl

theorem clc : Statement (.clc) := fun _ h => encoded_length h rfl

theorem sec : Statement (.sec) := fun _ h => encoded_length h rfl

theorem cli : Statement (.cli) := fun _ h => encoded_length h rfl

theorem sei : Statement (.sei) := fun _ h => encoded_length h rfl

theorem cld : Statement (.cld) := fun _ h => encoded_length h rfl

theorem sed : Statement (.sed) := fun _ h => encoded_length h rfl

theorem clv : Statement (.clv) := fun _ h => encoded_length h rfl

theorem nop : Statement (.nop) := fun _ h => encoded_length h rfl

theorem und (op : Byte) (extra : Bool) (o : Operand) : Statement (.und op extra o) := by
  intro c _
  show (op :: encodeOperand o).length = 1 + operandBytes o.mode
  rw [List.length_cons, encodeOperand_length, Nat.add_comm]

end Laws.EncodedLength

end Sys2Proof
end

