-- ==== Sys2Proof/Tests/Slice0.lean ====
section
/-! SUPPORT. Tests on fixed values. Every expected value is spec/'s own: a worked example of the rule
named in the docstring, or the encoding columns of the opcode table (30_encoding.md R91, R93). After
them, one witness per statement that has hypotheses. -/

namespace Sys2Proof.Tests

open Sys2Proof.Machine

set_option Elab.async false

/-! ## Well-formedness: each check refuses a term that fails it alone -/

/-- BIT has no IMM form (42_logical.md R129). -/
theorem test_wf_mode_not_listed :
    (Instr.bit (.imm 0x00)).wellFormed Config.default = false := by decide +kernel

/-- STA has no IMM form: "There is no immediate form" (46_load_store_transfer.md R159). -/
theorem test_wf_store_immediate :
    (Instr.sta (.imm 0x00)).wellFormed Config.default = false := by decide +kernel

/-- INC has no IMP form (45_incdec.md R146). -/
theorem test_wf_increment_accumulator :
    (Instr.inc .imp).wellFormed Config.default = false := by decide +kernel

/-- 0xEA is NOP, not undefined (30_encoding.md R91, R93). -/
theorem test_wf_und_documented_opcode :
    (Instr.und 0xEA false .imp).wellFormed Config.default = false := by decide +kernel

/-- `UNDEF_MODE` is IMP by default (00_scope.md R6). -/
theorem test_wf_und_wrong_mode :
    (Instr.und 0x02 false (.imm 0x00)).wellFormed Config.default = false := by decide +kernel

/-- 0x1C is in `UNDEF_EXTRA`, 0x02 is not (00_scope.md R6). -/
theorem test_wf_und_wrong_extra :
    (Instr.und 0x1C false .imp).wellFormed Config.default = false ∧
    (Instr.und 0x02 true .imp).wellFormed Config.default = false := by decide +kernel

/-- And it accepts what the table lists. -/
theorem test_wf_accepts :
    (Instr.bit (.abs 0x2000)).wellFormed Config.default = true ∧
    (Instr.und 0x1C true .imp).wellFormed Config.default = true := by decide +kernel

/-! ## Decoding: for every operation one encoding, its opcode bits those of 30_encoding.md R91 (R93 for
UND), its operand bytes `10010110` and then `01101000`; the first byte stands rightmost -/

theorem test_decode_arithmetic :
  decodeTableWord 24 0b01101000_10010110_01111101 = some (.adc (.abx 0b01101000_10010110)) ∧
  decodeTableWord 16 0b10010110_11110001 = some (.sbc (.izy 0b10010110)) := by
  decide +kernel

theorem test_decode_logical :
  decodeTableWord 16 0b10010110_00010101 = some (.ora (.zpx 0b10010110)) ∧
  decodeTableWord 16 0b10010110_00100001 = some (.and (.izx 0b10010110)) ∧
  decodeTableWord 24 0b01101000_10010110_00101100 = some (.bit (.abs 0b01101000_10010110)) ∧
  decodeTableWord 24 0b01101000_10010110_01011001 = some (.eor (.aby 0b01101000_10010110)) := by
  decide +kernel

theorem test_decode_shift_rotate :
  decodeTableWord 8 0b00001010 = some (.asl .imp) ∧
  decodeTableWord 16 0b10010110_00100110 = some (.rol (.zp0 0b10010110)) ∧
  decodeTableWord 24 0b01101000_10010110_01011110 = some (.lsr (.abx 0b01101000_10010110)) ∧
  decodeTableWord 24 0b01101000_10010110_01101110 = some (.ror (.abs 0b01101000_10010110)) := by
  decide +kernel

theorem test_decode_compare :
  decodeTableWord 16 0b10010110_11001001 = some (.cmp (.imm 0b10010110)) ∧
  decodeTableWord 24 0b01101000_10010110_11001100 = some (.cpy (.abs 0b01101000_10010110)) ∧
  decodeTableWord 16 0b10010110_11100100 = some (.cpx (.zp0 0b10010110)) := by
  decide +kernel

theorem test_decode_incdec :
  decodeTableWord 8 0b10001000 = some .dey ∧
  decodeTableWord 8 0b11001000 = some .iny ∧
  decodeTableWord 8 0b11001010 = some .dex ∧
  decodeTableWord 16 0b10010110_11010110 = some (.dec (.zpx 0b10010110)) ∧
  decodeTableWord 8 0b11101000 = some .inx ∧
  decodeTableWord 24 0b01101000_10010110_11111110 = some (.inc (.abx 0b01101000_10010110)) := by
  decide +kernel

theorem test_decode_load_store_transfer :
  decodeTableWord 8 0b10001010 = some .txa ∧
  decodeTableWord 16 0b10010110_10010001 = some (.sta (.izy 0b10010110)) ∧
  decodeTableWord 16 0b10010110_10010100 = some (.sty (.zpx 0b10010110)) ∧
  decodeTableWord 16 0b10010110_10010110 = some (.stx (.zpy 0b10010110)) ∧
  decodeTableWord 8 0b10011000 = some .tya ∧
  decodeTableWord 8 0b10011010 = some .txs ∧
  decodeTableWord 16 0b10010110_10100001 = some (.lda (.izx 0b10010110)) ∧
  decodeTableWord 8 0b10101000 = some .tay ∧
  decodeTableWord 8 0b10101010 = some .tax ∧
  decodeTableWord 16 0b10010110_10110110 = some (.ldx (.zpy 0b10010110)) ∧
  decodeTableWord 8 0b10111010 = some .tsx ∧
  decodeTableWord 24 0b01101000_10010110_10111100 = some (.ldy (.abx 0b01101000_10010110)) := by
  decide +kernel

theorem test_decode_stack :
  decodeTableWord 8 0b00001000 = some .php ∧
  decodeTableWord 8 0b00101000 = some .plp ∧
  decodeTableWord 8 0b01001000 = some .pha ∧
  decodeTableWord 8 0b01101000 = some .pla := by
  decide +kernel

theorem test_decode_control_flow :
  decodeTableWord 8 0b00000000 = some .brk ∧
  decodeTableWord 16 0b10010110_00010000 = some (.bpl 0b10010110) ∧
  decodeTableWord 24 0b01101000_10010110_00100000 = some (.jsr 0b01101000_10010110) ∧
  decodeTableWord 16 0b10010110_00110000 = some (.bmi 0b10010110) ∧
  decodeTableWord 8 0b01000000 = some .rti ∧
  decodeTableWord 16 0b10010110_01010000 = some (.bvc 0b10010110) ∧
  decodeTableWord 8 0b01100000 = some .rts ∧
  decodeTableWord 24 0b01101000_10010110_01101100 = some (.jmp (.ind 0b01101000_10010110)) ∧
  decodeTableWord 16 0b10010110_01110000 = some (.bvs 0b10010110) ∧
  decodeTableWord 16 0b10010110_10010000 = some (.bcc 0b10010110) ∧
  decodeTableWord 16 0b10010110_10110000 = some (.bcs 0b10010110) ∧
  decodeTableWord 16 0b10010110_11010000 = some (.bne 0b10010110) ∧
  decodeTableWord 16 0b10010110_11110000 = some (.beq 0b10010110) := by
  decide +kernel

theorem test_decode_flags_nop_undefined :
  decodeTableWord 8 0b00011000 = some .clc ∧
  decodeTableWord 8 0b00111000 = some .sec ∧
  decodeTableWord 8 0b00111100 = some (.und 0b00111100 true .imp) ∧
  decodeTableWord 8 0b01011000 = some .cli ∧
  decodeTableWord 8 0b01111000 = some .sei ∧
  decodeTableWord 8 0b10111000 = some .clv ∧
  decodeTableWord 8 0b11011000 = some .cld ∧
  decodeTableWord 8 0b11101010 = some .nop ∧
  decodeTableWord 8 0b11111000 = some .sed := by
  decide +kernel

/-- What the decoder rejects, by name: a list of bytes that ends inside an instruction (30_encoding.md
R80, R81). -/
theorem test_decode_rejects :
    decode Config.default [] = .error .empty ∧
    decode Config.default [0xAD, 0x00] = .error .truncated ∧
    decode Config.default [0x69] = .error .truncated := by decide +kernel

/-! ## One step each, from the state the worked examples of spec/ start from -/

/-- A = X = Y = 0, SP = FD, P = 20, PC = 0600, at an instruction boundary. -/
def start : State :=
  { State.created [] with sp := 0xFD, p := 0x20, pc := 0x0600 }

/-- Bytes placed in memory. -/
def poke (cells : List (Word × Byte)) (s : State) : State :=
  s.setMem (cells.foldl (fun m c => m.write c.1 c.2) s.mem)

/-- The bytes at PC, one step, then the test; a fault or a refusal fails it. -/
def after (bytes : List Byte) (s : State) (holds : State → Bool) : Bool :=
  match step (s.setMem (s.mem.writeBytes s.pc bytes)) with
  | .next t => holds t
  | .fault _ => false
  | .refused _ => false

/-- 41_arithmetic.md R121, its Example: C = 0, Z = 0, V = 1, N = 1; 2 cycles. -/
theorem test_adc : after [0x69, 0x50]
    ({ start with a := 0x50 }) (fun t =>
      t.a == 0xA0 && t.p == 0xE0 && t.cycles == 1 && t.pc == 0x0602) = true := by decide +kernel

/-- 41_arithmetic.md R122, its Example: C = 0, Z = 0, V = 0, N = 0; 2 cycles. -/
theorem test_sbc : after [0xE9, 0xF0]
    ({ start with a := 0x50, p := 0x21 }) (fun t =>
      t.a == 0x60 && t.p == 0x20 && t.cycles == 1) = true := by decide +kernel

/-- 42_logical.md R126, its Example. -/
theorem test_and : after [0x29, 0x3C]
    ({ start with a := 0xF0 }) (fun t =>
      t.a == 0x30 && t.p == 0x20 && t.cycles == 1) = true := by decide +kernel

/-- 42_logical.md R127, its Example. -/
theorem test_ora : after [0x09, 0x80]
    ({ start with a := 0x0F }) (fun t =>
      t.a == 0x8F && t.p == 0xA0 && t.cycles == 1) = true := by decide +kernel

/-- 42_logical.md R128, its Example. -/
theorem test_eor : after [0x49, 0xFF]
    ({ start with a := 0xAA }) (fun t =>
      t.a == 0x55 && t.p == 0x20 && t.cycles == 1) = true := by decide +kernel

/-- 42_logical.md R129, its Example. -/
theorem test_bit : after [0x24, 0x10]
    (poke [(0x0010, 0x41)] { start with a := 0x01 }) (fun t =>
      t.a == 0x01 && t.p == 0x60 && t.cycles == 2) = true := by decide +kernel

/-- 43_shift_rotate.md R131, its Example. -/
theorem test_asl : after [0x0A]
    ({ start with a := 0x81 }) (fun t =>
      t.a == 0x02 && t.p == 0x21 && t.cycles == 1) = true := by decide +kernel

/-- 43_shift_rotate.md R132, its Example. -/
theorem test_lsr : after [0x46, 0x10]
    (poke [(0x0010, 0x03)] start) (fun t =>
      t.mem.read 0x0010 == 0x01 && t.p == 0x21 && t.cycles == 4) = true := by decide +kernel

/-- 43_shift_rotate.md R133, its Example. -/
theorem test_rol : after [0x2A]
    ({ start with a := 0x40, p := 0x21 }) (fun t =>
      t.a == 0x81 && t.p == 0xA0 && t.cycles == 1) = true := by decide +kernel

/-- 43_shift_rotate.md R134, its Example. -/
theorem test_ror : after [0x6E, 0x00, 0x02]
    (poke [(0x0200, 0x02)] { start with p := 0x21 }) (fun t =>
      t.mem.read 0x0200 == 0x81 && t.p == 0xA0 && t.cycles == 5) = true := by decide +kernel

/-- 44_compare.md R141, its Example. -/
theorem test_cmp : after [0xC9, 0x30]
    ({ start with a := 0x40 }) (fun t =>
      t.a == 0x40 && t.p == 0x21 && t.cycles == 1) = true := by decide +kernel

/-- 44_compare.md R141, its corner case A == 0x80, M == 0x00: C = 1, N = 1. -/
theorem test_cmp_not_signed : after [0xC9, 0x00]
    ({ start with a := 0x80 }) (fun t =>
      t.p == 0xA1) = true := by decide +kernel

/-- 44_compare.md R142, its Example. -/
theorem test_cpx : after [0xE0, 0x05]
    ({ start with x := 0x05 }) (fun t =>
      t.p == 0x23 && t.cycles == 1) = true := by decide +kernel

/-- 44_compare.md R143, its Example. -/
theorem test_cpy : after [0xC0, 0x20]
    ({ start with y := 0x10 }) (fun t =>
      t.p == 0xA0 && t.cycles == 1) = true := by decide +kernel

/-- 45_incdec.md R146, its Example; the carry is left alone. -/
theorem test_inc : after [0xE6, 0x10]
    (poke [(0x0010, 0xFF)] { start with p := 0x21 }) (fun t =>
      t.mem.read 0x0010 == 0x00 && t.p == 0x23 && t.cycles == 4) = true := by decide +kernel

/-- 45_incdec.md R147, its Example. -/
theorem test_dec : after [0xCE, 0x00, 0x02]
    (poke [(0x0200, 0x01)] start) (fun t =>
      t.mem.read 0x0200 == 0x00 && t.p == 0x22 && t.cycles == 5) = true := by decide +kernel

/-- 45_incdec.md R148, its Example. -/
theorem test_inx : after [0xE8]
    ({ start with x := 0x7F }) (fun t =>
      t.x == 0x80 && t.p == 0xA0 && t.cycles == 1) = true := by decide +kernel

/-- 45_incdec.md R149, its Example. -/
theorem test_iny : after [0xC8]
    start (fun t =>
      t.y == 0x01 && t.p == 0x20 && t.cycles == 1) = true := by decide +kernel

/-- 45_incdec.md R150, its Example. -/
theorem test_dex : after [0xCA]
    ({ start with x := 0x01 }) (fun t =>
      t.x == 0x00 && t.p == 0x22 && t.cycles == 1) = true := by decide +kernel

/-- 45_incdec.md R151, its Example. -/
theorem test_dey : after [0x88]
    ({ start with y := 0x80 }) (fun t =>
      t.y == 0x7F && t.p == 0x20 && t.cycles == 1) = true := by decide +kernel

/-- 46_load_store_transfer.md R156, its Example; 60_exceptions.md R228: "consuming exactly 2 cycles". -/
theorem test_lda : after [0xA9, 0x00]
    ({ start with a := 0x55, p := 0xA0 }) (fun t =>
      t.a == 0x00 && t.p == 0x22 && t.cycles == 1) = true := by decide +kernel

/-- 46_load_store_transfer.md R156, its corner case: `BD F0 12` with X == 0x20 takes 5 cycles. -/
theorem test_lda_page_cross : after [0xBD, 0xF0, 0x12]
    (poke [(0x1310, 0x7F)] { start with x := 0x20 }) (fun t =>
      t.a == 0x7F && t.addrAbs == 0x1310 && t.cycles == 4) = true := by decide +kernel

/-- 46_load_store_transfer.md R157, its Example. -/
theorem test_ldx : after [0xA2, 0xFF]
    start (fun t =>
      t.x == 0xFF && t.p == 0xA0 && t.cycles == 1) = true := by decide +kernel

/-- 46_load_store_transfer.md R158, its Example. -/
theorem test_ldy : after [0xA4, 0x10]
    ({ start with y := 0x11 }) (fun t =>
      t.y == 0x00 && t.p == 0x22 && t.cycles == 2) = true := by decide +kernel

/-- 46_load_store_transfer.md R159, its Example. -/
theorem test_sta : after [0x8D, 0x00, 0x02]
    ({ start with a := 0x42 }) (fun t =>
      t.mem.read 0x0200 == 0x42 && t.p == 0x20 && t.cycles == 3) = true := by decide +kernel

/-- 46_load_store_transfer.md R160, its Example. -/
theorem test_stx : after [0x86, 0x10]
    ({ start with x := 0x05 }) (fun t =>
      t.mem.read 0x0010 == 0x05 && t.p == 0x20 && t.cycles == 2) = true := by decide +kernel

/-- 46_load_store_transfer.md R161, its Example: N is not set by the store. -/
theorem test_sty : after [0x8C, 0x34, 0x12]
    ({ start with y := 0x80 }) (fun t =>
      t.mem.read 0x1234 == 0x80 && t.p == 0x20 && t.cycles == 3) = true := by decide +kernel

/-- 46_load_store_transfer.md R162, its Example. -/
theorem test_tax : after [0xAA]
    ({ start with a := 0x90 }) (fun t =>
      t.x == 0x90 && t.p == 0xA0 && t.cycles == 1) = true := by decide +kernel

/-- 46_load_store_transfer.md R163, its Example. -/
theorem test_tay : after [0xA8]
    ({ start with y := 0x05 }) (fun t =>
      t.y == 0x00 && t.p == 0x22 && t.cycles == 1) = true := by decide +kernel

/-- 46_load_store_transfer.md R164, its Example. -/
theorem test_txa : after [0x8A]
    ({ start with x := 0x7F }) (fun t =>
      t.a == 0x7F && t.p == 0x20 && t.cycles == 1) = true := by decide +kernel

/-- 46_load_store_transfer.md R165, its Example. -/
theorem test_tya : after [0x98]
    ({ start with y := 0xFF }) (fun t =>
      t.a == 0xFF && t.p == 0xA0 && t.cycles == 1) = true := by decide +kernel

/-- 46_load_store_transfer.md R166, its Example. -/
theorem test_tsx : after [0xBA]
    start (fun t =>
      t.x == 0xFD && t.p == 0xA0 && t.cycles == 1) = true := by decide +kernel

/-- 46_load_store_transfer.md R167, its Example: P unchanged. -/
theorem test_txs : after [0x9A]
    ({ start with x := 0xFF }) (fun t =>
      t.sp == 0xFF && t.p == 0x20 && t.cycles == 1) = true := by decide +kernel

/-- 47_stack.md R173, its Example. -/
theorem test_pha : after [0x48]
    ({ start with a := 0x42 }) (fun t =>
      t.mem.read 0x01FD == 0x42 && t.sp == 0xFC && t.cycles == 2) = true := by decide +kernel

/-- 47_stack.md R174, its Example. -/
theorem test_pla : after [0x68]
    (poke [(0x01FD, 0x42)] { start with sp := 0xFC }) (fun t =>
      t.a == 0x42 && t.sp == 0xFD && t.p == 0x20 && t.cycles == 3) = true := by decide +kernel

/-- 47_stack.md R174, its corner case: with SP == 0xFF the read comes from 0x0100. -/
theorem test_pla_wraps : after [0x68]
    (poke [(0x0100, 0x80)] { start with sp := 0xFF }) (fun t =>
      t.a == 0x80 && t.sp == 0x00 && t.p == 0xA0) = true := by decide +kernel

/-- 47_stack.md R175, its Example. -/
theorem test_php : after [0x08]
    ({ start with p := 0x24 }) (fun t =>
      t.mem.read 0x01FD == 0x34 && t.sp == 0xFC && t.p == 0x24 && t.cycles == 2) = true := by decide +kernel

/-- 47_stack.md R176, its Example. -/
theorem test_plp : after [0x28]
    (poke [(0x01FD, 0xC3)] { start with sp := 0xFC }) (fun t =>
      t.p == 0xE3 && t.sp == 0xFD && t.cycles == 3) = true := by decide +kernel

/-- 48_control_flow.md R180, its Example. -/
theorem test_jmp : after [0x4C, 0x00, 0x80]
    start (fun t =>
      t.pc == 0x8000 && t.cycles == 2) = true := by decide +kernel

/-- 40_addressing_modes.md R109, its corner case: the pointer 0x02FF takes its high byte from 0x0200. -/
theorem test_jmp_page_bug : after [0x6C, 0xFF, 0x02]
    (poke [(0x02FF, 0x34), (0x0200, 0x12), (0x0300, 0x56)] start) (fun t =>
      t.pc == 0x1234 && t.cycles == 4) = true := by decide +kernel

/-- 48_control_flow.md R181, its Example (90_conflicts.md C2). -/
theorem test_jsr : after [0x20, 0x34, 0x12]
    start (fun t =>
      t.pc == 0x1234 && t.mem.read 0x01FD == 0x06 && t.mem.read 0x01FC == 0x02 && t.sp == 0xFB && t.cycles == 5) = true := by decide +kernel

/-- 48_control_flow.md R182, its Example. -/
theorem test_rts : after [0x60]
    (poke [(0x01FD, 0x06), (0x01FC, 0x02)] { start with sp := 0xFB, pc := 0x1234 }) (fun t =>
      t.pc == 0x0603 && t.sp == 0xFD && t.cycles == 5) = true := by decide +kernel

/-- 48_control_flow.md R184, its Example, taken. -/
theorem test_bcc : after [0x90, 0x02]
    start (fun t =>
      t.pc == 0x0604 && t.cycles == 2) = true := by decide +kernel

/-- 48_control_flow.md R184, its Example, not taken. -/
theorem test_bcc_not_taken : after [0x90, 0x02]
    ({ start with p := 0x21 }) (fun t =>
      t.pc == 0x0602 && t.cycles == 1) = true := by decide +kernel

/-- 48_control_flow.md R185, its Example. -/
theorem test_bcs : after [0xB0, 0x02]
    ({ start with p := 0x21 }) (fun t =>
      t.pc == 0x0604 && t.cycles == 2) = true := by decide +kernel

/-- 48_control_flow.md R186, its Example: another page. -/
theorem test_beq : after [0xF0, 0x02]
    ({ start with p := 0x22, pc := 0x06FD }) (fun t =>
      t.pc == 0x0701 && t.cycles == 3) = true := by decide +kernel

/-- 48_control_flow.md R187, its Example. -/
theorem test_bne : after [0xD0, 0xF9]
    ({ start with pc := 0x060A }) (fun t =>
      t.pc == 0x0605 && t.addrRel == 0xFFF9 && t.cycles == 2) = true := by decide +kernel

/-- 48_control_flow.md R188, its Example. -/
theorem test_bpl : after [0x10, 0x05]
    start (fun t =>
      t.pc == 0x0607 && t.cycles == 2) = true := by decide +kernel

/-- 48_control_flow.md R189, its Example: another page. -/
theorem test_bmi : after [0x30, 0xFC]
    ({ start with p := 0xA0, pc := 0x0700 }) (fun t =>
      t.pc == 0x06FE && t.addrRel == 0xFFFC && t.cycles == 3) = true := by decide +kernel

/-- 48_control_flow.md R190, its Example: not taken. -/
theorem test_bvc : after [0x50, 0x10]
    ({ start with p := 0x60 }) (fun t =>
      t.pc == 0x0602 && t.cycles == 1) = true := by decide +kernel

/-- 48_control_flow.md R191, its Example. -/
theorem test_bvs : after [0x70, 0x10]
    ({ start with p := 0x60 }) (fun t =>
      t.pc == 0x0612 && t.cycles == 2) = true := by decide +kernel

/-- 48_control_flow.md R196, its Example. -/
theorem test_brk : after [0x00]
    (poke [(0xFFFF, 0x90)] { start with pc := 0x8000 }) (fun t =>
      t.mem.read 0x01FD == 0x80 && t.mem.read 0x01FC == 0x02 && t.mem.read 0x01FB == 0x34 &&
      t.sp == 0xFA && t.p == 0x24 && t.pc == 0x9000 && t.cycles == 6) = true := by decide +kernel

/-- 48_control_flow.md R197, its Example. -/
theorem test_rti : after [0x40]
    (poke [(0x01FD, 0x80), (0x01FC, 0x02), (0x01FB, 0x34)] { start with pc := 0x9000, sp := 0xFA, p := 0x24 }) (fun t =>
      t.p == 0x04 && t.pc == 0x8002 && t.sp == 0xFD && t.cycles == 5) = true := by decide +kernel

/-- 49_flags_nop_undefined.md R201, its Example. -/
theorem test_clc : after [0x18]
    ({ start with p := 0x21 }) (fun t =>
      t.p == 0x20 && t.cycles == 1) = true := by decide +kernel

/-- 49_flags_nop_undefined.md R202, its Example. -/
theorem test_sec : after [0x38]
    ({ start with p := 0x20 }) (fun t =>
      t.p == 0x21 && t.cycles == 1) = true := by decide +kernel

/-- 49_flags_nop_undefined.md R203, its Example. -/
theorem test_cli : after [0x58]
    ({ start with p := 0x24 }) (fun t =>
      t.p == 0x20 && t.cycles == 1) = true := by decide +kernel

/-- 49_flags_nop_undefined.md R204, its Example. -/
theorem test_sei : after [0x78]
    ({ start with p := 0x20 }) (fun t =>
      t.p == 0x24 && t.cycles == 1) = true := by decide +kernel

/-- 49_flags_nop_undefined.md R205, its Example. -/
theorem test_cld : after [0xD8]
    ({ start with p := 0x28 }) (fun t =>
      t.p == 0x20 && t.cycles == 1) = true := by decide +kernel

/-- 49_flags_nop_undefined.md R206, its Example. -/
theorem test_sed : after [0xF8]
    ({ start with p := 0x20 }) (fun t =>
      t.p == 0x28 && t.cycles == 1) = true := by decide +kernel

/-- 49_flags_nop_undefined.md R207, its Example. -/
theorem test_clv : after [0xB8]
    ({ start with p := 0x60 }) (fun t =>
      t.p == 0x20 && t.cycles == 1) = true := by decide +kernel

/-- 49_flags_nop_undefined.md R208, its Example. -/
theorem test_nop : after [0xEA]
    start (fun t =>
      t.pc == 0x0601 && t.p == 0x20 && t.cycles == 1) = true := by decide +kernel

/-- 49_flags_nop_undefined.md R209: an undefined opcode is a no-op with its base count, 2 by default. -/
theorem test_und : after [0x02]
    ({ start with a := 0x42 }) (fun t =>
      t.pc == 0x0601 && t.a == 0x42 && t.p == 0x20 && t.cycles == 1) = true := by decide +kernel

/-- 49_flags_nop_undefined.md R206, its Example: "`69 01` gives A = 0x0A, not 0x10". -/
theorem test_adc_ignores_decimal : after [0x69, 0x01]
    ({ start with a := 0x09, p := 0x28 }) (fun t =>
      t.a == 0x0A && t.p == 0x28) = true := by decide +kernel

/-! ## Modes and events -/

/-- 40_addressing_modes.md R104, its corner case: operand 0xFF with X == 0x02 gives 0x0001. -/
theorem test_zero_page_x_wraps : after [0xB5, 0xFF]
    (poke [(0x0001, 0x77)] { start with x := 0x02 }) (fun t =>
      t.a == 0x77 && t.addrAbs == 0x0001 && t.cycles == 3) = true := by decide +kernel

/-- 40_addressing_modes.md R108, its Example: `B9 FF 02` with Y == 0x01, 0x0300, signal true. -/
theorem test_absolute_y_crosses : after [0xB9, 0xFF, 0x02]
    (poke [(0x0300, 0x66)] { start with y := 0x01 }) (fun t =>
      t.a == 0x66 && t.addrAbs == 0x0300 && t.cycles == 4) = true := by decide +kernel

/-- 60_exceptions.md R231, its Example. -/
theorem test_irq :
    let t := (poke [(0xFFFF, 0x90)] { start with pc := 0x1234 }).takeIrq
    t.mem.read 0x01FD = 0x12 ∧ t.mem.read 0x01FC = 0x34 ∧ t.mem.read 0x01FB = 0x20 ∧
    t.sp = 0xFA ∧ t.p = 0x24 ∧ t.pc = 0x9000 ∧ t.cycles = 7 := by decide +kernel

/-- 60_exceptions.md R232, its Example. -/
theorem test_nmi :
    let t := (poke [(0xFFFB, 0xA0)] { start with pc := 0x9003, sp := 0xFA, p := 0x24 }).takeNmi
    t.mem.read 0x01FA = 0x90 ∧ t.mem.read 0x01F9 = 0x03 ∧ t.mem.read 0x01F8 = 0x24 ∧
    t.sp = 0xF7 ∧ t.p = 0x24 ∧ t.pc = 0xA000 ∧ t.cycles = 8 := by decide +kernel

/-- 70_reset_and_hazards.md section 1, the source's own check: "stack pointer = 0xFD, program counter =
value stored at 0xFFFC/0xFFFD (little-endian), Unused flag = 1, all other flags = 0, cycle counter =
8". -/
theorem test_reset :
    let t := (poke [(0xFFFC, 0x00), (0xFFFD, 0x80)] { start with p := 0xFF }).takeReset Config.default
    t.sp = 0xFD ∧ t.pc = 0x8000 ∧ t.p = 0x20 ∧ t.cycles = 8 := by decide +kernel

/-- The memory of the reset state is canonical (20_memory.md R51; log entry 3), and writing the byte an
unlisted cell reads as removes the cell. -/
theorem test_memory_form :
    State.reset.mem.wf = true ∧ Memory.write [(0x10, 0x01)] 0x0010 0x00 = [] ∧
    Memory.write [(0x10, 0x01)] 0x0008 0x02 = [(0x08, 0x02), (0x10, 0x01)] := by decide +kernel

/-- The host's hook: a row's word, placed and run as the first instruction after reset (log entry 2). -/
theorem test_with_fetch_word :
    (match step (State.reset.withFetchWord 16 0x42A9) with
      | .next t => t.a == 0x42 && t.pc == 0x0002 && t.opcode == 0xA9
      | .fault _ => false
      | .refused _ => false) = true := by decide +kernel

/-! ## Witnesses: for every statement with hypotheses, a state and operands that meet them together -/

/-- `Obligations.DecodeOfEncodeIsIdentity`: an instruction at the last opcode operand, and an UND. -/
theorem test_witness_decode_of_encode :
    (Instr.adc (.abx 0xFFFF)).wellFormed Config.default = true ∧
    (Instr.und 0xFC true .imp).wellFormed Config.default = true := by decide +kernel

/-- `Obligations.EveryOpcodeByteDecodes`: a documented and an undefined opcode at each end of the
byte. -/
theorem test_witness_opcode_bytes :
    (⟨0xFE, .inc, .abx, 7⟩ : Row) ∈ documentedRows Config.default ∧
    (⟨0x00, .brk, .imp, 7⟩ : Row) ∈ documentedRows Config.default ∧
    0x02 ∈ undefinedOpcodes ∧ 0xFF ∈ undefinedOpcodes ∧ 0xFE ∉ undefinedOpcodes := by
  decide +kernel

/-- `Obligations.UnindexedResolvers`: a branch's row among the documented ones, and an undefined opcode that
`UNDEF_MODE` gives REL. -/
theorem test_witness_relative :
    (⟨0x70, .bvs, .rel, 2⟩ : Row) ∈ documentedRows Config.default ∧ Mnemonic.bvs ∈ branches ∧
    (let c : Config := { Config.default with undefMode := fun _ => .rel }
     (describe c 0xFF).mode = .rel ∧ 0xFF ∈ undefinedOpcodes ∧ c.undefMode 0xFF = .rel) := by
  decide +kernel

/-- `Obligations.OnlyThreeModesReportPageCross`: a crossing, and instructions that neither signal nor
branch. -/
theorem test_witness_page_cross :
    pageCross (.abx 0x00FF) { start with x := 0x01 } = true ∧
    pageCross (.abx 0x00FE) { start with x := 0x01 } = false ∧
    (signals (.sta (.abx 0x00FF)) = false ∧
      branchTaken (.sta (.abx 0x00FF)) { start with x := 0x01 } = false) ∧
    (signals (.bcc 0x80) = false ∧ branchTaken (.bcc 0x80) { start with p := 0x21 } = false) := by
  decide +kernel

/-- `Obligations.FetchReadsTheOperandOnce`: both of its cases. -/
theorem test_witness_fetch : Mode.imp ≠ .rel ∧ Mode.izy ≠ .rel := by decide

/-- `Obligations.PushAndPull`: addresses outside the pushed byte, at the edges of page one. -/
theorem test_witness_push :
    (0x00FF : Word) ≠ BitVec.ofNat 16 (0x0100 + 0 % 256) ∧
    (0x0200 : Word) ≠ BitVec.ofNat 16 (0x0100 + 255 % 256) := by decide

/-- `Obligations.DecimalFlagHasNoEffect`: ADC at D clear. -/
theorem test_witness_decimal :
    (Instr.adc (.imm 0x01)).mnemonic ∉ [Mnemonic.sed, .cld, .php, .plp, .brk, .rti] ∧
    ∃ t, exec (.adc (.imm 0x01)) start = .next t := ⟨by decide, _, rfl⟩

/-- `Obligations.IncrementAndDecrementResults` and `Obligations.BusTrafficOfMemoryInstructions`: an
operand in memory. -/
theorem test_witness_memory_operand : Operand.izy 0xFF ≠ .imp ∧ Operand.abx 0xFFFF ≠ .imp := by
  decide

/-- `Obligations.NineRotatesRestore`: both of its instructions. -/
theorem test_witness_rotate :
    (Instr.rol .imp = .rol .imp ∨ Instr.rol .imp = .ror .imp) ∧
    (Instr.ror .imp = .rol .imp ∨ Instr.ror .imp = .ror .imp) := by decide

/-- `Obligations.SubroutineReturnsBehindTheCall`: the state JSR leaves, its stack bytes among it. -/
theorem test_witness_subroutine : ∃ t, exec (.jsr 0x1234) start = .next t ∧
    ∃ u : State, u.sp = t.sp ∧ u.pc = 0x1234 ∧
      u.mem.read (stackAddr start.sp) = t.mem.read (stackAddr start.sp) ∧
      u.mem.read (stackAddr (start.sp - 1)) = t.mem.read (stackAddr (start.sp - 1)) :=
  ⟨_, rfl, _, rfl, rfl, rfl, rfl⟩

/-- `Obligations.OnlyListedInstructionsWriteFlags`: each flag that an instruction changes. -/
theorem test_witness_flag_writers :
    (∃ t, exec .sec start = .next t ∧ t.flag .c ≠ start.flag .c) ∧
    (∃ t, exec .plp { start with p := 0x30 } = .next t ∧
      t.flag .b ≠ ({ start with p := 0x30 } : State).flag .b) ∧
    (∃ t, exec .rti start = .next t ∧ t.flag .u ≠ start.flag .u) ∧
    (∃ t, exec .iny { start with y := 0xFF } = .next t ∧ t.flag .z ≠ start.flag .z) ∧
    (∃ t, exec .dey start = .next t ∧ t.flag .n ≠ start.flag .n) ∧
    (∃ t, exec .sei start = .next t ∧ t.flag .i ≠ start.flag .i) ∧
    (∃ t, exec .sed start = .next t ∧ t.flag .d ≠ start.flag .d) ∧
    (∃ t, exec (.adc (.imm 0x7F)) { start with a := 0x01 } = .next t ∧
      t.flag .v ≠ start.flag .v) :=
  ⟨⟨_, rfl, by decide +kernel⟩, ⟨_, rfl, by decide +kernel⟩, ⟨_, rfl, by decide +kernel⟩,
    ⟨_, rfl, by decide +kernel⟩, ⟨_, rfl, by decide +kernel⟩, ⟨_, rfl, by decide +kernel⟩,
    ⟨_, rfl, by decide +kernel⟩, ⟨_, rfl, by decide +kernel⟩⟩

/-- `Obligations.OnlyListedInstructionsWriteRegisters` and the last clause of
`Obligations.NothingFaults`: each register, a shift of the accumulator, and PC. -/
theorem test_witness_register_writers :
    (∃ t, exec (.asl .imp) { start with a := 0x01 } = .next t ∧ t.reg .a ≠ 0x01 ∧
      (Instr.asl .imp).mnemonic ∈ [Mnemonic.asl, .lsr, .rol, .ror]) ∧
    (∃ t, exec .inx start = .next t ∧ t.reg .x ≠ start.reg .x) ∧
    (∃ t, exec .dey start = .next t ∧ t.reg .y ≠ start.reg .y) ∧
    (∃ t, exec .pha start = .next t ∧ t.reg .sp ≠ start.reg .sp) ∧
    (∃ t, exec (.bcc 0x80) start = .next t ∧ t.pc ≠ start.pc) :=
  ⟨⟨_, rfl, by decide +kernel⟩, ⟨_, rfl, by decide +kernel⟩, ⟨_, rfl, by decide +kernel⟩,
    ⟨_, rfl, by decide +kernel⟩, ⟨_, rfl, by decide +kernel⟩⟩

/-- `Obligations.OnlyListedInstructionsWriteMemory`: a store, and a shift in memory. -/
theorem test_witness_memory_writers :
    (∃ t, exec (.sta (.abs 0xFFFF)) { start with a := 0x01 } = .next t ∧ t.mem ≠ start.mem) ∧
    (∃ t, exec (.rol (.zp0 0x00)) { start with p := 0x21 } = .next t ∧ t.mem ≠ start.mem ∧
      (Instr.rol (.zp0 0x00)).mnemonic ∈ [Mnemonic.asl, .lsr, .rol, .ror]) :=
  ⟨⟨_, rfl, by decide +kernel⟩, ⟨_, rfl, by decide +kernel⟩⟩

/-- `Obligations.BreakAndUnusedAreStorageBits` and `Obligations.BusTrafficOfTheOthers`: an instruction outside the three, both values of
Interrupt-disable, a running countdown. -/
theorem test_witness_break_and_unused :
    Instr.nop.mnemonic ∉ [Mnemonic.plp, .rti, .brk] ∧ start.flag .i = false ∧
    ({ start with p := 0x24 } : State).flag .i = true ∧ State.reset.cycles ≠ 0 := by
  decide +kernel

/-- `Obligations.StepRunsTheDecodedInstruction`: `AD 00 02` at an instruction boundary, and an
instruction that straddles the top of the address space. -/
theorem test_witness_step_runs :
    (let s := poke [(0x0600, 0xAD), (0x0602, 0x02)] start
     nextEvent s = .clock ∧ s.cycles = 0 ∧
     decode Config.default [s.mem.read s.pc, s.mem.read (s.pc + 1), s.mem.read (s.pc + 2)] =
       .ok (.lda (.abs 0x0200), []) ∧
     ∃ t, exec (.lda (.abs 0x0200)) (s.beginEvent.beginInstr Config.default) = .next t) ∧
    (let s := poke [(0xFFFF, 0x4C), (0x0000, 0x34), (0x0001, 0x12)] { start with pc := 0xFFFF }
     nextEvent s = .clock ∧ s.cycles = 0 ∧
     decode Config.default [s.mem.read s.pc, s.mem.read (s.pc + 1), s.mem.read (s.pc + 2)] =
       .ok (.jmp (.abs 0x1234), [])) :=
  ⟨⟨by decide +kernel, by decide +kernel, by decide +kernel, _, rfl⟩, by decide +kernel⟩

/-- `Obligations.CountdownOnlyCountsDown`: the counter at 0, at 1 and at its largest value. -/
theorem test_witness_countdown :
    (nextEvent start = .clock ∧ start.cycles = 0) ∧
    (let s : State := { start with cycles := 1 }
     nextEvent s = .clock ∧ s.cycles ≠ 0) ∧
    (let s : State := { start with cycles := 0xFF }
     nextEvent s = .clock ∧ s.cycles ≠ 0) := by decide +kernel

/-- `Obligations.CounterStaysInRange` and `Obligations.InstructionOccupiesItsCycles`: the default
parameters, and the largest counts with every undefined opcode of mode ABX. -/
theorem test_witness_counts :
    Config.default.CountsValid ∧
    ({ undefMode := fun _ => .abx, undefCycles := fun _ => 254,
       undefExtra := fun op => undefinedOpcodes.contains op, brkCycles := 254,
       busReinit := fun m => m } : Config).CountsValid ∧
    nextEvent start = .clock ∧ start.events = [] ∧ start.cycles = 0 ∧
    0 + 1 < instrCycles Config.default start :=
  ⟨⟨fun _ => (by decide : 1 ≤ (2 : Byte).toNat ∧ (2 : Byte).toNat ≤ 254), by decide, fun op h => by
      have every : ∀ op, defaultUndefExtra op = true → op ∈ undefinedOpcodes := by decide +kernel
      exact every op h⟩,
    ⟨fun _ => (by decide : 1 ≤ (254 : Byte).toNat ∧ (254 : Byte).toNat ≤ 254), by decide,
      fun op h => by simpa using h⟩,
    by decide +kernel, by decide +kernel, by decide +kernel, by decide +kernel⟩

/-- `Obligations.EveryStepKeepsTheInvariant`: a state that meets the invariant, with its step. -/
theorem test_witness_invariant :
    (State.reset.mem.wf = true ∧ State.reset.mode = (describe Config.default State.reset.opcode).mode ∧
      State.reset.cycles.toNat ≤ 8) ∧ ∃ t, step State.reset = .next t :=
  ⟨by decide +kernel, _, rfl⟩

/-- `Obligations.TimingNeverChangesValues`: an instruction boundary, and two machines that differ in a
base count. -/
theorem test_witness_timing :
    let c' : Config := { Config.default with brkCycles := 9 }
    c'.undefMode = Config.default.undefMode ∧ c'.undefExtra = Config.default.undefExtra ∧
    c'.busReinit = Config.default.busReinit ∧ start.cycles = 0 ∧
    (describe c' 0x00).base ≠ (describe Config.default 0x00).base :=
  ⟨rfl, rfl, rfl, rfl, by decide +kernel⟩

/-- `Obligations.IrqIsMaskedByInterruptDisable`, `Obligations.InterruptEntries`,
`Obligations.ReturnFromInterruptResumes` and `Obligations.ResetEventLeaves`: each event at the head of
the driver's list, Interrupt-disable at both values. -/
theorem test_witness_events :
    (let s : State := { start with events := [.irq, .nmi], p := 0x24 }
     s.events = .irq :: [.nmi] ∧ s.flag .i = true) ∧
    (let s : State := { start with events := [.irq] }
     s.events = .irq :: [] ∧ s.flag .i = false) ∧
    (let s : State := { start with events := [.nmi], cycles := 3 }
     s.events = .nmi :: []) ∧
    (let s : State := { start with events := [.reset, .clock] }
     s.events = .reset :: [.clock]) := by decide +kernel

/-- `Obligations.ResetEventLeaves` and `Obligations.EdgeDeliversStrobesInOrder`: nothing raised, nothing
on the bus, Interrupt-disable clear. -/
theorem test_witness_edge :
    start.events = [] ∧ start.bus = [] ∧ start.flag .i = false ∧ Flag.c ≠ .u := by decide +kernel

end Sys2Proof.Tests
end

