-- ==== Sys2Proof/Proofs/FlagAccess.lean ====
section
/-! PROOF. Flag access (10_state.md R30): a flag read as the test of a mask, a flag write as an OR or AND
of the mask, and the obligation about both. -/

namespace Sys2Proof.Machine

theorem Flag.mask_ne_zero (f : Flag) : f.mask ≠ 0 := by
  cases f <;> decide

/-- ANDing the mask keeps the flag's bit alone. -/
theorem and_mask (p : Byte) (f : Flag) : p &&& f.mask = if getFlag f p then f.mask else 0 :=
  BitVec.and_twoPow p f.bit

/-- A flag read tests the bit. -/
theorem getFlag_eq_false_iff (p : Byte) (f : Flag) : getFlag f p = false ↔ p &&& f.mask = 0 := by
  rw [and_mask]
  cases getFlag f p with
  | false => simp
  | true => simpa using f.mask_ne_zero

/-- A flag write is an OR or AND on P and changes no other field. -/
theorem State.setFlag_eq (s : State) (f : Flag) (on : Bool) :
    s.setFlag f on = { s with p := if on then s.p ||| f.mask else s.p &&& ~~~f.mask } := rfl

theorem State.flagNat_eq_ite (s : State) (f : Flag) :
    s.flagNat f = if s.flag f = true then 1 else 0 :=
  cond_eq_ite (s.flag f) 1 0

end Sys2Proof.Machine

open Sys2Proof.Machine

/-- Settles O11: the write from the flag laws and the definition, the read from the mask test. -/
theorem flagWriteChangesOneBit : Obligations.FlagWriteChangesOneBit := by
  intro s f g on
  exact ⟨s.flag_setFlag f g on, s.setFlag_eq f on, s.flagNat_eq_ite f, getFlag_eq_false_iff s.p f⟩

end

