-- ==== Sys2Proof/Proofs/OpcodeTable.lean ====
section
/-! PROOF. The opcode table is total and unambiguous (30_encoding.md R92): the documented rows and the
undefined opcodes share out the 256 bytes, and what a byte decodes to is well-formed. -/

namespace Sys2Proof

/-- An undefined opcode has the UND row of 30_encoding.md R93. -/
theorem describe_of_mem_undefined (c : Config) {op : Byte} (h : op ∈ undefinedOpcodes) :
    describe c op = ⟨op, .und, c.undefMode op, c.undefCycles op⟩ := by
  rcases describe_cases c op with ⟨hdoc, _⟩ | ⟨_, hrow⟩
  · exact absurd h hdoc
  · exact hrow

/-- The mode check of every instruction but UND. -/
theorem Instr.wellFormed_of_ne_und (c : Config) {i : Instr} (h : i.mnemonic ≠ .und) :
    i.wellFormed c = i.mnemonic.modes.contains i.operand.mode := by
  cases i with
  | und => exact absurd rfl h
  | _ => rfl

/-- What the decoder makes of an opcode with the UND row. -/
theorem decodeBytes_of_mem_undefined (c : Config) {op : Byte} (b1 b2 : Byte)
    (h : op ∈ undefinedOpcodes) :
    decodeBytes c op b1 b2 = .und op (c.undefExtra op) (assemble (c.undefMode op) b1 b2) := by
  rw [decodeBytes, describe_of_mem_undefined c h, buildInstr]

theorem undWellFormed_assemble (c : Config) {op : Byte} (b1 b2 : Byte) (h : op ∈ undefinedOpcodes) :
    undWellFormed c op (c.undefExtra op) (assemble (c.undefMode op) b1 b2) = true := by
  simp [undWellFormed, h]

/-- The decoder answers well-formed instructions only. -/
theorem decodeBytes_wellFormed (c : Config) (op b1 b2 : Byte) :
    (decodeBytes c op b1 b2).wellFormed c = true := by
  rcases describe_cases c op with ⟨_, _, _, hne, hmode, _⟩ | ⟨hund, _⟩
  · rw [Instr.wellFormed_of_ne_und c (by rwa [decodeBytes_mnemonic]), decodeBytes_mnemonic,
      decodeBytes_mode, hmode]
  · rw [decodeBytes_of_mem_undefined c b1 b2 hund]
    exact undWellFormed_assemble c b1 b2 hund

theorem operation_ne_und_of_documented {c : Config} {r : Row} (h : r ∈ documentedRows c) :
    r.operation ≠ .und := by
  rcases List.mem_cons.mp h with rfl | h
  · nofun
  · obtain ⟨_, _, _, hne, _⟩ := fixedRows_facts r h
    exact hne

/-- The documented opcodes are the complement of the undefined ones. -/
theorem exists_documentedRow_iff (c : Config) (op : Byte) :
    (∃ r ∈ documentedRows c, r.opcode = op) ↔ op ∉ undefinedOpcodes := by
  rcases describe_cases c op with ⟨hdoc, hmem, hop, _⟩ | ⟨hund, hrow⟩
  · exact iff_of_true ⟨describe c op, hmem, hop⟩ hdoc
  · refine iff_of_false ?_ (not_not_intro hund)
    rintro ⟨r, hr, rfl⟩
    rw [describe_row c hr] at hrow
    exact operation_ne_und_of_documented hr (congrArg Row.operation hrow)

end Sys2Proof

open Sys2Proof

/-- Settles O3, from the two cases of a byte's descriptor: a documented row or the UND row. -/
theorem everyOpcodeByteDecodes : Obligations.EveryOpcodeByteDecodes := by
  intro c op b1 b2 rest
  refine ⟨⟨_, _, decode_three c op b1 b2 rest, decodeBytes_wellFormed c op b1 b2⟩,
    exists_documentedRow_iff c op, ?_, describe_of_mem_undefined c⟩
  rintro r hr rfl
  exact describe_row c hr

end

