-- ==== Sys2Proof/Proofs/UnindexedResolvers.lean ====
section
/-! PROOF. What a resolver leaves, from PC at the first operand byte, in the modes IMP, IMM, ZP0, ZPX, ZPY,
ABS and REL (40_addressing_modes.md R101 to R106, R112), and who has the mode REL. -/

namespace Sys2Proof.Machine

/-! The words a resolver makes of bytes, as numbers. -/

theorem zext16_eq_ofNat (b : Byte) : zext16 b = BitVec.ofNat 16 b.toNat :=
  (BitVec.ofNat_toNat 16 b).symm

/-- A zero-page index sum wraps inside page zero. -/
theorem zext16_add (b i : Byte) :
    zext16 (b + i) = BitVec.ofNat 16 ((b.toNat + i.toNat) % 256) := by
  rw [zext16_eq_ofNat, BitVec.toNat_add]

theorem mkWord_eq_ofNat (h l : Byte) :
    mkWord h l = BitVec.ofNat 16 (h.toNat * 256 + l.toNat) := by
  rw [← mkWord_toNat, BitVec.ofNat_toNat, BitVec.setWidth_eq]

theorem sext16_eq_ofNat (b : Byte) :
    sext16 b = BitVec.ofNat 16 (if b.getLsbD 7 then 0xFF00 + b.toNat else b.toNat) := by
  revert b; decide +kernel

/-! The operand bytes, then the resolver. -/

theorem State.readOperandBytes_one (s : State) {m : Mode} (h : operandBytes m = 1)
    (himm : m ≠ .imm) :
    s.readOperandBytes m =
      { s with pc := s.pc + 1, bus := s.bus ++ [.read s.pc (s.mem.read s.pc)] } := by
  rw [State.readOperandBytes, h]
  exact congrArg (State.setPc · (s.pc + 1)) (if_neg himm)

theorem State.readOperandBytes_two (s : State) {m : Mode} (h : operandBytes m = 2) :
    s.readOperandBytes m =
      { s with
        pc := s.pc + 2
        bus := s.bus ++ [.read s.pc (s.mem.read s.pc),
          .read (s.pc + 1) (s.mem.read (s.pc + 1))] } := by
  rw [State.readOperandBytes, h]
  simp [State.logRead, State.setBus, State.setPc]

/-- A resolver that makes an address of its operand bytes: they alone move PC, and the pointer reads
follow theirs. The address and the pointers are those of the state before the bytes were read. -/
theorem resolveMode_of_address (s : State) {m : Mode} (h : m ∉ [Mode.imp, .imm, .rel]) :
    let o := assemble m (s.mem.read s.pc) (s.mem.read (s.pc + 1))
    resolveMode m s =
      { s.readOperandBytes m with
        addrAbs := effectiveAddress o s
        bus := (s.readOperandBytes m).bus ++
          (pointerAddrs o s).map (fun a => .read a (s.mem.read a)) } := by
  cases m with
  | imp | imm | rel => exact absurd (by decide) h
  | _ => rfl

/-- Only an index added to a 16-bit base can leave a page. -/
theorem modeSignal_eq_false (s : State) {m : Mode} (h : m ∉ [Mode.abx, .aby, .izy]) :
    modeSignal m s = false := by
  cases m with
  | abx | aby | izy => exact absurd (by decide) h
  | _ => rfl

theorem resolveMode_imm (s : State) :
    resolveMode .imm s = { s with addrAbs := s.pc, pc := s.pc + 1 } := by
  have hbus : s.bus ++ [] = s.bus := List.append_nil _
  have hpc : s.pc + 1 - 1 = s.pc := BitVec.add_sub_cancel _ _
  calc resolveMode .imm s
      = { s with addrAbs := s.pc + 1 - 1, pc := s.pc + 1, bus := s.bus ++ [] } := rfl
    _ = { s with addrAbs := s.pc, pc := s.pc + 1 } := by rw [hbus, hpc]

/-- The zero-page modes: one operand byte and no pointer. -/
theorem resolveMode_zeroPage (s : State) {m : Mode} (h : m ∈ [Mode.zp0, .zpx, .zpy]) :
    resolveMode m s =
      { s with
        addrAbs := effectiveAddress (assemble m (s.mem.read s.pc) (s.mem.read (s.pc + 1))) s
        pc := s.pc + 1
        bus := s.bus ++ [.read s.pc (s.mem.read s.pc)] } := by
  cases m with
  | zp0 | zpx | zpy =>
    rw [resolveMode_of_address s (by decide), State.readOperandBytes_one s rfl (by decide)]
    simp [assemble, pointerAddrs]
  | _ => exact absurd h (by decide)

theorem resolveMode_abs (s : State) :
    resolveMode .abs s =
      { s with
        addrAbs := mkWord (s.mem.read (s.pc + 1)) (s.mem.read s.pc)
        pc := s.pc + 2
        bus := s.bus ++ [.read s.pc (s.mem.read s.pc),
          .read (s.pc + 1) (s.mem.read (s.pc + 1))] } := by
  rw [resolveMode_of_address s (by decide), State.readOperandBytes_two s rfl]
  simp [assemble, effectiveAddress, pointerAddrs]

theorem resolveMode_rel (s : State) :
    resolveMode .rel s =
      { s with
        addrRel := sext16 (s.mem.read s.pc)
        pc := s.pc + 1
        bus := s.bus ++ [.read s.pc (s.mem.read s.pc)] } := by
  rw [resolveMode, State.readOperandBytes_one s rfl (by decide)]
  rfl

/-! The mode REL (R112). -/

theorem documentedRow_rel_iff (c : Config) {r : Row} (h : r ∈ documentedRows c) :
    r.mode = .rel ↔ r.operation ∈ branches := by
  have hfixed : ∀ q ∈ fixedRows, q.mode = .rel ↔ q.operation ∈ branches := by decide +kernel
  rcases List.mem_cons.mp h with rfl | h
  · exact iff_of_false nofun (by decide : Mnemonic.brk ∉ branches)
  · exact hfixed r h

theorem describe_rel_iff (c : Config) (op : Byte) :
    (describe c op).mode = .rel ↔
      (describe c op).operation ∈ branches ∨ (op ∈ undefinedOpcodes ∧ c.undefMode op = .rel) := by
  rcases describe_cases c op with ⟨hdoc, hmem, _⟩ | ⟨hund, hrow⟩
  · rw [documentedRow_rel_iff c hmem]
    simp [hdoc]
  · have hnot : Mnemonic.und ∉ branches := by decide
    simp [hrow, hund, hnot]

end Sys2Proof.Machine

open Sys2Proof Sys2Proof.Machine

/-- Settles O5: the state each resolver leaves, its address read as a number, and the two kinds of
descriptor a byte can have. -/
theorem unindexedResolvers : Obligations.UnindexedResolvers := by
  intro s
  have quiet {m : Mode} := modeSignal_eq_false s (m := m)
  refine ⟨⟨rfl, quiet (by decide)⟩, ⟨resolveMode_imm s, quiet (by decide), rfl, ?imm⟩,
    ⟨?zp0, quiet (by decide)⟩, ⟨?zpx, quiet (by decide)⟩, ⟨?zpy, quiet (by decide)⟩,
    ⟨?abs, quiet (by decide)⟩, ⟨?rel, quiet (by decide)⟩,
    fun c _ => documentedRow_rel_iff c, describe_rel_iff⟩
  case imm => rw [resolveMode_imm]; rfl
  case zp0 => rw [resolveMode_zeroPage s (by decide), ← zext16_eq_ofNat]; rfl
  case zpx => rw [resolveMode_zeroPage s (by decide), ← zext16_add]; rfl
  case zpy => rw [resolveMode_zeroPage s (by decide), ← zext16_add]; rfl
  case abs => rw [resolveMode_abs, mkWord_eq_ofNat]
  case rel => rw [resolveMode_rel, sext16_eq_ofNat]

end

