-- ==== Sys2Proof/Proofs/Logical.lean ====
section
/-! PROOF. AND, ORA, EOR and BIT (42_logical.md R125 to R129): what an operation leaves that loads A with
a byte computed from A and the operand, and what the flags of BIT leave alone. -/

namespace Sys2Proof.Machine

/-! The frame of an operation with an operand is the frame of the operation itself. -/

/-- The resolver, `fetch()` and the extra cycle write no register, flag or memory byte. -/
theorem Frame.operateOn {regs : List Reg} {flags : List Flag} {stored : List Word} {o : Operand}
    {s t : State} (h : Frame regs flags stored ((s.resolve o).fetchOperand o) t) (both : Bool) :
    Frame regs flags stored s (t.addExtra both) := by
  obtain ⟨hreg, hflag, hmem⟩ := h
  refine ⟨fun r hr => ?_, fun f hf => ?_, fun a ha => ?_⟩
  · have := hreg r hr
    cases r <;> simpa [State.reg] using this
  · simpa using hflag f hf
  · simpa using hmem a ha

theorem frame_loadA (s : State) (v : Byte) : Frame [.a] [.z, .n] [] s (s.loadA v) := by
  refine ⟨fun r hr => ?_, fun f hf => ?_, fun _ _ => rfl⟩
  · cases r with
    | a => simp at hr
    | x | y | sp => rfl
  · have ⟨hz, hn⟩ : f ≠ .z ∧ f ≠ .n := by simpa using hf
    simp [hz, hn]

theorem frame_bitFlags (s : State) (m : Byte) : Frame [] [.z, .n, .v] [] s (s.bitFlags m) := by
  refine ⟨fun r _ => ?_, fun f hf => ?_, fun _ _ => rfl⟩
  · cases r <;> rfl
  · have ⟨hz, hn, hv⟩ : f ≠ .z ∧ f ≠ .n ∧ f ≠ .v := by simpa using hf
    simp [hz, hn, hv]

/-! An operation that loads A. -/

/-- `t` is what an instruction with the operand `o` leaves that loads A with `v` and returns the signal
true: A, Z and N, the extra cycle, PC and the frame. -/
def LoadsA (o : Operand) (s : State) (v : Byte) (t : State) : Prop :=
  t.a = v ∧ (t.flag .z = decide (t.a = 0) ∧ t.flag .n = decide (128 ≤ t.a.toNat)) ∧
  (t.cycles = if pageCross o s then s.cycles + 1 else s.cycles) ∧ t.pc = s.pc ∧
  Frame [.a] [.z, .n] [] s t

theorem loadsA_loadA (o : Operand) (s : State) (v : Byte) :
    LoadsA o s v ((((s.resolve o).fetchOperand o).loadA v).addExtra (pageCross o s && true)) := by
  refine ⟨by simp, ⟨?z, ?n⟩, ?cycles, by simp, (frame_loadA _ v).operateOn _⟩
  case z => simp [beq_eq_decide]
  case n => simpa using getLsbD_seven v
  case cycles =>
    rw [State.addExtra_cycles]
    cases pageCross o s <;> simp

/-- An instruction that loads A with a byte computed from A and the operand. -/
theorem yields_loadsA {i : Instr} {o : Operand} {s : State} (f : Byte → Byte → Byte)
    (h : exec i s = operateOn true o s (fun r => r.loadA (f r.a r.fetched))) :
    Yields i s (LoadsA o s (f s.a (operandValue o s))) :=
  ⟨_, h, by simpa using loadsA_loadA o s (f s.a (operandValue o s))⟩

end Sys2Proof.Machine

open Sys2Proof.Machine

/-- Settles O16: AND, ORA and EOR are each a load of A; BIT's flags are read off its flag law. -/
theorem logicalResults : Obligations.LogicalResults := by
  intro o s
  refine ⟨yields_loadsA (· &&& ·) rfl, yields_loadsA (· ||| ·) rfl, yields_loadsA (· ^^^ ·) rfl,
    _, rfl, ?z, ?n, ?v, (frame_bitFlags _ _).operateOn _⟩
  case z => simp [beq_eq_decide]
  case n => simp
  case v => simp

end

