-- ==== Sys2Proof/Proofs/IncrementDecrement.lean ====
section
/-! PROOF. INC, DEC, INX, INY, DEX and DEY (45_incdec.md R145): a count modulo 256 of a byte in memory or
of an index register, with Z and N from the result. -/

namespace Sys2Proof.Machine

/-- Minus one is plus 255 modulo 256. -/
theorem toNat_sub_one (b : Byte) : (b - 1).toNat = (b.toNat + 255) % 256 := by
  rw [BitVec.toNat_sub, Nat.add_comm]
  rfl

/-! Z and N from a result, and the frame around them. -/

/-- Z and N in `t` are those of the low byte of `v` (10_state.md R28). -/
def ZNFrom (v : Nat) (t : State) : Prop :=
  t.flag .z = decide (v % 256 = 0) ∧ t.flag .n = decide (128 ≤ v % 256)

theorem znFrom_setZN (u : State) {b : Byte} {v : Nat} (hb : b.toNat = v % 256) :
    ZNFrom v (u.setZN b) := by
  rw [ZNFrom, ← hb]
  refine ⟨?z, ?n⟩
  case z => simp [beq_eq_decide, ← BitVec.toNat_inj]
  case n => simpa using getLsbD_seven b

/-- `setZN` adds Z and N to what may change. -/
theorem Frame.setZN {regs : List Reg} {stored : List Word} {s u : State}
    (h : Frame regs [] stored s u) (b : Byte) : Frame regs [.z, .n] stored s (u.setZN b) := by
  obtain ⟨hreg, hflag, hmem⟩ := h
  refine ⟨hreg, fun f hf => ?_, hmem⟩
  have ⟨hz, hn⟩ : f ≠ .z ∧ f ≠ .n := by simpa using hf
  simpa [hz, hn] using hflag f List.not_mem_nil

theorem frame_busWrite (s : State) (a : Word) (v : Byte) : Frame [] [] [a] s (s.busWrite a v) := by
  refine ⟨fun r _ => ?_, fun _ _ => rfl, fun b hb => ?_⟩
  · cases r <;> rfl
  · exact Memory.read_write_other (by simpa using hb) s.mem v

theorem frame_setX (s : State) (v : Byte) : Frame [.x] [] [] s (s.setX v) := by
  refine ⟨fun r hr => ?_, fun _ _ => rfl, fun _ _ => rfl⟩
  cases r with
  | x => simp at hr
  | a | y | sp => rfl

theorem frame_setY (s : State) (v : Byte) : Frame [.y] [] [] s (s.setY v) := by
  refine ⟨fun r hr => ?_, fun _ _ => rfl, fun _ _ => rfl⟩
  cases r with
  | y => simp at hr
  | a | x | sp => rfl

/-! INC and DEC. -/

/-- `t` is what an instruction with the operand `o` leaves that stores the low byte of `v` over its
operand and returns the signal false. -/
def CountsMemory (o : Operand) (s : State) (v : Nat) (t : State) : Prop :=
  (t.mem.read (effectiveAddress o s)).toNat = v % 256 ∧ ZNFrom v t ∧ t.cycles = s.cycles ∧
  t.pc = s.pc ∧ Frame [] [.z, .n] [effectiveAddress o s] s t ∧
  (o ≠ .imp → t.bus = s.bus ++ (pointerAddrs o s).map (fun a => .read a (s.mem.read a)) ++
    [.read (effectiveAddress o s) (operandValue o s),
      .write (effectiveAddress o s) (t.mem.read (effectiveAddress o s))])

theorem countsMemory_storeZN (o : Operand) (s : State) {b : Byte} {v : Nat}
    (hb : b.toNat = v % 256) :
    CountsMemory o s v (((s.resolve o).fetchOperand o).storeZN b) := by
  have haddr := State.fetchOperand_addrAbs_resolve s o
  rw [State.storeZN, haddr]
  refine ⟨?result, znFrom_setZN _ hb, by simp, by simp,
    ((frame_busWrite _ _ b).setZN b).operateOn false, fun ho => ?bus⟩
  case result => simp [hb]
  case bus => simp [State.fetchOperand_resolve_bus s o ho, State.resolve_bus]

/-- An instruction that stores a byte computed from its operand over it. -/
theorem yields_countsMemory {i : Instr} {o : Operand} {s : State} {v : Nat} (f : Byte → Byte)
    (h : exec i s = operateOn false o s (fun r => r.storeZN (f r.fetched)))
    (hf : (f (operandValue o s)).toNat = v % 256) : Yields i s (CountsMemory o s v) := by
  refine ⟨_, h, ?_⟩
  simpa using countsMemory_storeZN o s hf

/-! INX, INY, DEX and DEY. -/

/-- `t` is what an instruction without an operand leaves that loads `r` with the low byte of `v`. -/
def CountsRegister (s : State) (r : Reg) (v : Nat) (t : State) : Prop :=
  (t.reg r).toNat = v % 256 ∧ ZNFrom v t ∧ t.cycles = s.cycles ∧ t.pc = s.pc ∧
  t.bus = s.bus ∧ Frame [r] [.z, .n] [] s t

theorem yields_countsX {i : Instr} {s : State} {b : Byte} {v : Nat}
    (h : exec i s = .next ((s.resolve .imp).loadX b)) (hb : b.toNat = v % 256) :
    Yields i s (CountsRegister s .x v) :=
  ⟨_, h, hb, znFrom_setZN _ hb, rfl, rfl, rfl,
    Frame.operateOn (o := .imp) ((frame_setX _ b).setZN b) false⟩

theorem yields_countsY {i : Instr} {s : State} {b : Byte} {v : Nat}
    (h : exec i s = .next ((s.resolve .imp).loadY b)) (hb : b.toNat = v % 256) :
    Yields i s (CountsRegister s .y v) :=
  ⟨_, h, hb, znFrom_setZN _ hb, rfl, rfl, rfl,
    Frame.operateOn (o := .imp) ((frame_setY _ b).setZN b) false⟩

end Sys2Proof.Machine

open Sys2Proof Sys2Proof.Machine

/-- Settles O20: INC and DEC count a memory byte, the other four count X or Y. -/
theorem incrementAndDecrementResults : Obligations.IncrementAndDecrementResults := by
  intro o s
  exact ⟨rfl, rfl,
    yields_countsMemory (· + 1) rfl (BitVec.toNat_add _ 1),
    yields_countsMemory (· - 1) rfl (toNat_sub_one _),
    yields_countsX rfl (BitVec.toNat_add s.x 1), yields_countsY rfl (BitVec.toNat_add s.y 1),
    yields_countsX rfl (toNat_sub_one s.x), yields_countsY rfl (toNat_sub_one s.y)⟩

end

