-- ==== Sys2Proof/Proofs/PushPull.lean ====
section
/-! PROOF. Push and pull (47_stack.md R170, R171): the stack address as a number, what one push leaves, and
the two round trips. -/

namespace Sys2Proof.Machine

/-- The stack addresses are page one, the offset modulo 256. -/
theorem ofNat_eq_stackAddr {b : Byte} {n : Nat} (h : b.toNat = n % 256) :
    BitVec.ofNat 16 (0x0100 + n % 256) = stackAddr b := by
  rw [← h, ← stackAddr_toNat, BitVec.ofNat_toNat, BitVec.setWidth_eq]

theorem State.push_read_same (s : State) (v : Byte) :
    (s.push v).mem.read (stackAddr s.sp) = v :=
  s.mem.read_write_same (stackAddr s.sp) v

theorem State.push_read_other {s : State} {a : Word} (h : a ≠ stackAddr s.sp) (v : Byte) :
    (s.push v).mem.read a = s.mem.read a :=
  Memory.read_write_other h s.mem v

/-- A second push leaves the byte of the first one. -/
theorem State.push_push_read_first (s : State) (hi lo : Byte) :
    ((s.push hi).push lo).mem.read (stackAddr s.sp) = hi := by
  obtain ⟨hne, _⟩ := sp_distinct s.sp
  rw [push_read_other (by simpa using hne.symm), push_read_same]

/-- The increment before a pull undoes the decrement after a push. -/
theorem State.pull_push_sp (s : State) (v : Byte) : (s.push v).pull.sp = s.sp :=
  BitVec.sub_add_cancel s.sp 1

theorem State.top_push (s : State) (v : Byte) : (s.push v).top = v := by
  rw [State.top, ← State.pull_sp, pull_push_sp, push_read_same]

end Sys2Proof.Machine

open Sys2Proof.Machine

/-- Settles O24: SP, SP minus 1 and SP plus 1 are counts modulo 256, so their addresses wrap in page one. -/
theorem pushAndPull : Obligations.PushAndPull := by
  intro s v hi lo
  have hup : (s.sp + 1).toNat = (s.sp.toNat + 1) % 256 := BitVec.toNat_add s.sp 1
  have hdown : (s.sp - 1).toNat = (s.sp.toNat + 255) % 256 := toNat_sub_one s.sp
  have hhere : s.sp.toNat = s.sp.toNat % 256 := (Nat.mod_eq_of_lt s.sp.isLt).symm
  simp only [ofNat_eq_stackAddr hhere, ofNat_eq_stackAddr hup, ofNat_eq_stackAddr hdown]
  refine ⟨⟨hdown, s.push_read_same v, fun a ha => State.push_read_other ha v, s.push_bus v⟩,
    ⟨s.push_push_read_first hi lo, (s.push hi).push_read_same lo⟩,
    ⟨hup, rfl, s.pull_mem, s.pull_bus⟩, s.top_push v, s.pull_push_sp v⟩

end

