-- ==== Sys2Proof/Proofs/NothingFaults.lean ====
section
/-! PROOF. No instruction, event or run raises an exception (60_exceptions.md R222): what every meaning
answers and leaves, then the step and the run. -/

namespace Sys2Proof.Machine

/-- What the meaning of `i` leaves of `s` whatever it does: PC if it is no writer of it, the opcode, and
the bus transactions made before it. -/
structure ExecFrame (i : Instr) (s t : State) : Prop where
  pc : i.mnemonic ∉ pcWriters → t.pc = s.pc
  opcode : t.opcode = s.opcode
  bus : s.bus <+: t.bus

theorem ExecFrame.trans {i : Instr} {s t u : State} (hst : ExecFrame i s t) (htu : ExecFrame i t u) :
    ExecFrame i s u where
  pc h := (htu.pc h).trans (hst.pc h)
  opcode := htu.opcode.trans hst.opcode
  bus := hst.bus.trans htu.bus

/-! The resolver, `fetch()`, the extra cycle: what surrounds an operation keeps the frame. -/

theorem execFrame_resolve (i : Instr) (s : State) (o : Operand) : ExecFrame i s (s.resolve o) :=
  ⟨by simp, by simp, by simp [State.resolve_bus]⟩

theorem execFrame_fetchOperand (i : Instr) (s : State) (o : Operand) :
    ExecFrame i s (s.fetchOperand o) := by
  refine ⟨by simp, by simp, ?_⟩
  cases o <;> simp [State.fetchOperand]

theorem execFrame_addExtra (i : Instr) (s : State) (both : Bool) : ExecFrame i s (s.addExtra both) :=
  ⟨by simp, by simp, by simp⟩

/-- An instruction without an operand read is framed as its operation is. -/
theorem ExecFrame.operate {i : Instr} {s t : State} (o : Operand) (h : ExecFrame i (s.resolve o) t)
    (both : Bool) : ExecFrame i s (t.addExtra both) :=
  (execFrame_resolve i s o).trans (h.trans (execFrame_addExtra i t both))

/-- An instruction with an operand read is framed as its operation is. -/
theorem ExecFrame.operateOn {i : Instr} {s t : State} (o : Operand)
    (h : ExecFrame i ((s.resolve o).fetchOperand o) t) (both : Bool) :
    ExecFrame i s (t.addExtra both) :=
  ((execFrame_fetchOperand i _ o).trans h).operate o both

/-! The operations. -/

theorem execFrame_shiftTo (i : Instr) (s : State) (o : Operand) (out : Bool) (v : Byte) :
    ExecFrame i s (s.shiftTo o out v) := by
  refine ⟨by simp, by simp, ?_⟩
  cases o <;> simp [State.shiftTo, State.writeback]

theorem execFrame_storeZN (i : Instr) (s : State) (v : Byte) : ExecFrame i s (s.storeZN v) :=
  ⟨by simp [State.storeZN], by simp [State.storeZN], by simp [State.storeZN]⟩

/-- A writer of PC need only keep the opcode and the bus transactions before it. -/
theorem ExecFrame.of_mem_pcWriters {i : Instr} {s t : State} (h : i.mnemonic ∈ pcWriters)
    (hopcode : t.opcode = s.opcode) (hbus : s.bus <+: t.bus) : ExecFrame i s t :=
  ⟨fun hn => absurd h hn, hopcode, hbus⟩

/-- Every instruction from every state answers a next state, with that frame. -/
theorem exec_yields_execFrame (i : Instr) (s : State) : Yields i s (ExecFrame i s) := by
  cases i with
  | adc o | sbc o | and o | ora o | eor o | bit o | cmp o | cpx o | cpy o | lda o | ldx o | ldy o =>
    exact ⟨_, rfl, .operateOn o ⟨by simp, by simp, by simp⟩ _⟩
  | asl o | lsr o | rol o | ror o => exact ⟨_, rfl, .operateOn o (execFrame_shiftTo _ _ o _ _) _⟩
  | inc o | dec o => exact ⟨_, rfl, .operateOn o (execFrame_storeZN _ _ _) _⟩
  | sta o | stx o | sty o | und _ _ o => exact ⟨_, rfl, .operate o ⟨by simp, by simp, by simp⟩ _⟩
  | inx | iny | dex | dey | tax | tay | txa | tya | tsx | txs | pha | pla | php | plp
  | clc | sec | cli | sei | cld | sed | clv | nop =>
    exact ⟨_, rfl, .operate .imp ⟨by simp, by simp, by simp⟩ _⟩
  | bcc rel8 | bcs rel8 | beq rel8 | bne rel8 | bpl rel8 | bmi rel8 | bvc rel8 | bvs rel8 =>
    exact ⟨_, rfl, .operate (.rel rel8) (.of_mem_pcWriters (by simp [Instr.mnemonic, pcWriters])
      (by simp) (by simp)) _⟩
  | jmp o =>
    exact ⟨_, rfl, .operate o (.of_mem_pcWriters (by simp [Instr.mnemonic, pcWriters])
      (by simp) (by simp)) _⟩
  | jsr target =>
    exact ⟨_, rfl, .operate (.abs target) (.of_mem_pcWriters (by simp [Instr.mnemonic, pcWriters])
      (by simp) (by simp [State.pushWord_bus])) _⟩
  | rts =>
    exact ⟨_, rfl, .operate .imp (.of_mem_pcWriters (by decide)
      (by simp) (by simp [State.pullWord_bus])) _⟩
  | brk =>
    exact ⟨_, rfl, .operate .imp (.of_mem_pcWriters (by decide)
      (by simp) (by simp [State.enterHandler_bus, irqVector])) _⟩
  | rti =>
    exact ⟨_, rfl, .operate .imp (.of_mem_pcWriters (by decide)
      (by simp) (by simp [State.returnFromHandler_bus])) _⟩

/-- Every event from every state answers a next state. -/
theorem stepWith_next (c : Config) (s : State) : ∃ t, stepWith c s = .next t := by
  cases h : nextEvent s with
  | clock =>
    by_cases hc : s.cycles = 0
    · obtain ⟨t, ht, _⟩ := exec_yields_execFrame (instrAt c s.beginEvent) (s.beginEvent.beginInstr c)
      exact ⟨t.countDown, by rw [stepWith_begin c h hc, ht, finishClock]⟩
    · exact ⟨_, stepWith_countDown c h hc⟩
  | reset | irq | nmi => exact ⟨_, by rw [stepWith, h, deliver]⟩

/-- Every run is safe. -/
theorem safeFor (c : Config) (k : Nat) (s : State) : SafeFor c k s := by
  induction k generalizing s with
  | zero => exact ⟨s, rfl⟩
  | succ k ih =>
    obtain ⟨t, ht⟩ := stepWith_next c s
    obtain ⟨u, hu⟩ := ih t
    exact ⟨u, by rw [runSteps, ht]; exact hu⟩

end Sys2Proof.Machine

open Sys2Proof Sys2Proof.Machine

/-- Settles O42: every meaning answers a next state, so every event and every run does; PC is in the
frame of every instruction that is no writer of it. -/
theorem nothingFaults : Obligations.NothingFaults := by
  refine ⟨fun i s => (exec_yields_execFrame i s).imp fun t ht => ht.1, stepWith_next, safeFor, ?_⟩
  intro i s t ht hpc
  obtain ⟨u, hu, hframe⟩ := exec_yields_execFrame i s
  obtain rfl : t = u := by simpa [ht] using hu
  by_contra hi
  exact hpc (hframe.pc hi)

end

