-- ==== Sys2Proof/Proofs/Countdown.lean ====
section
/-! PROOF. The `Clock` event at both values of the counter (60_exceptions.md R224, R225, R227). -/

namespace Sys2Proof.Machine

/-- The first bus transaction of an instruction is the opcode read at PC. -/
theorem beginInstr_bus_starts_with_opcodeRead (c : Config) {s : State} (h : s.bus = []) :
    [.read s.pc (s.mem.read s.pc)] <+: (s.beginInstr c).bus := by
  simp [State.beginInstr_bus, h]

/-- A `Clock` at an instruction boundary leaves the opcode at PC, read before any other transaction. -/
theorem stepWith_begin_opcode (c : Config) {s : State} (h : nextEvent s = .clock) (hc : s.cycles = 0) :
    ∃ t, stepWith c s = .next t ∧ t.opcode = s.mem.read s.pc ∧
      [.read s.pc (s.mem.read s.pc)] <+: t.bus := by
  obtain ⟨t, ht, hframe⟩ := exec_yields_execFrame (instrAt c s.beginEvent) (s.beginEvent.beginInstr c)
  refine ⟨t.countDown, by rw [stepWith_begin c h hc, ht, finishClock], ?opcode, ?bus⟩
  case opcode => simpa [State.countDown] using hframe.opcode
  case bus => exact (beginInstr_bus_starts_with_opcodeRead c s.beginEvent_bus).trans hframe.bus

end Sys2Proof.Machine

open Sys2Proof Sys2Proof.Machine

/-- Settles O41: the countdown is the model's own law; at zero, the first transaction is the
opcode read, which every meaning keeps in front. -/
theorem countdownOnlyCountsDown : Obligations.CountdownOnlyCountsDown := by
  refine fun s h => ⟨stepWith_countDown Config.default h, fun hc => ?_⟩
  obtain ⟨t, ht, hopcode, rest, hbus⟩ := stepWith_begin_opcode Config.default h hc
  exact ⟨t, ht, hopcode, by rw [← hbus]; rfl⟩

end

