-- ==== Sys2Proof/Proofs/EncodeDecode.lean ====
section
/-! PROOF. Decoder and encoder are inverse to each other (30_encoding.md R80 to R93), in both directions. -/

namespace Sys2Proof

/-- An instruction other than UND is its operation with its operand. -/
theorem buildInstr_mnemonic_operand (c : Config) (op : Byte) {i : Instr} (h : i.mnemonic ≠ .und) :
    buildInstr c op i.mnemonic i.operand = i := by
  cases i with
  | und => exact absurd rfl h
  | _ => rfl

/-- The encoding of an instruction other than UND, with the opcode the table gives. -/
theorem encode_of_opcodeOf {i : Instr} {op : Byte} (h : i.mnemonic ≠ .und)
    (hop : opcodeOf i.mnemonic i.operand.mode = some op) :
    encode i = op :: encodeOperand i.operand := by
  cases i with
  | und => exact absurd rfl h
  | _ => simp only [encode, hop]

/-- The operand bytes a mode was assembled from. -/
theorem encodeOperand_assemble (m : Mode) (b1 b2 : Byte) :
    encodeOperand (assemble m b1 b2) = [b1, b2].take (operandBytes m) := by
  cases m <;> simp [assemble, encodeOperand, operandBytes]

/-- An UND is encoded under its own opcode, which has the UND row. -/
theorem decode_encode_und (c : Config) {op : Byte} {extra : Bool} {o : Operand} (rest : List Byte)
    (h : undWellFormed c op extra o = true) :
    decode c (encode (.und op extra o) ++ rest) = .ok (.und op extra o, rest) := by
  obtain ⟨⟨hop, hmode⟩, rfl⟩ : (op ∈ undefinedOpcodes ∧ o.mode = c.undefMode op) ∧
      extra = c.undefExtra op := by simpa [undWellFormed] using h
  have hrow := describe_of_mem_undefined c hop
  rw [encode, decode_encodeOperand c op o rest (by rw [hrow, hmode]), hrow, buildInstr]

/-- Every other well-formed instruction is encoded under the opcode the table gives it. -/
theorem decode_encode_documented (c : Config) {i : Instr} (rest : List Byte) (hne : i.mnemonic ≠ .und)
    (h : i.mnemonic.modes.contains i.operand.mode = true) :
    decode c (encode i ++ rest) = .ok (i, rest) := by
  obtain ⟨op, hop⟩ := opcodeOf_listed (List.contains_iff_mem.mp h)
  obtain ⟨hoperation, hmode⟩ := describe_opcodeOf hop c
  rw [encode_of_opcodeOf hne hop, decode_encodeOperand c op i.operand rest hmode, hoperation,
    buildInstr_mnemonic_operand c op hne]

/-- What the decoder answers is encoded under the opcode it was decoded from. -/
theorem encode_decodeBytes (c : Config) (op b1 b2 : Byte) :
    encode (decodeBytes c op b1 b2) = op :: encodeOperand (assemble (describe c op).mode b1 b2) := by
  rcases describe_cases c op with ⟨_, _, _, hne, _, hop⟩ | ⟨hund, hrow⟩
  · rw [← decodeBytes_operand]
    apply encode_of_opcodeOf
    · rwa [decodeBytes_mnemonic]
    · rwa [decodeBytes_mnemonic, decodeBytes_mode]
  · rw [decodeBytes_of_mem_undefined c b1 b2 hund, hrow, encode]

end Sys2Proof

open Sys2Proof

/-- Settles O1: an UND is decoded by its own opcode, any other instruction by the one the table gives. -/
theorem decodeOfEncodeIsIdentity : Obligations.DecodeOfEncodeIsIdentity := by
  intro c i rest h
  by_cases hne : i.mnemonic = .und
  · cases i with
    | und op extra o => exact decode_encode_und c rest h
    | _ => nomatch hne
  · exact decode_encode_documented c rest hne (by rwa [← Instr.wellFormed_of_ne_und c hne])

/-- Settles O2: the opcode byte comes first, and the operand's bytes are as many as its mode asks for. -/
theorem encodeOfDecodeGivesTheBytes : Obligations.EncodeOfDecodeGivesTheBytes := by
  intro c op b1 b2
  rw [encode_decodeBytes, encodeOperand_assemble, Instr.length, decodeBytes_mode, Nat.add_comm,
    List.take_succ_cons]

/-- Settles O4: the decoder run on each of the fourteen words. -/
theorem specWordsDecode : Obligations.SpecWordsDecode := by
  refine ⟨?_, ?_, ?_, ?_, ?_, ?_, ?_, ?_, ?_, ?_, ?_, ?_, ?_, ?_⟩ <;> decide +kernel

/-- Settles O54: the table is looked up for each of the 256 bytes. -/
theorem defaultTableHasRelOnlyForBranches : Obligations.DefaultTableHasRelOnlyForBranches := by
  unfold Obligations.DefaultTableHasRelOnlyForBranches
  decide +kernel

end

