-- ==== Sys2Proof/Proofs/IndexedResolvers.lean ====
section
/-! PROOF. The resolvers with an index sum or a pointer, ABX, ABY, IND, IZX and IZY (40_addressing_modes.md
R107 to R111), the page-cross signal (R115) and `fetch()` after a resolver (R113). -/

namespace Sys2Proof.Machine

/-! Index sums and pointer addresses as numbers. -/

theorem mkWord_add_zext16 (h l i : Byte) :
    mkWord h l + zext16 i = BitVec.ofNat 16 ((h.toNat * 256 + l.toNat + i.toNat) % 65536) := by
  apply BitVec.eq_of_toNat_eq
  rw [BitVec.toNat_add, mkWord_toNat, zext16_toNat, BitVec.toNat_ofNat]
  omega

/-- An index sum leaves the page of its base exactly when the low bytes carry. -/
theorem hiByte_mkWord_add_zext16 (h l i : Byte) :
    (hiByte (mkWord h l + zext16 i) != hiByte (mkWord h l)) =
      decide (256 ≤ l.toNat + i.toNat) := by
  have hh := h.isLt
  have hl := l.isLt
  have hi := i.isLt
  rw [Bool.eq_iff_iff, bne_iff_ne, decide_eq_true_iff, ne_eq, ← BitVec.toNat_inj, hiByte_toNat,
    hiByte_toNat, BitVec.toNat_add, mkWord_toNat, zext16_toNat]
  omega

/-- A pointer address in page zero, the offset modulo 256. -/
theorem zext16_of_toNat {b : Byte} {n : Nat} (h : b.toNat = n % 256) :
    zext16 b = BitVec.ofNat 16 (n % 256) := by
  rw [zext16_eq_ofNat, h]

theorem mkWord_and_page (h l : Byte) : mkWord h l &&& 0xFF00 = mkWord h 0 := by
  have hmask : (0xFF00 : Word) = BitVec.allOnes 8 ++ 0#8 := by decide
  rw [hmask, mkWord, BitVec.and_append, BitVec.and_allOnes, BitVec.and_zero]
  rfl

/-- The high byte of an indirect pointer stays in the page of the low one. -/
theorem indirectHigh_mkWord (h l : Byte) :
    indirectHigh (mkWord h l) =
      if l.toNat = 255 then BitVec.ofNat 16 (h.toNat * 256) else mkWord h l + 1 := by
  have hlast : l = 0xFF ↔ l.toNat = 255 := by bv_omega
  have hpage : mkWord h 0 = BitVec.ofNat 16 (h.toNat * 256) := by simp [mkWord_eq_ofNat]
  rw [indirectHigh, loByte_mkWord, mkWord_and_page, hpage]
  simp only [hlast]

/-! The resolvers. -/

/-- ABX, ABY and IND: two operand bytes, then the pointer reads if the mode makes them. -/
theorem resolveMode_twoBytes (s : State) {m : Mode} (h : m ∈ [Mode.abx, .aby, .ind]) :
    let o := assemble m (s.mem.read s.pc) (s.mem.read (s.pc + 1))
    resolveMode m s =
      { s with
        addrAbs := effectiveAddress o s
        pc := s.pc + 2
        bus := s.bus ++ [.read s.pc (s.mem.read s.pc), .read (s.pc + 1) (s.mem.read (s.pc + 1))] ++
          (pointerAddrs o s).map (fun a => .read a (s.mem.read a)) } := by
  cases m with
  | abx | aby | ind =>
    intro o
    rw [resolveMode_of_address s (by decide), State.readOperandBytes_two s rfl]
  | _ => exact absurd h (by decide)

/-- IZX and IZY: one operand byte, then the two pointer reads. -/
theorem resolveMode_pageZeroPointer (s : State) {m : Mode} (h : m ∈ [Mode.izx, .izy]) :
    let o := assemble m (s.mem.read s.pc) (s.mem.read (s.pc + 1))
    resolveMode m s =
      { s with
        addrAbs := effectiveAddress o s
        pc := s.pc + 1
        bus := s.bus ++ [.read s.pc (s.mem.read s.pc)] ++
          (pointerAddrs o s).map (fun a => .read a (s.mem.read a)) } := by
  cases m with
  | izx | izy =>
    intro o
    rw [resolveMode_of_address s (by decide), State.readOperandBytes_one s rfl (by decide)]
  | _ => exact absurd h (by decide)

/-! The signal: only an index sum can make it, and each of the three index sums does. -/

theorem pageCross_mode {o : Operand} {s : State} (h : pageCross o s = true) :
    o.mode = .abx ∨ o.mode = .aby ∨ o.mode = .izy := by
  cases o with
  | abx => exact .inl rfl
  | aby => exact .inr (.inl rfl)
  | izy => exact .inr (.inr rfl)
  | _ => nomatch h

/-- A state in which an index sum leaves the page from every base that ends in 0xFF: X and Y are 1, and the
page-zero pointer at 0x10 holds 0x00FF. -/
def crossingState : State :=
  { State.reset with x := 1, y := 1, mem := [(0x10, 0xFF)] }

theorem exists_pageCross {m : Mode} (h : m ∈ [Mode.abx, .aby, .izy]) :
    ∃ (o : Operand) (s : State), o.mode = m ∧ pageCross o s = true := by
  cases m with
  | abx => exact ⟨.abx 0x00FF, crossingState, rfl, by decide⟩
  | aby => exact ⟨.aby 0x00FF, crossingState, rfl, by decide⟩
  | izy => exact ⟨.izy 0x10, crossingState, rfl, by decide⟩
  | _ => exact absurd h (by decide)

/-! `fetch()`. -/

/-- The operand byte of IMM, which came with the instruction, is the one at the resolved address. -/
theorem resolveMode_imm_fetchOperand (s : State) :
    (resolveMode .imm s).fetchOperand (.imm (s.mem.read s.pc)) =
      { resolveMode .imm s with
        fetched := s.mem.read (resolveMode .imm s).addrAbs
        bus := (resolveMode .imm s).bus ++
          [.read (resolveMode .imm s).addrAbs (s.mem.read (resolveMode .imm s).addrAbs)] } := by
  rw [resolveMode_imm]
  rfl

/-- Every other mode but IMP reads the byte at `addr_abs`. -/
theorem fetchOperand_of_ne {o : Operand} (r : State) (himp : o ≠ .imp) (himm : o.mode ≠ .imm) :
    r.fetchOperand o =
      { r with
        fetched := r.mem.read r.addrAbs
        bus := r.bus ++ [.read r.addrAbs (r.mem.read r.addrAbs)] } := by
  cases o with
  | imp => exact absurd rfl himp
  | imm => exact absurd rfl himm
  | _ => rfl

@[simp] theorem resolveMode_mem (m : Mode) (s : State) : (resolveMode m s).mem = s.mem := by
  simp [resolveMode]

end Sys2Proof.Machine

open Sys2Proof Sys2Proof.Machine

/-- Settles O6: the index sum as a number, and the carry out of its low byte. -/
theorem indexedAbsoluteResolvers : Obligations.IndexedAbsoluteResolvers := by
  intro s b1 b2 reads
  refine ⟨⟨?abx, ?abxSignal⟩, ?aby, ?abySignal⟩
  case abx =>
    rw [resolveMode_twoBytes s (by decide), ← mkWord_add_zext16]
    simp [assemble, effectiveAddress, pointerAddrs, reads, b1, b2]
  case aby =>
    rw [resolveMode_twoBytes s (by decide), ← mkWord_add_zext16]
    simp [assemble, effectiveAddress, pointerAddrs, reads, b1, b2]
  case abxSignal => exact hiByte_mkWord_add_zext16 b2 b1 s.x
  case abySignal => exact hiByte_mkWord_add_zext16 b2 b1 s.y

/-- Settles O7: the pointer's two addresses as numbers, the second one in the page of the first. -/
theorem indirectResolverStaysInPage : Obligations.IndirectResolverStaysInPage := by
  intro s lo hi ptr high
  have hptr : mkWord hi lo = ptr := mkWord_eq_ofNat hi lo
  have hhigh : indirectHigh (mkWord hi lo) = high := by rw [indirectHigh_mkWord, hptr]
  refine ⟨?_, modeSignal_eq_false s (by decide)⟩
  rw [resolveMode_twoBytes s (by decide), ← mkWord_eq_ofNat]
  simp [assemble, effectiveAddress, pointerAddrs, lo, hi, ← hhigh, ← hptr]

/-- Settles O8: the pointer's two addresses are offsets modulo 256 in page zero; IZY's sum is an index sum
on the word they hold. -/
theorem pageZeroPointerResolvers : Obligations.PageZeroPointerResolvers := by
  intro s t zero byte traffic
  have hx : zext16 (s.mem.read s.pc + s.x) = zero (t + s.x.toNat) := zext16_add _ _
  have hx1 : zext16 (s.mem.read s.pc + s.x + 1) = zero (t + s.x.toNat + 1) :=
    zext16_of_toNat (by simp [t, BitVec.toNat_add])
  have hy : zext16 (s.mem.read s.pc) = zero t :=
    zext16_of_toNat (Nat.mod_eq_of_lt (s.mem.read s.pc).isLt).symm
  have hy1 : zext16 (s.mem.read s.pc + 1) = zero (t + 1) := zext16_of_toNat (BitVec.toNat_add _ 1)
  refine ⟨⟨?izx, modeSignal_eq_false s (by decide)⟩, ?izy, ?izySignal⟩
  case izx =>
    rw [resolveMode_pageZeroPointer s (by decide), ← mkWord_eq_ofNat]
    simp [assemble, effectiveAddress, pointerAddrs, traffic, ← hx, ← hx1]
  case izy =>
    rw [resolveMode_pageZeroPointer s (by decide), ← mkWord_add_zext16]
    simp [assemble, effectiveAddress, indexBase, pointerAddrs, traffic, ← hy, ← hy1]
  case izySignal =>
    have hlow : byte t = (s.mem.read (zext16 (s.mem.read s.pc))).toNat := by rw [hy]
    rw [hlow]
    exact hiByte_mkWord_add_zext16 (s.mem.read (zext16 (s.mem.read s.pc + 1))) _ s.y

/-- Settles O10: IMP takes A, IMM the byte that lies at `addr_abs`, the others read there. -/
theorem fetchReadsTheOperandOnce : Obligations.FetchReadsTheOperandOnce := by
  intro m s _ o r
  split
  · next himp => subst himp; rfl
  · next himp =>
    by_cases himm : m = .imm
    · subst himm
      exact resolveMode_imm_fetchOperand s
    · have hmode : o.mode = m := assemble_mode ..
      rw [fetchOperand_of_ne r (fun e => himp (by rw [← hmode, e]; rfl)) (by rwa [hmode]),
        resolveMode_mem]

end

