-- ==== Sys2Proof/Proofs/OperationFrames.lean ====
section
/-! PROOF. The frame of every shared operation: which registers, flags and memory bytes it may write. The
results of the instructions and the tables of writers (10_state.md R21 to R26) are read off these. -/

namespace Sys2Proof.Machine

theorem Yields.imp {i : Instr} {s : State} {P Q : State → Prop} (h : Yields i s P)
    (hPQ : ∀ t, P t → Q t) : Yields i s Q := by
  obtain ⟨t, ht, hP⟩ := h
  exact ⟨t, ht, hPQ t hP⟩

/-! Frames as relations: weakening and composition. -/

theorem Frame.mono {regs regs' : List Reg} {flags flags' : List Flag} {stored stored' : List Word}
    {s t : State} (h : Frame regs flags stored s t) (hr : regs ⊆ regs') (hf : flags ⊆ flags')
    (hm : stored ⊆ stored') : Frame regs' flags' stored' s t := by
  obtain ⟨hreg, hflag, hmem⟩ := h
  exact ⟨fun r hn => hreg r fun hc => hn (hr hc), fun f hn => hflag f fun hc => hn (hf hc),
    fun a hn => hmem a fun hc => hn (hm hc)⟩

theorem Frame.trans {regs regs' : List Reg} {flags flags' : List Flag} {stored stored' : List Word}
    {s t u : State} (hst : Frame regs flags stored s t) (htu : Frame regs' flags' stored' t u) :
    Frame (regs ++ regs') (flags ++ flags') (stored ++ stored') s u := by
  obtain ⟨hreg, hflag, hmem⟩ := hst
  obtain ⟨hreg', hflag', hmem'⟩ := htu
  simp only [Frame, List.mem_append, not_or]
  exact ⟨fun r hr => (hreg' r hr.2).trans (hreg r hr.1),
    fun f hf => (hflag' f hf.2).trans (hflag f hf.1), fun a ha => (hmem' a ha.2).trans (hmem a ha.1)⟩

/-- Nothing a frame speaks of changed. -/
theorem frame_of_eq {s t : State} (ha : t.a = s.a) (hx : t.x = s.x) (hy : t.y = s.y)
    (hsp : t.sp = s.sp) (hp : t.p = s.p) (hmem : t.mem = s.mem) : Frame [] [] [] s t := by
  refine ⟨fun r _ => ?_, fun f _ => ?_, fun a _ => by rw [hmem]⟩
  · cases r <;> assumption
  · rw [State.flag, State.flag, hp]

theorem frame_refl (s : State) : Frame [] [] [] s s := frame_of_eq rfl rfl rfl rfl rfl rfl

theorem Frame.then_unchanged {regs : List Reg} {flags : List Flag} {stored : List Word} {s t u : State}
    (h : Frame regs flags stored s t) (hu : Frame [] [] [] t u) : Frame regs flags stored s u :=
  (h.trans hu).mono (by simp) (by simp) (by simp)

theorem frame_resolve (s : State) (o : Operand) : Frame [] [] [] s (s.resolve o) :=
  frame_of_eq (by simp) (by simp) (by simp) (by simp) (by simp) (by simp)

theorem frame_addExtra (s : State) (both : Bool) : Frame [] [] [] s (s.addExtra both) :=
  frame_of_eq (by simp) (by simp) (by simp) (by simp) (by simp) (by simp)

/-! A frame speaks neither of PC nor of the counter. -/

theorem Frame.setCycles {regs : List Reg} {flags : List Flag} {stored : List Word} {s t : State}
    (h : Frame regs flags stored s t) (n : Byte) : Frame regs flags stored s (t.setCycles n) :=
  h.then_unchanged (frame_of_eq rfl rfl rfl rfl rfl rfl)

theorem Frame.setPc {regs : List Reg} {flags : List Flag} {stored : List Word} {s t : State}
    (h : Frame regs flags stored s t) (v : Word) : Frame regs flags stored s (t.setPc v) :=
  h.then_unchanged (frame_of_eq rfl rfl rfl rfl rfl rfl)

/-- The frame of an operation without an operand read is the frame of the operation itself. -/
theorem Frame.operate {regs : List Reg} {flags : List Flag} {stored : List Word} {o : Operand}
    {s t : State} (h : Frame regs flags stored (s.resolve o) t) (both : Bool) :
    Frame regs flags stored s (t.addExtra both) :=
  ((frame_resolve s o).trans h).then_unchanged (frame_addExtra t both)

/-! The writers of one field. -/

theorem frame_setA (s : State) (v : Byte) : Frame [.a] [] [] s (s.setA v) := by
  refine ⟨fun r hr => ?_, fun _ _ => rfl, fun _ _ => rfl⟩
  cases r with
  | a => simp at hr
  | x | y | sp => rfl

theorem frame_setSp (s : State) (v : Byte) : Frame [.sp] [] [] s (s.setSp v) := by
  refine ⟨fun r hr => ?_, fun _ _ => rfl, fun _ _ => rfl⟩
  cases r with
  | sp => simp at hr
  | a | x | y => rfl

theorem mem_allFlags (f : Flag) : f ∈ allFlags := by cases f <;> decide

theorem frame_setP (s : State) (v : Byte) : Frame [] allFlags [] s (s.setP v) := by
  refine ⟨fun r _ => ?_, fun f hf => ?_, fun _ _ => rfl⟩
  · cases r <;> rfl
  · exact absurd (mem_allFlags f) hf

theorem frame_setFlag (s : State) (f : Flag) (on : Bool) : Frame [] [f] [] s (s.setFlag f on) := by
  refine ⟨fun r _ => ?_, fun g hg => ?_, fun _ _ => rfl⟩
  · cases r <;> rfl
  · have hne : g ≠ f := by simpa using hg
    simp [hne]

theorem frame_loadX (s : State) (v : Byte) : Frame [.x] [.z, .n] [] s (s.loadX v) :=
  (frame_setX s v).setZN v

theorem frame_loadY (s : State) (v : Byte) : Frame [.y] [.z, .n] [] s (s.loadY v) :=
  (frame_setY s v).setZN v

/-! The flag computations, the shifts and the store of INC and DEC. -/

theorem frame_addWithCarry (s : State) (m : Byte) :
    Frame [.a] [.c, .z, .v, .n] [] s (s.addWithCarry m) := by
  refine ⟨fun r hr => ?_, fun f hf => ?_, fun _ _ => rfl⟩
  · cases r with
    | a => simp at hr
    | x | y | sp => rfl
  · have ⟨hc, hz, hv, hn⟩ : f ≠ .c ∧ f ≠ .z ∧ f ≠ .v ∧ f ≠ .n := by simpa using hf
    simp [hc, hz, hv, hn]

theorem frame_compareFlags (s : State) (reg m : Byte) :
    Frame [] [.c, .z, .n] [] s (s.compareFlags reg m) := by
  refine ⟨fun r _ => ?_, fun f hf => ?_, fun _ _ => rfl⟩
  · cases r <;> rfl
  · have ⟨hc, hz, hn⟩ : f ≠ .c ∧ f ≠ .z ∧ f ≠ .n := by simpa using hf
    simp [hc, hz, hn]

theorem frame_shiftFlags (s : State) (out : Bool) (v : Byte) :
    Frame [] [.c, .z, .n] [] s (s.shiftFlags out v) :=
  ((frame_setFlag s .c out).trans ((frame_refl _).setZN v)).mono (by simp) (by simp) (by simp)

theorem frame_writeback (s : State) (o : Operand) (v : Byte) :
    Frame (if o = .imp then [.a] else []) [] (if o = .imp then [] else [s.addrAbs]) s
      (s.writeback o v) := by
  by_cases h : o = .imp
  · subst h
    exact frame_setA s v
  · rw [State.writeback_mem s o v h, if_neg h, if_neg h]
    exact frame_busWrite s s.addrAbs v

theorem frame_shiftTo (s : State) (o : Operand) (out : Bool) (v : Byte) :
    Frame (if o = .imp then [.a] else []) [.c, .z, .n] (if o = .imp then [] else [s.addrAbs]) s
      (s.shiftTo o out v) :=
  (frame_shiftFlags s out v).trans (frame_writeback (s.shiftFlags out v) o v)

theorem frame_storeZN (s : State) (v : Byte) : Frame [] [.z, .n] [s.addrAbs] s (s.storeZN v) :=
  (frame_busWrite s s.addrAbs v).setZN v

/-! The stack, the handlers and the branch. -/

theorem frame_push (s : State) (v : Byte) : Frame [.sp] [] [stackAddr s.sp] s (s.push v) :=
  (frame_busWrite s (stackAddr s.sp) v).trans (frame_setSp _ _)

theorem frame_pull (s : State) : Frame [.sp] [] [] s s.pull := frame_setSp s _

theorem frame_pushWord (s : State) (w : Word) :
    Frame [.sp] [] [stackAddr s.sp, stackAddr (s.sp - 1)] s (s.pushWord w) :=
  ((frame_push s _).trans (frame_push _ _)).mono (by simp) (by simp) (by simp)

theorem frame_pullWord (s : State) : Frame [.sp] [] [] s s.pullWord :=
  ((frame_pull s).trans (frame_pull _)).mono (by simp) (by simp) (by simp)

/-- An entry changes the flags that its two changes of P do not give back. -/
theorem frame_enterHandler {flags : List Flag} (s : State) (vector : Word)
    {before after : Byte → Byte}
    (h : ∀ f, f ∉ flags → getFlag f (after (before s.p)) = getFlag f s.p) :
    Frame [.sp] flags [stackAddr s.sp, stackAddr (s.sp - 1), stackAddr (s.sp - 2)] s
      (s.enterHandler vector before after) := by
  refine ⟨fun r hr => ?_, fun f hf => ?_, fun a ha => ?_⟩
  · cases r with
    | sp => simp at hr
    | a | x | y => simp [State.reg]
  · simpa [getFlag_p] using h f hf
  · have ⟨h0, h1, h2⟩ :
        a ≠ stackAddr s.sp ∧ a ≠ stackAddr (s.sp - 1) ∧ a ≠ stackAddr (s.sp - 2) := by simpa using ha
    rw [State.enterHandler_read, if_neg h2, if_neg h1, if_neg h0]

theorem frame_returnFromHandler (s : State) : Frame [.sp] allFlags [] s s.returnFromHandler := by
  refine ⟨fun r hr => ?_, fun f hf => ?_, fun a _ => by simp⟩
  · cases r with
    | sp => simp at hr
    | a | x | y => simp [State.reg]
  · exact absurd (mem_allFlags f) hf

theorem frame_branch (s : State) (taken : Bool) : Frame [] [] [] s (s.branch taken) :=
  frame_of_eq (by simp) (by simp) (by simp) (by simp) (by simp) (by simp)

end Sys2Proof.Machine

end

