-- ==== Sys2Proof/Proofs/AddSubtractCompare.lean ====
section
/-! PROOF. ADC and SBC (41_arithmetic.md R121, R122) as one addition, whose V is signed overflow; CMP, CPX
and CPY (44_compare.md R140). -/

namespace Sys2Proof.Machine

/-! The numbers behind the flags. -/

theorem flagNat_le_one (s : State) (f : Flag) : s.flagNat f ≤ 1 := Bool.toNat_le _

theorem beq_zero_eq_decide {b : Byte} {n : Nat} (h : b.toNat = n) : (b == 0) = decide (n = 0) := by
  simp [beq_eq_decide, ← h, ← BitVec.toNat_inj]

theorem getLsbD_seven_eq_decide {b : Byte} {n : Nat} (h : b.toNat = n) :
    b.getLsbD 7 = decide (128 ≤ n) := by
  rw [getLsbD_seven, h]

/-- The one's complement that SBC adds. -/
theorem toNat_xor_ones (b : Byte) : (b ^^^ 0xFF).toNat = 255 - b.toNat := by
  have hones : (0xFF : Byte) = BitVec.allOnes 8 := by decide
  rw [hones, BitVec.xor_allOnes, BitVec.toNat_not]

theorem toInt_xor_ones (b : Byte) : (b ^^^ 0xFF).toInt = -1 - b.toInt := by
  have := b.isLt
  rw [BitVec.toInt_eq_toNat_cond, BitVec.toInt_eq_toNat_cond, toNat_xor_ones]
  split <;> split <;> omega

/-- V of SBC, spelled with the operand itself. -/
theorem addOverflow_xor_ones (a m r : Byte) :
    addOverflow a (m ^^^ 0xFF) r = ((a ^^^ m) &&& (a ^^^ r)).getLsbD 7 := by
  have hones : (0xFF : Byte) = BitVec.allOnes 8 := by decide
  have hnot : ~~~(a ^^^ ~~~m) = a ^^^ m := by simp [← BitVec.not_xor_right]
  rw [addOverflow, hones, BitVec.xor_allOnes, hnot]

/-- Both operands have the same sign and the low byte of the sum the other, exactly when the signed sum
does not fit in a byte. -/
theorem addOverflow_eq_decide (a m : Byte) {c : Nat} (hc : c ≤ 1) :
    addOverflow a m (BitVec.ofNat 8 (a.toNat + m.toNat + c)) =
      decide (a.toInt + m.toInt + (c : Int) < -128 ∨ 127 < a.toInt + m.toInt + (c : Int)) := by
  have ha := a.isLt
  have hm := m.isLt
  have hsigns (r : Byte) : addOverflow a m r = true ↔
      (128 ≤ a.toNat ↔ 128 ≤ m.toNat) ∧ ¬(128 ≤ a.toNat ↔ 128 ≤ r.toNat) := by
    have hbits : addOverflow a m r =
        (!(a.getLsbD 7 ^^ m.getLsbD 7) && (a.getLsbD 7 ^^ r.getLsbD 7)) := by simp [addOverflow]
    rw [hbits, getLsbD_seven, getLsbD_seven, getLsbD_seven]
    simp
  rw [Bool.eq_iff_iff, hsigns, decide_eq_true_iff, BitVec.toNat_ofNat, BitVec.toInt_eq_toNat_cond,
    BitVec.toInt_eq_toNat_cond]
  split <;> split <;> omega

/-! The addition. -/

/-- What an addition of `m` and the carry to A leaves. -/
def AddLeaves (s : State) (m : Byte) (t : State) : Prop :=
  let sum := s.a.toNat + m.toNat + s.flagNat .c
  t.a = BitVec.ofNat 8 sum ∧ t.flag .c = decide (255 < sum) ∧ t.flag .z = decide (sum % 256 = 0) ∧
  t.flag .v = addOverflow s.a m t.a ∧ t.flag .n = decide (128 ≤ sum % 256) ∧
  Frame [.a] [.c, .z, .v, .n] [] s t

/-- An instruction that adds a byte computed from its operand. -/
theorem yields_addLeaves {i : Instr} {o : Operand} {s : State} (f : Byte → Byte)
    (h : exec i s = operateOn true o s (fun r => r.addWithCarry (f r.fetched))) :
    Yields i s (AddLeaves s (f (operandValue o s))) := by
  have hsum (m : Byte) : ((s.resolve o).fetchOperand o).carrySum m =
      s.a.toNat + m.toNat + s.flagNat .c := by simp [State.carrySum, State.flagNat]
  refine ⟨_, h, by simp [hsum], by simp [hsum], ?z, by simp, ?n, (frame_addWithCarry _ _).operateOn _⟩
  case z => simpa [hsum] using beq_zero_eq_decide (BitVec.toNat_ofNat _ 8)
  case n => simpa [hsum] using getLsbD_seven_eq_decide (BitVec.toNat_ofNat _ 8)

theorem yields_adc (o : Operand) (s : State) : Yields (.adc o) s (AddLeaves s (operandValue o s)) :=
  yields_addLeaves id rfl

theorem yields_sbc (o : Operand) (s : State) :
    Yields (.sbc o) s (AddLeaves s (operandValue o s ^^^ 0xFF)) :=
  yields_addLeaves (· ^^^ 0xFF) rfl

/-- V after an addition is signed overflow. -/
theorem AddLeaves.overflow {s t : State} {m : Byte} (h : AddLeaves s m t) :
    t.flag .v = decide (s.a.toInt + m.toInt + (s.flagNat .c : Int) < -128 ∨
      127 < s.a.toInt + m.toInt + (s.flagNat .c : Int)) := by
  obtain ⟨ha, _, _, hv, _⟩ := h
  rw [hv, ha, addOverflow_eq_decide s.a m (flagNat_le_one s .c)]

/-! The compare. -/

/-- What a compare of `reg` with a byte of value `m` leaves. -/
def CompareLeaves (reg : Byte) (m : Nat) (s t : State) : Prop :=
  t.flag .c = decide (m ≤ reg.toNat) ∧ t.flag .z = decide (reg.toNat = m) ∧
  t.flag .n = decide (128 ≤ (reg.toNat + 256 - m) % 256) ∧ t.pc = s.pc ∧
  Frame [] [.c, .z, .n] [] s t

theorem toNat_sub_byte (reg m : Byte) : (reg - m).toNat = (reg.toNat + 256 - m.toNat) % 256 := by
  have := m.isLt
  rw [BitVec.toNat_sub]
  omega

theorem compareLeaves_compareFlags (o : Operand) (s : State) (reg m : Byte) (both : Bool) :
    CompareLeaves reg m.toNat s
      ((((s.resolve o).fetchOperand o).compareFlags reg m).addExtra both) := by
  have hr := reg.isLt
  have hm := m.isLt
  refine ⟨by simp, ?z, ?n, by simp, (frame_compareFlags _ _ _).operateOn _⟩
  case z =>
    have hzero : (reg.toNat + 256 - m.toNat) % 256 = 0 ↔ reg.toNat = m.toNat := by omega
    simpa [hzero] using beq_zero_eq_decide (toNat_sub_byte reg m)
  case n => simpa using getLsbD_seven_eq_decide (toNat_sub_byte reg m)

/-- An instruction that compares a register with its operand. -/
theorem yields_compareLeaves {i : Instr} {o : Operand} {s : State} {sig : Bool} (reg : State → Byte)
    (hreg : reg ((s.resolve o).fetchOperand o) = reg s)
    (h : exec i s = operateOn sig o s (fun r => r.compareFlags (reg r) r.fetched)) :
    Yields i s (CompareLeaves (reg s) (operandValue o s).toNat s) := by
  refine ⟨_, h, ?_⟩
  simpa only [hreg, State.fetched_fetchOperand_resolve] using
    compareLeaves_compareFlags o s (reg s) (operandValue o s) (pageCross o s && sig)

end Sys2Proof.Machine

open Sys2Proof Sys2Proof.Machine

/-- Settles O13: both are the addition of ADC, SBC on the one's complement. -/
theorem addAndSubtractResults : Obligations.AddAndSubtractResults := by
  intro o s m sum diff
  refine ⟨(yields_adc o s).imp ?adc, (yields_sbc o s).imp ?sbc⟩
  case adc =>
    rintro t ⟨ha, hc, hz, hv, hn, hframe⟩
    exact ⟨by rw [ha, BitVec.toNat_ofNat], hc, hz, hv, hn, hframe⟩
  case sbc =>
    rintro t ⟨ha, hc, hz, hv, hn, hframe⟩
    rw [toNat_xor_ones] at ha hc hz hn
    rw [addOverflow_xor_ones] at hv
    exact ⟨by rw [ha, BitVec.toNat_ofNat], hc, hz, hv, hn, hframe⟩

/-- Settles O14: the overflow of the addition; for SBC with the complement's signed value, and its carry
as a comparison. -/
theorem overflowIsSignedOverflow : Obligations.OverflowIsSignedOverflow := by
  intro o s m added taken
  have hsbc : Yields (.sbc o) s (AddLeaves s (m ^^^ 0xFF)) := yields_sbc o s
  refine ⟨(yields_adc o s).imp fun t h => h.overflow, hsbc.imp fun t h => ⟨?v, ?c⟩⟩
  case v =>
    have hsum : s.a.toInt + (m ^^^ 0xFF).toInt + (s.flagNat .c : Int) = taken := by
      rw [toInt_xor_ones]
      omega
    rw [h.overflow, hsum]
  case c =>
    obtain ⟨_, hc, _⟩ := h
    have hm := m.isLt
    have hcarry := flagNat_le_one s .c
    rw [hc, toNat_xor_ones, decide_eq_decide]
    omega

/-- Settles O19: the three are one compare, of A, X and Y. -/
theorem compareResults : Obligations.CompareResults := by
  intro o s m leaves
  exact ⟨yields_compareLeaves State.a (by simp) rfl, yields_compareLeaves State.x (by simp) rfl,
    yields_compareLeaves State.y (by simp) rfl⟩

end

