-- ==== Sys2Proof/Proofs/ShiftRotate.lean ====
section
/-! PROOF. ASL, LSR, ROL and ROR (43_shift_rotate.md R130 to R134): the result as a number, the write-back
to A or memory, and nine rotates of the nine bits A and C. -/

namespace Sys2Proof.Machine

/-! Results and shifted-out bits as numbers. -/

theorem toNat_shiftLeft_one (m : Byte) : (m <<< 1).toNat = 2 * m.toNat % 256 := by
  rw [BitVec.toNat_shiftLeft, Nat.shiftLeft_eq, Nat.mul_comm]

theorem toNat_shiftRight_one (m : Byte) : (m >>> 1).toNat = m.toNat / 2 := by
  rw [BitVec.toNat_ushiftRight, Nat.shiftRight_eq_div_pow]

theorem toNat_rolResult (m : Byte) (carry : Bool) :
    (rolResult m carry).toNat = (2 * m.toNat + carry.toNat) % 256 := by
  revert m; cases carry <;> decide +kernel

theorem toNat_rorResult (m : Byte) (carry : Bool) :
    (rorResult m carry).toNat = 128 * carry.toNat + m.toNat / 2 := by
  revert m; cases carry <;> decide +kernel

theorem getLsbD_zero_eq_decide (m : Byte) : m.getLsbD 0 = decide (m.toNat % 2 = 1) := by
  rw [BitVec.getLsbD, Nat.testBit_zero]

/-! What a shift leaves. -/

theorem resultAt_shiftTo (o : Operand) (s : State) (out : Bool) (b : Byte) (both : Bool) :
    resultAt o s ((((s.resolve o).fetchOperand o).shiftTo o out b).addExtra both) = b := by
  by_cases ho : o = .imp
  · subst ho
    simp [resultAt, State.shiftTo]
  · have hmem (t : State) : resultAt o s t = t.mem.read (effectiveAddress o s) := by
      cases o with
      | imp => exact absurd rfl ho
      | _ => rfl
    rw [hmem, State.shiftTo, State.writeback_mem _ o b ho]
    simp [State.shiftFlags, State.setZN]

/-- An instruction that shifts its operand to a byte of value `n`. -/
theorem yields_shiftLeaves {i : Instr} {o : Operand} {s : State} {n : Nat} {out : Bool}
    (outOf : Byte → Bool) (resultOf : Byte → Bool → Byte)
    (h : exec i s = operateOn false o s
      (fun r => r.shiftTo o (outOf r.fetched) (resultOf r.fetched (r.flag .c))))
    (hn : (resultOf (operandValue o s) (s.flag .c)).toNat = n) (hout : outOf (operandValue o s) = out) :
    Yields i s (ShiftLeaves o s n out) := by
  have hframe := frame_shiftTo ((s.resolve o).fetchOperand o) o out
    (resultOf (operandValue o s) (s.flag .c))
  rw [State.fetchOperand_addrAbs_resolve] at hframe
  refine ⟨_, h, ?_⟩
  simp only [State.fetched_fetchOperand_resolve, State.fetchOperand_flag, State.resolve_flag, hout]
  refine ⟨by rw [resultAt_shiftTo, hn], by simp, ?z, ?n, hframe.operateOn _⟩
  case z => simpa using beq_zero_eq_decide hn
  case n => simpa using getLsbD_seven_eq_decide hn

/-! Nine rotates. -/

/-- One step of the nine bits C and A: left through C for ROL, right for ROR. -/
def rotatePair (left : Bool) (q : Byte × Bool) : Byte × Bool :=
  if left then (rolResult q.1 q.2, q.1.getLsbD 7) else (rorResult q.1 q.2, q.1.getLsbD 0)

theorem rotatePair_nine (left : Bool) (q : Byte × Bool) : (rotatePair left)^[9] q = q := by
  obtain ⟨b, carry⟩ := q
  revert b; cases left <;> cases carry <;> decide +kernel

/-- A and C of a state. -/
def carryPair (s : State) : Byte × Bool := (s.a, s.flag .c)

theorem exec_rol_imp (s : State) :
    Yields (.rol .imp) s (fun t => carryPair t = rotatePair true (carryPair s)) :=
  ⟨_, rfl, by simp [carryPair, rotatePair, State.shiftTo, operandValue]⟩

theorem exec_ror_imp (s : State) :
    Yields (.ror .imp) s (fun t => carryPair t = rotatePair false (carryPair s)) :=
  ⟨_, rfl, by simp [carryPair, rotatePair, State.shiftTo, operandValue]⟩

/-- Steps that each answer a state with the next pair do so together. -/
theorem iterate_carryPair {next : Option State → Option State} {step : Byte × Bool → Byte × Bool}
    (h : ∀ s, ∃ t, next (some s) = some t ∧ carryPair t = step (carryPair s)) (k : Nat) (s : State) :
    ∃ t, next^[k] (some s) = some t ∧ carryPair t = step^[k] (carryPair s) := by
  induction k generalizing s with
  | zero => exact ⟨s, rfl, rfl⟩
  | succ k ih =>
    obtain ⟨t, ht, hpair⟩ := h s
    obtain ⟨u, hu, hpair'⟩ := ih t
    rw [Function.iterate_succ_apply, Function.iterate_succ_apply, ht, ← hpair]
    exact ⟨u, hu, hpair'⟩

end Sys2Proof.Machine

open Sys2Proof Sys2Proof.Machine

/-- Settles O17: the four are one shift, with the result and the bit shifted out as numbers. -/
theorem shiftAndRotateResults : Obligations.ShiftAndRotateResults := by
  intro o s m cin
  exact ⟨
    yields_shiftLeaves (·.getLsbD 7) (fun b _ => b <<< 1) rfl (toNat_shiftLeft_one _) (getLsbD_seven _),
    yields_shiftLeaves (·.getLsbD 0) (fun b _ => b >>> 1) rfl (toNat_shiftRight_one _)
      (getLsbD_zero_eq_decide _),
    yields_shiftLeaves (·.getLsbD 7) rolResult rfl (toNat_rolResult _ _) (getLsbD_seven _),
    yields_shiftLeaves (·.getLsbD 0) rorResult rfl (toNat_rorResult _ _) (getLsbD_zero_eq_decide _)⟩

/-- Settles O18: a rotate turns the nine bits A and C by one place. -/
theorem nineRotatesRestore : Obligations.NineRotatesRestore := by
  intro i s hi again
  have hstep : ∃ left, ∀ s, Yields i s (fun t => carryPair t = rotatePair left (carryPair s)) := by
    rcases hi with rfl | rfl
    · exact ⟨true, exec_rol_imp⟩
    · exact ⟨false, exec_ror_imp⟩
  obtain ⟨left, hleft⟩ := hstep
  have hagain (s : State) : ∃ t, again (some s) = some t ∧
      carryPair t = rotatePair left (carryPair s) := by
    obtain ⟨t, ht, hpair⟩ := hleft s
    exact ⟨t, by simp only [again, Option.bind_some, ht], hpair⟩
  obtain ⟨t, ht, hpair⟩ := iterate_carryPair hagain 9 s
  rw [rotatePair_nine] at hpair
  exact ⟨t, ht, congrArg Prod.fst hpair, congrArg Prod.snd hpair⟩

end

