-- ==== Sys2Proof/Proofs/LoadStoreFlags.lean ====
section
/-! PROOF. Loads, stores and transfers (46_load_store_transfer.md R156 to R167), the flag instructions, NOP
and UND (49_flags_nop_undefined.md R201 to R209). -/

namespace Sys2Proof.Machine

/-! A register is loaded. -/

/-- `load r v` writes `v` to the register `r` and sets Z and N from it (10_state.md R28). -/
def State.load (s : State) : Reg → Byte → State
  | .a, v => s.loadA v
  | .x, v => s.loadX v
  | .y, v => s.loadY v
  | .sp, v => (s.setSp v).setZN v

/-- What a load of `r` with `v` leaves. -/
def LoadLeaves (r : Reg) (v : Byte) (s t : State) : Prop :=
  t.reg r = v ∧ t.flag .z = decide (v = 0) ∧ t.flag .n = decide (128 ≤ v.toNat) ∧
  Frame [r] [.z, .n] [] s t

theorem loadLeaves_load (s : State) (r : Reg) (v : Byte) : LoadLeaves r v s (s.load r v) := by
  have hz : ∀ u : State, (u.setZN v).flag .z = decide (v = 0) := fun u => by simp [beq_eq_decide]
  have hn : ∀ u : State, (u.setZN v).flag .n = decide (128 ≤ v.toNat) := fun u => by
    simpa using getLsbD_seven v
  cases r with
  | a => exact ⟨rfl, hz _, hn _, frame_loadA s v⟩
  | x => exact ⟨rfl, hz _, hn _, frame_loadX s v⟩
  | y => exact ⟨rfl, hz _, hn _, frame_loadY s v⟩
  | sp => exact ⟨rfl, hz _, hn _, (frame_setSp s v).setZN v⟩

theorem LoadLeaves.addExtra {r : Reg} {v : Byte} {s u t : State} (h : LoadLeaves r v u t)
    (hframe : Frame [] [] [] s u) (both : Bool) : LoadLeaves r v s (t.addExtra both) := by
  obtain ⟨hr, hz, hn, hload⟩ := h
  obtain ⟨hreg, hflag, hmem⟩ := frame_addExtra t both
  exact ⟨(hreg r (by simp)).trans hr, (hflag .z (by simp)).trans hz, (hflag .n (by simp)).trans hn,
    (hframe.trans hload).then_unchanged ⟨hreg, hflag, hmem⟩⟩

@[simp] theorem State.load_pc (s : State) (r : Reg) (v : Byte) : (s.load r v).pc = s.pc := by
  cases r <;> rfl

theorem frame_fetchOperand (s : State) (o : Operand) : Frame [] [] [] s (s.fetchOperand o) :=
  frame_of_eq (by simp) (by simp) (by simp) (by simp) (by simp) (by simp)

/-- LDA, LDX and LDY. -/
theorem yields_loadOperand {i : Instr} {o : Operand} {s : State} (r : Reg)
    (h : exec i s = operateOn true o s (fun u => u.load r u.fetched)) :
    Yields i s (fun t => LoadLeaves r (operandValue o s) s t ∧ t.pc = s.pc) := by
  refine ⟨_, h, ?_, by simp⟩
  rw [← State.fetched_fetchOperand_resolve]
  exact (loadLeaves_load _ r _).addExtra ((frame_resolve s o).trans (frame_fetchOperand _ o)) _

/-- The transfers that set Z and N. -/
theorem yields_transfer {i : Instr} {s : State} (source target : Reg)
    (h : exec i s = operate false .imp s (fun u => u.load target (u.reg source))) :
    Yields i s (LoadLeaves target (s.reg source) s) := by
  have hreg : (s.resolve .imp).reg source = s.reg source := (frame_resolve s .imp).1 source (by simp)
  refine ⟨_, h, ?_⟩
  rw [← hreg]
  exact (loadLeaves_load _ target _).addExtra (frame_resolve s .imp) _

/-! A register is stored. -/

/-- STA, STX and STY. -/
theorem yields_store {i : Instr} {o : Operand} {s : State} (r : Reg)
    (h : exec i s = operate false o s (fun u => u.busWrite u.addrAbs (u.reg r))) :
    Yields i s (fun t => t.mem.read (effectiveAddress o s) = s.reg r ∧ t.p = s.p ∧ t.pc = s.pc ∧
      Frame [] [] [effectiveAddress o s] s t) := by
  have hreg : (s.resolve o).reg r = s.reg r := (frame_resolve s o).1 r (by simp)
  have hframe := frame_busWrite (s.resolve o) (s.resolve o).addrAbs ((s.resolve o).reg r)
  rw [State.resolve_addrAbs] at hframe
  exact ⟨_, h, by simp [hreg], by simp, by simp, by simpa using hframe.operate (o := o) false⟩

/-! A flag is written. -/

theorem yields_setFlag {i : Instr} {s : State} (f : Flag) (on : Bool)
    (h : exec i s = operate false .imp s (fun u => u.setFlag f on)) :
    Yields i s (fun t => t.flag f = on ∧ t.pc = s.pc ∧ Frame [] [f] [] s t) :=
  ⟨_, h, by simp, by simp, (frame_setFlag _ f on).operate _⟩

end Sys2Proof.Machine

open Sys2Proof Sys2Proof.Machine

/-- Settles O21: the three are one load, of A, X and Y. -/
theorem loadResults : Obligations.LoadResults := by
  intro o s m leaves
  have hload (r : Reg) (t : State) (h : LoadLeaves r m s t ∧ t.pc = s.pc) : leaves r t := by
    obtain ⟨⟨hr, hz, hn, hframe⟩, hpc⟩ := h
    exact ⟨hr, hz, hn, hpc, hframe⟩
  exact ⟨(yields_loadOperand .a rfl).imp (hload .a), (yields_loadOperand .x rfl).imp (hload .x),
    (yields_loadOperand .y rfl).imp (hload .y)⟩

/-- Settles O22: the three are one store, of A, X and Y. -/
theorem storeResults : Obligations.StoreResults := by
  intro o s leaves
  exact ⟨yields_store .a rfl, yields_store .x rfl, yields_store .y rfl⟩

/-- Settles O23: five loads of a register from another; TXS writes SP alone. -/
theorem transferResults : Obligations.TransferResults := by
  intro s leaves
  exact ⟨yields_transfer .a .x rfl, yields_transfer .a .y rfl, yields_transfer .x .a rfl,
    yields_transfer .y .a rfl, yields_transfer .sp .x rfl,
    ⟨_, rfl, rfl, rfl, (frame_setSp _ _).operate _⟩⟩

/-- Settles O32: the seven are one flag write. -/
theorem flagInstructionResults : Obligations.FlagInstructionResults := by
  intro s leaves
  exact ⟨yields_setFlag .c false rfl, yields_setFlag .c true rfl, yields_setFlag .i false rfl,
    yields_setFlag .i true rfl, yields_setFlag .d false rfl, yields_setFlag .d true rfl,
    yields_setFlag .v false rfl⟩

/-- Settles O33: only the resolver and the extra cycle run. -/
theorem noOperationResults : Obligations.NoOperationResults := by
  intro op extra o s
  refine ⟨⟨_, rfl, rfl, rfl, rfl, rfl, rfl, (frame_refl _).operate _⟩,
    ⟨_, rfl, by simp, by simp, by simp, ?cycles, ?bus, (frame_refl _).operate _⟩⟩
  case cycles => rw [State.addExtra_cycles, State.resolve_cycles]
  case bus => rw [State.addExtra_bus, State.resolve_bus]

end

