-- ==== Sys2Proof/Proofs/StackJumps.lean ====
section
/-! PROOF. PHA, PLA, PHP and PLP (47_stack.md R173 to R176), JMP, JSR, RTS and the branches
(48_control_flow.md R180 to R191). -/

namespace Sys2Proof.Machine

/-! The status bytes that are pushed or pulled, as masks. -/

theorem putFlag_b_u_true (p : Byte) : putFlag .b true (putFlag .u true p) = p ||| 0x30 := by
  revert p; decide +kernel

theorem putFlag_u_true (p : Byte) : putFlag .u true p = p ||| 0x20 := rfl

/-! Pushes and pulls of one byte. -/

/-- PHA and PHP push a byte and write nothing else. -/
theorem yields_push {i : Instr} {s : State} (v : State → Byte) (hv : v (s.resolve .imp) = v s)
    (h : exec i s = operate false .imp s (fun u => u.push (v u))) :
    Yields i s (fun t => t.mem.read (stackAddr s.sp) = v s ∧ t.sp = s.sp - 1 ∧ t.p = s.p ∧
      Frame [.sp] [] [stackAddr s.sp] s t) := by
  refine ⟨_, h, ?_, rfl, rfl, (frame_push _ _).operate _⟩
  simp [hv]

theorem yields_pla (s : State) :
    Yields .pla s (fun t => t.a = s.top ∧ t.sp = s.sp + 1 ∧ t.flag .z = decide (s.top = 0) ∧
      t.flag .n = decide (128 ≤ s.top.toNat) ∧ Frame [.a, .sp] [.z, .n] [] s t) := by
  have hframe := ((frame_pull (s.resolve .imp)).trans (frame_loadA _ s.top)).operate false
  obtain ⟨ha, hz, hn, _⟩ := loadLeaves_load (s.resolve .imp).pull .a s.top
  exact ⟨_, rfl, ha, rfl, hz, hn, hframe.mono (by simp) (by simp) (by simp)⟩

theorem yields_plp (s : State) :
    Yields .plp s (fun t => t.p = s.top ||| 0x20 ∧ t.sp = s.sp + 1 ∧ Frame [.sp] allFlags [] s t) := by
  have hframe := (((frame_pull (s.resolve .imp)).trans (frame_setP _ s.top)).trans
    (frame_setFlag _ .u true)).operate false
  exact ⟨_, rfl, putFlag_u_true s.top, rfl, hframe.mono (by simp) (by simp [allFlags]) (by simp)⟩

/-! Jumps and calls. -/

theorem yields_jmp (o : Operand) (s : State) :
    Yields (.jmp o) s (fun t => t.pc = effectiveAddress o s ∧ t.p = s.p ∧ Frame [] [] [] s t) :=
  ⟨_, rfl, by simp, by simp, ((frame_refl _).setPc _).operate _⟩

/-- Two pushes of a word's bytes, each read back. -/
theorem State.pushWord_read (s : State) (w : Word) :
    (s.pushWord w).mem.read (stackAddr s.sp) = hiByte w ∧
    (s.pushWord w).mem.read (stackAddr (s.sp - 1)) = loByte w :=
  ⟨s.push_push_read_first _ _, State.push_read_same _ _⟩

theorem yields_jsr (target : Word) (s : State) :
    Yields (.jsr target) s (fun t => t.pc = target ∧ t.sp = s.sp - 2 ∧ t.p = s.p ∧
      t.mem.read (stackAddr s.sp) = hiByte (s.pc - 1) ∧
      t.mem.read (stackAddr (s.sp - 1)) = loByte (s.pc - 1) ∧
      Frame [.sp] [] [stackAddr s.sp, stackAddr (s.sp - 1)] s t) := by
  let calling := (s.resolve (.abs target)).setPc (s.pc - 1)
  obtain ⟨hhi, hlo⟩ := calling.pushWord_read (s.pc - 1)
  have hframe := ((frame_refl (s.resolve (.abs target))).setPc (s.pc - 1)).trans
    (frame_pushWord calling (s.pc - 1))
  exact ⟨_, rfl, by simp [effectiveAddress], by simp, by simp, hhi, hlo, (hframe.setPc _).operate _⟩

theorem yields_rts (s : State) :
    Yields .rts s (fun t =>
      t.pc = mkWord (s.mem.read (stackAddr (s.sp + 2))) (s.mem.read (stackAddr (s.sp + 1))) + 1 ∧
      t.sp = s.sp + 2 ∧ t.p = s.p ∧ Frame [.sp] [] [] s t) :=
  ⟨_, rfl, by simp [State.topWord_eq], by simp, by simp,
    ((frame_pullWord (s.resolve .imp)).setPc _).operate _⟩

theorem toNat_mkWord_add_one (h l : Byte) :
    (mkWord h l + 1).toNat = (h.toNat * 256 + l.toNat + 1) % 65536 := by
  rw [BitVec.toNat_add, mkWord_toNat]
  rfl

/-! Branches. -/

/-- A branch target is the signed offset from the instruction after the branch. -/
theorem toNat_add_sext16 (pc : Word) (r : Byte) :
    ((pc + sext16 r).toNat : Int) = ((pc.toNat : Int) + r.toInt) % 65536 := by
  have hoffset : ((sext16 r).toNat : Int) = r.toInt % 65536 := by
    rw [sext16, BitVec.signExtend, BitVec.toNat_ofInt]
    omega
  rw [BitVec.toNat_add]
  omega

/-- A branch on the condition `taken`, which the resolver does not change. -/
theorem yields_branch {i : Instr} {rel8 : Byte} {s : State} (taken : State → Bool)
    (htaken : taken (s.resolve (.rel rel8)) = taken s)
    (h : exec i s = operate false (.rel rel8) s (fun u => u.branch (taken u))) :
    Yields i s (BranchLeaves rel8 (taken s) s) := by
  refine ⟨_, h, ?_, by simp, (frame_branch _ _).operate _⟩
  cases hb : taken s with
  | false => simp [htaken, hb]
  | true =>
    have hfar (w : Word) : (hiByte w != hiByte s.pc) = !decide (w.toNat / 256 = s.pc.toNat / 256) := by
      rw [Bool.eq_iff_iff, bne_iff_ne, Bool.not_eq_true', decide_eq_false_iff_not, ← hiByte_toNat,
        ← hiByte_toNat, BitVec.toNat_inj]
    refine ⟨?target, ?cycles⟩
    case target => simpa [htaken, hb] using toNat_add_sext16 s.pc rel8
    case cycles => simp [htaken, hb, State.branch_true_cycles, hfar]

end Sys2Proof.Machine

open Sys2Proof Sys2Proof.Machine

/-- Settles O25: one push, one pull into A, one push and one pull of P. -/
theorem stackInstructionResults : Obligations.StackInstructionResults := by
  intro s free top
  have hphp := yields_push (i := .php) (s := s) (fun u => putFlag .b true (putFlag .u true u.p)) rfl rfl
  simp only [putFlag_b_u_true] at hphp
  exact ⟨yields_push State.a rfl rfl, yields_pla s, hphp, yields_plp s⟩

/-- Settles O26: PLA pulls the byte PHA pushed, whatever A and P were set to between them. -/
theorem pushPullAccumulatorRoundTrip : Obligations.PushPullAccumulatorRoundTrip := by
  intro s
  refine (yields_push (i := .pha) State.a rfl rfl).imp fun t ht p => ?_
  obtain ⟨hbyte, hsp, _, _⟩ := ht
  have hback : t.sp + 1 = s.sp := by rw [hsp]; exact BitVec.sub_add_cancel s.sp 1
  have htop : ({ t with a := 0, p := p } : State).top = s.a := by
    rw [← hbyte, ← hback]
    rfl
  refine (yields_pla { t with a := 0, p := p }).imp fun u hu => ?_
  rw [htop] at hu
  obtain ⟨ha, husp, hz, hn, _⟩ := hu
  exact ⟨ha, husp.trans hback, hz, hn⟩

/-- Settles O27: the three spec lemmas, RTS's address as a number. -/
theorem jumpResults : Obligations.JumpResults := by
  intro o target s back lo hi
  refine ⟨yields_jmp o s, yields_jsr target s, (yields_rts s).imp fun t ht => ?_⟩
  obtain ⟨hpc, hrest⟩ := ht
  exact ⟨by rw [hpc, toNat_mkWord_add_one], hrest⟩

/-- Settles O28: RTS pulls the address that JSR pushed, and adds the one that JSR took off. -/
theorem subroutineReturnsBehindTheCall : Obligations.SubroutineReturnsBehindTheCall := by
  intro target s
  refine (yields_jsr target s).imp fun t ht u husp huhi hulo => ?_
  obtain ⟨_, hsp, _, hhi, hlo, _⟩ := ht
  obtain ⟨_, hone, htwo, _⟩ := sp_cancel s.sp
  rw [hsp] at husp
  refine (yields_rts u).imp fun v hv => ?_
  rw [husp, hone, htwo, huhi, hulo, hhi, hlo, mkWord_hiByte_loByte] at hv
  obtain ⟨hpc, hvsp, _⟩ := hv
  exact ⟨hpc.trans (BitVec.sub_add_cancel s.pc 1), hvsp⟩

/-- Settles O29: the eight are one branch, on a flag or its negation. -/
theorem branchResults : Obligations.BranchResults := by
  intro rel8 s
  exact ⟨yields_branch (!·.flag .c) rfl rfl, yields_branch (·.flag .c) rfl rfl,
    yields_branch (·.flag .z) rfl rfl, yields_branch (!·.flag .z) rfl rfl,
    yields_branch (!·.flag .n) rfl rfl, yields_branch (·.flag .n) rfl rfl,
    yields_branch (!·.flag .v) rfl rfl, yields_branch (·.flag .v) rfl rfl⟩

end

