-- ==== Sys2Proof/Proofs/Handlers.lean ====
section
/-! PROOF. The entries into a handler, BRK, `Irq` and `Nmi`, and RTI, the way back (48_control_flow.md R195
to R197; 60_exceptions.md R229 to R236). -/

namespace Sys2Proof.Machine

/-! The status bytes of the entries and of RTI, as masks. -/

theorem putFlag_b_i_true (p : Byte) : putFlag .b true (putFlag .i true p) = p ||| 0x14 := by
  revert p; decide +kernel

theorem putFlag_u_b_false (p : Byte) : putFlag .u false (putFlag .b false p) = p &&& 0xCF := by
  revert p; decide +kernel

theorem interruptStatus_eq (p : Byte) : interruptStatus p = (p &&& 0xEF) ||| 0x20 := rfl

theorem interrupt_status_returned (p : Byte) : ((p &&& 0xEF) ||| 0x20) &&& 0xCF = p &&& 0xCF := by
  revert p; decide +kernel

theorem break_status_returned (p : Byte) : (p ||| 0x14) &&& 0xCF = (p ||| 0x04) &&& 0xCF := by
  revert p; decide +kernel

theorem toNat_readVector (m : Memory) (v : Word) :
    (m.readVector v).toNat = (m.read (v + 1)).toNat * 256 + (m.read v).toNat :=
  mkWord_toNat _ _

/-! What an entry leaves on the stack, and what RTI makes of it. -/

/-- `t` has the stack of `s` with a return address and a status byte pushed on it. -/
def Stacked (back : Word) (status : Byte) (s t : State) : Prop :=
  t.sp = s.sp - 3 ∧ t.mem.read (stackAddr s.sp) = hiByte back ∧
  t.mem.read (stackAddr (s.sp - 1)) = loByte back ∧ t.mem.read (stackAddr (s.sp - 2)) = status

theorem stacked_enterHandler (s : State) (vector : Word) (before after : Byte → Byte) :
    Stacked s.pc (before s.p) s (s.enterHandler vector before after) := by
  obtain ⟨h10, h20, h21, _⟩ := sp_distinct s.sp
  refine ⟨s.enterHandler_sp vector before after, ?hi, ?lo, ?status⟩
  case hi => simp only [State.enterHandler_read, stackAddr_inj, h10.symm, h20.symm, if_true, if_false]
  case lo => simp only [State.enterHandler_read, stackAddr_inj, h21.symm, if_true, if_false]
  case status => simp only [State.enterHandler_read, if_true]

theorem Stacked.setCycles {back : Word} {status : Byte} {s t : State} (h : Stacked back status s t)
    (n : Byte) : Stacked back status s (t.setCycles n) := h

theorem yields_rti (s : State) :
    Yields .rti s (fun t => t.p = s.top &&& 0xCF ∧
      t.pc = mkWord (s.mem.read (stackAddr (s.sp + 3))) (s.mem.read (stackAddr (s.sp + 2))) ∧
      t.sp = s.sp + 3 ∧ Frame [.sp] allFlags [] s t) := by
  refine ⟨_, rfl, ?_, (s.resolve .imp).returnFromHandler_pc,
    (s.resolve .imp).returnFromHandler_sp, (frame_returnFromHandler _).operate _⟩
  exact (s.resolve .imp).returnFromHandler_p.trans (putFlag_u_b_false s.top)

/-- RTI with a stacked entry goes back to it. -/
theorem Stacked.yields_rti {back : Word} {status : Byte} {s e : State} (h : Stacked back status s e)
    (ha : e.a = s.a) (hx : e.x = s.x) (hy : e.y = s.y) :
    Yields .rti e (fun t => t.pc = back ∧ t.sp = s.sp ∧ t.p = status &&& 0xCF ∧
      t.a = s.a ∧ t.x = s.x ∧ t.y = s.y) := by
  obtain ⟨hsp, hhi, hlo, hstatus⟩ := h
  obtain ⟨_, _, _, h1, h2, h3⟩ := sp_cancel s.sp
  refine (Machine.yields_rti e).imp fun t ht => ?_
  obtain ⟨hp, hpc, htsp, hreg, _, _⟩ := ht
  rw [State.top, hsp, h1, hstatus] at hp
  rw [hsp, h2, h3, hhi, hlo, mkWord_hiByte_loByte] at hpc
  rw [hsp, h3] at htsp
  exact ⟨hpc, htsp, hp, (hreg .a (by simp)).trans ha, (hreg .x (by simp)).trans hx,
    (hreg .y (by simp)).trans hy⟩

/-! BRK. -/

/-- The state in which BRK enters its handler: PC past itself, I set. -/
def State.breaking (s : State) : State :=
  ((s.resolve .imp).setPc (s.pc + 1)).setFlag .i true

theorem exec_brk (s : State) :
    exec .brk s =
      .next (s.breaking.enterHandler irqVector (putFlag .b true) (putFlag .b false)) := rfl

theorem frame_brk (s : State) :
    Frame [.sp] [.i, .b] [stackAddr s.sp, stackAddr (s.sp - 1), stackAddr (s.sp - 2)] s
      (s.breaking.enterHandler irqVector (putFlag .b true) (putFlag .b false)) := by
  have hb : ∀ f, f ∉ [Flag.b] → getFlag f (putFlag .b false (putFlag .b true s.breaking.p)) =
      getFlag f s.breaking.p := fun f hf => by
    have hne : f ≠ .b := by simpa using hf
    simp [hne]
  have hbreaking : Frame [] [.i] [] s s.breaking :=
    ((frame_resolve s .imp).setPc _).trans (frame_setFlag _ .i true)
  exact hbreaking.trans (frame_enterHandler s.breaking irqVector hb)

theorem yields_brk (s : State) :
    Yields .brk s (fun t => t.pc = s.mem.readVector irqVector ∧ t.flag .i = true ∧
      t.flag .b = false ∧ Stacked (s.pc + 1) (s.p ||| 0x14) s t ∧
      Frame [.sp] [.i, .b] [stackAddr s.sp, stackAddr (s.sp - 1), stackAddr (s.sp - 2)] s t) := by
  refine ⟨_, exec_brk s, State.enterHandler_pc _ _ _ _ (by decide) (by decide), ?i, by simp, ?stacked,
    frame_brk s⟩
  case i => simp [State.breaking, getFlag_p]
  case stacked =>
    rw [← putFlag_b_i_true]
    exact stacked_enterHandler s.breaking irqVector (putFlag .b true) (putFlag .b false)

/-! `Irq` and `Nmi`. -/

theorem stacked_takeInterrupt (s : State) (low : Word) (count : Byte) :
    Stacked s.pc ((s.p &&& 0xEF) ||| 0x20) s (s.takeInterrupt low count) := by
  rw [← interruptStatus_eq, State.takeInterrupt]
  exact (stacked_enterHandler s low interruptStatus (putFlag .i true)).setCycles count

theorem interruptLeaves_takeInterrupt (s : State) {low : Word} (count : Byte)
    (hlow : 512 ≤ low.toNat) (hhigh : 512 ≤ (low + 1).toNat) :
    InterruptLeaves low count s (s.takeInterrupt low count) := by
  obtain ⟨hsp, hhi, hlo, hstatus⟩ := stacked_takeInterrupt s low count
  refine ⟨?pc, hsp, rfl, ?i, ?b, ?u, hhi, hlo, hstatus, ?frame⟩
  case pc =>
    have hpc := s.enterHandler_pc low interruptStatus (putFlag .i true) hlow hhigh
    rw [← toNat_readVector]
    exact congrArg BitVec.toNat hpc
  case i => simp [State.takeInterrupt]
  case b | u => simp [State.takeInterrupt, interruptStatus]
  case frame =>
    have hflags : ∀ f, f ∉ [Flag.i, .b, .u] →
        getFlag f (putFlag .i true (interruptStatus s.p)) = getFlag f s.p := fun f hf => by
      have ⟨hi, hb, hu⟩ : f ≠ .i ∧ f ≠ .b ∧ f ≠ .u := by simpa using hf
      simp [interruptStatus, hi, hb, hu]
    exact (frame_enterHandler s low hflags).setCycles count

theorem interruptLeaves_takeNmi (s : State) : InterruptLeaves 0xFFFA 8 s s.takeNmi :=
  interruptLeaves_takeInterrupt s 8 (by decide) (by decide)

theorem interruptLeaves_takeIrq {s : State} (h : s.flag .i = false) :
    InterruptLeaves 0xFFFE 7 s s.takeIrq := by
  rw [takeIrq_open h]
  exact interruptLeaves_takeInterrupt s 7 (by decide) (by decide)

theorem takeInterrupt_events (s : State) (low : Word) (count : Byte) :
    (s.takeInterrupt low count).events = s.events := by
  simp [State.takeInterrupt]

theorem stepYields_irq {s : State} {rest : List Event} (h : s.events = .irq :: rest)
    (hi : s.flag .i = false) :
    StepYields s (fun t => InterruptLeaves 0xFFFE 7 s t ∧ t.events = rest) := by
  have hi' : ((s.setEvents rest).setBus []).flag .i = false := hi
  refine ⟨_, stepWith_irq Config.default h, interruptLeaves_takeIrq hi', ?_⟩
  rw [takeIrq_open hi', takeInterrupt_events]
  rfl

theorem stepYields_nmi {s : State} {rest : List Event} (h : s.events = .nmi :: rest) :
    StepYields s (fun t => InterruptLeaves 0xFFFA 8 s t ∧ t.events = rest) :=
  ⟨_, stepWith_nmi Config.default h, interruptLeaves_takeNmi _, takeInterrupt_events _ _ _⟩

end Sys2Proof.Machine

open Sys2Proof Sys2Proof.Machine

/-- Settles O30: BRK is the shared entry, from PC past itself and with I set. -/
theorem brkEntersTheHandler : Obligations.BrkEntersTheHandler := by
  intro s back
  refine (yields_brk s).imp fun t ht => ?_
  obtain ⟨hpc, hi, hb, ⟨hsp, hhi, hlo, hstatus⟩, hframe⟩ := ht
  exact ⟨by rw [hpc]; exact toNat_readVector s.mem irqVector, hsp, hi, hb, hhi, hlo, hstatus, hframe⟩

/-- Settles O31: the spec lemma of RTI, PC as a number. -/
theorem rtiRestores : Obligations.RtiRestores := by
  intro s status lo hi
  refine (yields_rti s).imp fun t ht => ?_
  obtain ⟨hp, hpc, hsp, hframe⟩ := ht
  exact ⟨hp, by rw [hpc, mkWord_toNat], hsp, hframe⟩

/-- Settles O49: both events are the shared entry, from the state in which the event is delivered. -/
theorem interruptEntries : Obligations.InterruptEntries :=
  ⟨fun _ _ => stepYields_irq, fun _ _ => stepYields_nmi⟩

/-- Settles O50: each entry leaves its return address and status byte where RTI pulls them. -/
theorem returnFromInterruptResumes : Obligations.ReturnFromInterruptResumes := by
  have hinterrupt (s : State) (low : Word) (count : Byte) := by
    have h := (stacked_takeInterrupt s low count).yields_rti
      (by simp [State.takeInterrupt]) (by simp [State.takeInterrupt]) (by simp [State.takeInterrupt])
    rwa [interrupt_status_returned] at h
  refine ⟨fun s hi => ?irq, fun s => hinterrupt s nmiVector 8, fun s => ?brk⟩
  case irq =>
    rw [takeIrq_open hi]
    exact hinterrupt s irqVector 7
  case brk =>
    refine (yields_brk s).imp fun b hb => ?_
    obtain ⟨_, _, _, hstacked, hreg, _⟩ := hb
    rw [← break_status_returned]
    exact hstacked.yields_rti (hreg .a (by simp)) (hreg .x (by simp)) (hreg .y (by simp))

/-- Settles O48: a masked `Irq` is the identity, an open one the entry; Reset's P is a constant; the other
four write I as their rules say. -/
theorem irqIsMaskedByInterruptDisable : Obligations.IrqIsMaskedByInterruptDisable := by
  refine ⟨fun s rest h hi => ?masked, fun s rest h hi => ?opened, fun c s => ?reset, fun s => ?writers⟩
  case masked =>
    have hmask : ((s.setEvents rest).setBus []).takeIrq = (s.setEvents rest).setBus [] :=
      takeIrq_masked hi
    exact (stepWith_irq Config.default h).trans (congrArg Host.Outcome.next hmask)
  case opened =>
    obtain ⟨t, ht, ⟨hpc, _, hcycles, hflag, _⟩, hevents⟩ := stepYields_irq h hi
    refine ⟨t, ht, hcycles, hflag, BitVec.eq_of_toNat_eq ?_, hevents⟩
    rw [hpc, toNat_readVector]
    rfl
  case reset =>
    have hp : (s.takeReset c).p = resetStatus := rfl
    rw [State.flag, hp]
    decide
  case writers =>
    exact ⟨⟨_, rfl, by simp⟩, ⟨_, rfl, by simp⟩, ⟨_, rfl, by simp [State.top]⟩,
      ⟨_, rfl, by simp [State.flag, State.top]⟩⟩

end

