-- ==== Sys2Proof/Proofs/ResetAndEdges.lean ====
section
/-! PROOF. The `Reset` event and the two start states (70_reset_and_hazards.md R250, R251), and the strobes of
one rising edge (60_exceptions.md R221, R234). -/

namespace Sys2Proof.Machine

/-! `Reset`. -/

/-- Every field of the state that `Reset` leaves. -/
theorem State.takeReset_eq (c : Config) (s : State) :
    s.takeReset c =
      { a := 0, x := 0, y := 0, sp := 0xFD, pc := s.mem.readVector resetVector, p := 0x20
        fetched := 0, addrAbs := 0, addrRel := 0, opcode := 0, mode := .imp, cycles := 8
        mem := c.busReinit s.mem, events := s.events
        bus := s.bus ++ [.read 0xFFFC (s.mem.read 0xFFFC), .read 0xFFFD (s.mem.read 0xFFFD)] } := by
  have hbus : (s.takeReset c).bus = s.bus ++
      [.read resetVector (s.mem.read resetVector),
        .read (resetVector + 1) (s.mem.read (resetVector + 1))] :=
    s.loadVector_bus resetVector
  exact congrArg (State.setBus (s.takeReset c)) hbus

theorem resetStatus_flag (f : Flag) : getFlag f 0x20 = decide (f = .u) := by
  cases f <;> decide

/-! A run of two or three events. -/

theorem runSteps_of_step {c : Config} {s t : State} (h : stepWith c s = .next t) (k : Nat) :
    runSteps c (k + 1) s = runSteps c k t := by
  rw [runSteps, h]

theorem nextEvent_of_nil {s : State} (h : s.events = []) : nextEvent s = .clock := by
  rw [nextEvent, h, List.headD_nil]

theorem nextEvent_of_events {s : State} {e : Event} {rest : List Event} (h : s.events = e :: rest) :
    nextEvent s = e := by
  rw [nextEvent, h, List.headD_cons]

/-- The edge's `Clock` inside an entry: it only counts down. -/
theorem runSteps_lastClock (c : Config) {s : State} (h : s.events = [.clock]) (hc : s.cycles ≠ 0) :
    runSteps c 1 s = .next (((s.setEvents []).setBus []).setCycles (s.cycles - 1)) := by
  rw [runSteps_of_step (stepWith_countDown c (nextEvent_of_events h) hc), runSteps, State.beginEvent, h]
  rfl

theorem withEdge_eq {s : State} (h : s.events = []) (pins : Pins) :
    s.withEdge pins = s.setEvents (edgeEvents pins) := by
  rw [State.withEdge, h, List.nil_append]

/-- An interrupt entry, then the edge's `Clock`: the entry looks neither at the driver's list nor at the bus
record. -/
theorem countDown_takeInterrupt {s : State} (h : s.events = []) (raised : List Event) (vector : Word)
    (count : Byte) :
    (((((s.setEvents raised).setBus []).takeInterrupt vector count).setEvents []).setBus []).setCycles
        (count - 1) =
      { s.takeInterrupt vector count with cycles := count - 1, bus := [] } := by
  simp only [State.takeInterrupt, State.enterHandler, State.pushWord, State.push, State.busWrite,
    State.loadVector, State.logRead, State.setBus, State.setMem, State.setPc, State.setP, State.setSp,
    State.setCycles, State.setEvents, h]

theorem runSteps_reset_clock (c : Config) {s : State} (h : s.events = []) :
    runSteps c 2 (s.setEvents [.reset, .clock]) =
      .next { s.takeReset c with cycles := 7, bus := [] } := by
  rw [runSteps_of_step (stepWith_reset c rfl), State.takeReset_eq,
    runSteps_lastClock c rfl (by decide : (8 : Byte) ≠ 0), State.takeReset_eq, h]
  simp [State.setEvents, State.setBus, State.setCycles]

theorem runSteps_nmi_clock (c : Config) {s : State} (h : s.events = []) :
    runSteps c 2 (s.setEvents [.nmi, .clock]) = .next { s.takeNmi with cycles := 7, bus := [] } := by
  rw [runSteps_of_step (stepWith_nmi c rfl), runSteps_lastClock c (takeInterrupt_events _ _ _)
    (by decide : (8 : Byte) ≠ 0)]
  exact congrArg Host.Outcome.next (countDown_takeInterrupt h _ nmiVector 8)

theorem runSteps_irq_clock (c : Config) {s : State} (h : s.events = []) (hi : s.flag .i = false) :
    runSteps c 2 (s.setEvents [.irq, .clock]) = .next { s.takeIrq with cycles := 6, bus := [] } := by
  have hi' : ((s.setEvents [.clock]).setBus []).flag .i = false := hi
  have hstep : stepWith c (s.setEvents [.irq, .clock]) =
      .next (((s.setEvents [.clock]).setBus []).takeInterrupt irqVector 7) := by
    rw [stepWith_irq c rfl, ← takeIrq_open hi']
    rfl
  rw [runSteps_of_step hstep, runSteps_lastClock c (takeInterrupt_events _ _ _)
    (by decide : (7 : Byte) ≠ 0), takeIrq_open hi]
  exact congrArg Host.Outcome.next (countDown_takeInterrupt h _ irqVector 7)

/-- A masked `Irq` before the edge's `Clock` leaves nothing of itself. -/
theorem runSteps_maskedIrq_clock (c : Config) {s : State} (h : s.events = [.irq, .clock])
    (hi : s.flag .i = true) (hc : s.cycles ≠ 0) :
    runSteps c 2 s = .next (((s.setEvents []).setBus []).setCycles (s.cycles - 1)) := by
  have hi' : ((s.setEvents [.clock]).setBus []).flag .i = true := hi
  rw [runSteps_of_step (stepWith_irq c h), takeIrq_masked hi']
  exact runSteps_lastClock c rfl hc

/-- The mask that `Nmi` has just set drops the `Irq` of the same edge. -/
theorem runSteps_nmi_irq_clock (c : Config) {s : State} (h : s.events = []) :
    runSteps c 3 (s.setEvents [.nmi, .irq, .clock]) =
      .next { s.takeNmi with cycles := 7, bus := [] } := by
  have hi (u : State) : u.takeNmi.flag .i = true := by simp [State.takeNmi, State.takeInterrupt]
  rw [runSteps_of_step (stepWith_nmi c rfl),
    runSteps_maskedIrq_clock c (takeInterrupt_events _ _ _) (hi _) (by decide : (8 : Byte) ≠ 0)]
  exact congrArg Host.Outcome.next (countDown_takeInterrupt h _ nmiVector 8)

theorem step_lone_clock {s : State} (h : s.events = []) : step (s.setEvents [.clock]) = step s := by
  have hbegin : (s.setEvents [.clock]).beginEvent = s.beginEvent := by
    rw [State.beginEvent, State.beginEvent, h]
    rfl
  rw [step, step, stepWith, stepWith, hbegin, nextEvent_of_nil h]
  rfl

end Sys2Proof.Machine

open Sys2Proof Sys2Proof.Machine

/-- Settles O52: the fields are those of the state `Reset` leaves, whatever the state before it. -/
theorem resetEventLeaves : Obligations.ResetEventLeaves := by
  intro c s rest h
  refine ⟨⟨_, stepWith_reset c h, ?_⟩, fun u hu => ?_⟩
  · rw [State.takeReset_eq]
    refine ⟨toNat_readVector s.mem resetVector, rfl, rfl, rfl, rfl, rfl, resetStatus_flag .u,
      fun f hf => ?_, rfl, rfl, rfl, rfl, rfl, rfl, rfl, rfl, rfl⟩
    exact (resetStatus_flag f).trans (decide_eq_false hf)
  · simp only [State.takeReset_eq, State.setBus, hu]
    rfl

/-- Settles O53: the created state is at an instruction boundary; `Reset` of it is computed. -/
theorem createdStateRunsAtOnce : Obligations.CreatedStateRunsAtOnce := by
  refine ⟨fun m => ?_, ?_, by decide, by decide, by decide⟩
  · obtain ⟨t, ht, hopcode, _⟩ := stepWith_begin_opcode Config.default (s := State.created m) rfl rfl
    exact ⟨t, ht, hopcode⟩
  · rw [State.takeReset_eq]
    rfl

/-- Settles O51: the events of the edge, delivered one after the other, the last one a `Clock`. -/
theorem edgeDeliversStrobesInOrder : Obligations.EdgeDeliversStrobesInOrder := by
  refine ⟨fun nmi irq s h => ?reset, fun s h => ?nmi, fun s h hi => ?irq, fun s h => ?none⟩
  case reset => exact ⟨_, by rw [withEdge_eq h]; exact runSteps_reset_clock _ h, rfl⟩
  case nmi =>
    refine ⟨_, _, ?_, ?_, rfl, rfl⟩
    · rw [withEdge_eq h]
      exact runSteps_nmi_clock _ h
    · rw [withEdge_eq h]
      exact runSteps_nmi_irq_clock _ h
  case irq => exact ⟨_, by rw [withEdge_eq h]; exact runSteps_irq_clock _ h hi, rfl⟩
  case none =>
    rw [withEdge_eq h]
    exact step_lone_clock h

end

