-- ==== Sys2Proof/Proofs/BusTraffic.lean ====
section
/-! PROOF. The bus transactions of every instruction and of the interrupt entries, in order (20_memory.md R56,
R64), and the fetch that comes before an instruction (60_exceptions.md R225). -/

namespace Sys2Proof.Machine

/-- The pointer reads a resolver makes (40_addressing_modes.md R109 to R111). -/
def pointerReads (o : Operand) (s : State) : List Access :=
  (pointerAddrs o s).map fun a => .read a (s.mem.read a)

/-! What the shared operations add to the bus record. -/

theorem resolve_bus_eq (s : State) (o : Operand) : (s.resolve o).bus = s.bus ++ pointerReads o s :=
  State.resolve_bus s o

/-- The resolver's pointer reads, then the one read of the operand. -/
theorem fetchOperand_resolve_bus_eq (s : State) {o : Operand} (ho : o ≠ .imp) :
    ((s.resolve o).fetchOperand o).bus =
      s.bus ++ pointerReads o s ++ [.read (effectiveAddress o s) (operandValue o s)] := by
  rw [State.fetchOperand_resolve_bus s o ho, resolve_bus_eq]

theorem shiftTo_bus (s : State) {o : Operand} (ho : o ≠ .imp) (out : Bool) (v : Byte) :
    (s.shiftTo o out v).bus = s.bus ++ [.write s.addrAbs v] := by
  rw [State.shiftTo, State.writeback_mem _ o v ho]
  rfl

theorem shiftTo_mem (s : State) {o : Operand} (ho : o ≠ .imp) (out : Bool) (v : Byte) :
    (s.shiftTo o out v).mem = s.mem.write s.addrAbs v := by
  rw [State.shiftTo, State.writeback_mem _ o v ho]
  rfl

@[simp] theorem storeZN_bus (s : State) (v : Byte) :
    (s.storeZN v).bus = s.bus ++ [.write s.addrAbs v] := rfl

@[simp] theorem storeZN_mem (s : State) (v : Byte) :
    (s.storeZN v).mem = s.mem.write s.addrAbs v := rfl

@[simp] theorem resolve_imp_bus (s : State) : (s.resolve .imp).bus = s.bus := rfl

@[simp] theorem fetchOperand_imp (s : State) : s.fetchOperand .imp = s := rfl

@[simp] theorem resolve_rel_bus (s : State) (r : Byte) : (s.resolve (.rel r)).bus = s.bus := rfl

@[simp] theorem resolve_abs_bus (s : State) (w : Word) : (s.resolve (.abs w)).bus = s.bus :=
  List.append_nil s.bus

@[simp] theorem shiftTo_imp_bus (s : State) (out : Bool) (v : Byte) :
    (s.shiftTo .imp out v).bus = s.bus := rfl

/-- The transactions of an entry into a handler. -/
def entryTraffic (s : State) (back : Word) (status : Byte) (vector : Word) : List Access :=
  [.write (stackAddr (s.sp - 0)) (hiByte back), .write (stackAddr (s.sp - 1)) (loByte back),
    .write (stackAddr (s.sp - 2)) status] ++
  [.read vector (s.mem.read vector), .read (vector + 1) (s.mem.read (vector + 1))]

theorem enterHandler_entryTraffic (s : State) {vector : Word} (before after : Byte → Byte)
    (low : 512 ≤ vector.toNat) (high : 512 ≤ (vector + 1).toNat) :
    (s.enterHandler vector before after).bus =
      s.bus ++ entryTraffic s s.pc (before s.p) vector := by
  rw [State.enterHandler_bus s vector before after low high]
  simp [entryTraffic]

theorem takeInterrupt_entryTraffic (s : State) {vector : Word} (count : Byte)
    (low : 512 ≤ vector.toNat) (high : 512 ≤ (vector + 1).toNat) :
    (s.takeInterrupt vector count).bus =
      s.bus ++ entryTraffic s s.pc ((s.p &&& 0xEF) ||| 0x20) vector := by
  rw [State.takeInterrupt, State.setCycles_bus, ← interruptStatus_eq]
  exact enterHandler_entryTraffic s interruptStatus (putFlag .i true) low high

/-! The fetch. -/

/-- The instruction that a step at an instruction boundary runs is the one the bytes at PC decode to. -/
theorem instrAt_of_decode {c : Config} {s : State} {i : Instr} {rest : List Byte}
    (h : decode c [s.mem.read s.pc, s.mem.read (s.pc + 1), s.mem.read (s.pc + 2)] = .ok (i, rest)) :
    instrAt c s = i := by
  rw [decode_three] at h
  exact congrArg Prod.fst (Except.ok.inj h)

theorem instrAt_mode (c : Config) (s : State) :
    (instrAt c s).operand.mode = (describe c (s.mem.read s.pc)).mode :=
  decodeBytes_mode ..

theorem beginInstr_pc_eq (c : Config) (s : State) :
    (s.beginInstr c).pc = s.pc + BitVec.ofNat 16 (instrAt c s).length := by
  rw [State.beginInstr_pc, Instr.length, instrAt_mode, BitVec.ofNat_add, BitVec.add_assoc]
  rfl

end Sys2Proof.Machine

open Sys2Proof Sys2Proof.Machine

/-- Settles O39, by the kind of the operation: it reads its operand, reads and writes it, writes it, or
uses its address alone. -/
theorem busTrafficOfMemoryInstructions : Obligations.BusTrafficOfMemoryInstructions := by
  intro o s ho ea pointer operand
  have hresolve : (s.resolve o).bus = s.bus ++ pointer := resolve_bus_eq s o
  have hfetch : ((s.resolve o).fetchOperand o).bus = s.bus ++ pointer ++ operand :=
    fetchOperand_resolve_bus_eq s ho
  refine ⟨fun i hi => ?reads, fun i hi => ?modifies, fun i hi => ?stores, ?jumps⟩
  case reads =>
    simp only [List.mem_cons, List.not_mem_nil, or_false] at hi
    rcases hi with rfl | rfl | rfl | rfl | rfl | rfl | rfl | rfl | rfl | rfl | rfl | rfl
    all_goals exact ⟨_, rfl, by simpa using hfetch⟩
  case modifies =>
    simp only [List.mem_cons, List.not_mem_nil, or_false] at hi
    rcases hi with rfl | rfl | rfl | rfl | rfl | rfl
    all_goals exact ⟨_, rfl, by simp [shiftTo_bus, shiftTo_mem, ho, hfetch, ea]⟩
  case stores =>
    simp only [List.mem_cons, List.not_mem_nil, or_false] at hi
    rcases hi with rfl | rfl | rfl
    all_goals exact ⟨_, rfl, by simp [hresolve, ea]⟩
  case jumps => exact ⟨_, rfl, by simp [hresolve]⟩

/-- Settles O55: no transaction, the pushes and pulls of the operation, or the entry into a handler. -/
theorem busTrafficOfTheOthers : Obligations.BusTrafficOfTheOthers := by
  intro s adds push pull vector entry
  refine ⟨fun i hi => ?quiet, fun rel8 i hi => ?branches, ⟨_, rfl, ?pha⟩, ⟨_, rfl, ?php⟩,
    ⟨_, rfl, ?pla⟩, ⟨_, rfl, ?plp⟩, fun target => ⟨_, rfl, ?jsr⟩, ⟨_, rfl, ?rts⟩, ⟨_, rfl, ?rti⟩,
    ⟨_, exec_brk s, ?brk⟩, takeInterrupt_entryTraffic s 8 (by decide) (by decide), fun hi => ?irq,
    fun hi => ?masked⟩
  case quiet =>
    simp only [List.mem_cons, List.not_mem_nil, or_false] at hi
    rcases hi with rfl | rfl | rfl | rfl | rfl | rfl | rfl | rfl | rfl | rfl | rfl | rfl | rfl | rfl |
      rfl | rfl | rfl | rfl | rfl | rfl | rfl | rfl
    all_goals exact ⟨_, rfl, by simp [adds]⟩
  case branches =>
    simp only [List.mem_cons, List.not_mem_nil, or_false] at hi
    rcases hi with rfl | rfl | rfl | rfl | rfl | rfl | rfl | rfl
    all_goals exact ⟨_, rfl, by simp [adds]⟩
  case pha => simp [adds, push]
  case php => simp [adds, push, putFlag_b_u_true]
  case pla => simp [adds, pull, State.top]
  case plp => simp [adds, pull, State.top]
  case jsr => simp [adds, push, State.pushWord_bus]
  case rts => simp [adds, pull, State.pullWord_bus]
  case rti => simp [adds, pull, State.returnFromHandler_bus]
  case brk =>
    have h := enterHandler_entryTraffic s.breaking (vector := irqVector) (putFlag .b true)
      (putFlag .b false) (by decide) (by decide)
    have hstatus : putFlag .b true s.breaking.p = s.p ||| 0x14 := putFlag_b_i_true s.p
    rw [hstatus] at h
    exact h
  case irq =>
    rw [takeIrq_open hi]
    exact takeInterrupt_entryTraffic s 7 (by decide) (by decide)
  case masked => simp [adds, takeIrq_masked hi]

/-- Settles O40: the fields of the begun state are the clock machine's own laws. -/
theorem stepRunsTheDecodedInstruction : Obligations.StepRunsTheDecodedInstruction := by
  intro c s i rest hnext hc hdecode begun
  have hi : instrAt c s.beginEvent = i := instrAt_of_decode hdecode
  have hmode : (describe c (s.mem.read s.pc)).mode = i.operand.mode :=
    hi ▸ (instrAt_mode c s.beginEvent).symm
  have hstep : stepWith c s = finishClock (exec i begun) := hi ▸ stepWith_begin c hnext hc
  refine ⟨hstep, fun t ht => by rw [hstep, ht]; rfl, hi ▸ beginInstr_pc_eq c s.beginEvent, ?cycles,
    ?opcode, ?mode, ?fetched, ?addrAbs, ?addrRel, ?a, ?x, ?y, ?sp, ?p, ?mem, ?events, ?bus⟩
  case mode => rw [← hmode]; exact State.beginInstr_mode c s.beginEvent
  case bus =>
    have htwo : s.beginEvent.pc + 1 + 1 = s.pc + 2 := BitVec.add_assoc s.pc 1 1
    have h := State.beginInstr_bus c s.beginEvent
    rw [htwo] at h
    simpa [hmode] using h
  all_goals simp [begun]

end

