-- ==== Sys2Proof/Proofs/Writers.lean ====
section
/-! PROOF. Who writes what: every instruction's frame against the tables of 10_state.md R21 to R26,
20_memory.md R56 and 47_stack.md R170. -/

namespace Sys2Proof.Machine

theorem Yields.of_exec {i : Instr} {s t : State} {P : State → Prop} (h : Yields i s P)
    (ht : exec i s = .next t) : P t := by
  obtain ⟨u, hu, hP⟩ := h
  obtain rfl : u = t := Host.Outcome.next.inj (hu.symm.trans ht)
  exact hP

/-! Registers and flags. -/

/-- From `s` to `t` only registers and flags changed that list the operation of `i` as a writer. -/
def WrittenBy (i : Instr) (s t : State) : Prop :=
  (∀ r, t.reg r ≠ s.reg r → i.mnemonic ∈ regWriters r) ∧
  (∀ f, t.flag f ≠ s.flag f → i.mnemonic ∈ flagWriters f)

/-- A frame whose registers and flags all list the operation. -/
theorem Frame.writtenBy {regs : List Reg} {flags : List Flag} {stored : List Word} {i : Instr}
    {s t : State} (h : Frame regs flags stored s t)
    (hregs : ∀ r ∈ regs, i.mnemonic ∈ regWriters r := by simp [Instr.mnemonic, regWriters])
    (hflags : ∀ f ∈ flags, i.mnemonic ∈ flagWriters f := by
      simp [Instr.mnemonic, flagWriters, allFlags]) : WrittenBy i s t := by
  obtain ⟨hreg, hflag, _⟩ := h
  refine ⟨fun r hr => hregs r ?_, fun f hf => hflags f ?_⟩
  · by_contra hn
    exact hr (hreg r hn)
  · by_contra hn
    exact hf (hflag f hn)

/-- A shift or rotate writes A in its IMP form and memory in the others. -/
theorem exec_shift_frame {i : Instr} (h : i.mnemonic ∈ [Mnemonic.asl, .lsr, .rol, .ror]) (s : State) :
    Yields i s (Frame (if i.operand = .imp then [.a] else []) [.c, .z, .n]
      (if i.operand = .imp then [] else [((s.resolve i.operand).fetchOperand i.operand).addrAbs]) s) := by
  cases i with
  | asl o | lsr o | rol o | ror o => exact ⟨_, rfl, (frame_shiftTo _ o _ _).operateOn _⟩
  | _ => simp [Instr.mnemonic] at h

/-- Every instruction changes only registers and flags that list it. -/
theorem exec_yields_writtenBy (i : Instr) (s : State) : Yields i s (WrittenBy i s) := by
  cases i with
  | adc o | sbc o => exact ⟨_, rfl, ((frame_addWithCarry _ _).operateOn (o := o) _).writtenBy⟩
  | and o | ora o | eor o | lda o =>
    exact ⟨_, rfl, ((frame_loadA _ _).operateOn (o := o) _).writtenBy⟩
  | bit o => exact ⟨_, rfl, ((frame_bitFlags _ _).operateOn (o := o) _).writtenBy⟩
  | cmp o | cpx o | cpy o =>
    exact ⟨_, rfl, ((frame_compareFlags _ _ _).operateOn (o := o) _).writtenBy⟩
  | asl o | lsr o | rol o | ror o =>
    refine (exec_shift_frame (by simp [Instr.mnemonic]) s).imp fun t h => h.writtenBy ?_
    split <;> simp [Instr.mnemonic, regWriters]
  | inc o | dec o => exact ⟨_, rfl, ((frame_storeZN _ _).operateOn (o := o) _).writtenBy⟩
  | ldx o => exact ⟨_, rfl, ((frame_loadX _ _).operateOn (o := o) _).writtenBy⟩
  | ldy o => exact ⟨_, rfl, ((frame_loadY _ _).operateOn (o := o) _).writtenBy⟩
  | sta o | stx o | sty o => exact ⟨_, rfl, ((frame_busWrite _ _ _).operate (o := o) _).writtenBy⟩
  | inx | dex | tax | tsx => exact ⟨_, rfl, ((frame_loadX _ _).operate _).writtenBy⟩
  | iny | dey | tay => exact ⟨_, rfl, ((frame_loadY _ _).operate _).writtenBy⟩
  | txa | tya => exact ⟨_, rfl, ((frame_loadA _ _).operate _).writtenBy⟩
  | txs => exact ⟨_, rfl, ((frame_setSp _ _).operate _).writtenBy⟩
  | pha | php => exact ⟨_, rfl, ((frame_push _ _).operate _).writtenBy⟩
  | pla => exact (yields_pla s).imp fun t ⟨_, _, _, _, h⟩ => h.writtenBy
  | plp => exact (yields_plp s).imp fun t ⟨_, _, h⟩ => h.writtenBy
  | jmp o => exact (yields_jmp o s).imp fun t ⟨_, _, h⟩ => h.writtenBy
  | jsr target => exact (yields_jsr target s).imp fun t ⟨_, _, _, _, _, h⟩ => h.writtenBy
  | rts => exact (yields_rts s).imp fun t ⟨_, _, _, h⟩ => h.writtenBy
  | bcc r | bcs r | beq r | bne r | bpl r | bmi r | bvc r | bvs r =>
    exact ⟨_, rfl, ((frame_branch _ _).operate (o := .rel r) _).writtenBy⟩
  | brk => exact (yields_brk s).imp fun t ⟨_, _, _, _, h⟩ => h.writtenBy
  | rti => exact (yields_rti s).imp fun t ⟨_, _, _, h⟩ => h.writtenBy
  | clc | sec | cli | sei | cld | sed | clv =>
    exact ⟨_, rfl, ((frame_setFlag _ _ _).operate _).writtenBy⟩
  | nop => exact ⟨_, rfl, ((frame_refl _).operate _).writtenBy⟩
  | und op extra o => exact ⟨_, rfl, ((frame_refl _).operate (o := o) _).writtenBy⟩

/-! Memory. -/

/-- The instruction has no store, write-back or push (20_memory.md R56; 47_stack.md R170). -/
def LeavesMemory (i : Instr) : Prop :=
  i.mnemonic ∉ memoryWriters ∨ (i.mnemonic ∈ [Mnemonic.asl, .lsr, .rol, .ror] ∧ i.operand = .imp)

/-- Memory after an instruction: the same if it has no write, and canonical if it was. -/
structure MemoryFrame (i : Instr) (s t : State) : Prop where
  same : LeavesMemory i → t.mem = s.mem
  canonical : s.mem.wf = true → t.mem.wf = true

theorem MemoryFrame.of_same {i : Instr} {s t : State} (h : t.mem = s.mem) : MemoryFrame i s t :=
  ⟨fun _ => h, fun hwf => by rw [h, hwf]⟩

/-- A writer of memory need only keep it canonical. -/
theorem MemoryFrame.of_writer {i : Instr} {s t : State} (h : ¬LeavesMemory i)
    (hwf : s.mem.wf = true → t.mem.wf = true) : MemoryFrame i s t :=
  ⟨fun hl => absurd hl h, hwf⟩

theorem wf_enterHandler {s : State} (h : s.mem.wf = true) (vector : Word) (before after : Byte → Byte) :
    (s.enterHandler vector before after).mem.wf = true := by
  rw [State.enterHandler_mem]
  exact Memory.wf_write (Memory.wf_write (Memory.wf_write h _ _) _ _) _ _

theorem exec_yields_memoryFrame (i : Instr) (s : State) : Yields i s (MemoryFrame i s) := by
  cases i with
  | adc o | sbc o | and o | ora o | eor o | bit o | cmp o | cpx o | cpy o | lda o | ldx o | ldy o
  | jmp o | und _ _ o => exact ⟨_, rfl, .of_same (by simp)⟩
  | inx | iny | dex | dey | tax | tay | txa | tya | tsx | txs | pla | plp | rts | rti
  | clc | sec | cli | sei | cld | sed | clv | nop => exact ⟨_, rfl, .of_same (by simp)⟩
  | bcc r | bcs r | beq r | bne r | bpl r | bmi r | bvc r | bvs r =>
    exact ⟨_, rfl, .of_same (by simp)⟩
  | asl o | lsr o | rol o | ror o =>
    by_cases ho : o = .imp
    · subst ho
      exact ⟨_, rfl, .of_same rfl⟩
    · refine ⟨_, rfl, .of_writer (by simp [LeavesMemory, Instr.mnemonic, memoryWriters,
        Instr.operand, ho]) fun h => ?_⟩
      simpa [shiftTo_mem, ho] using Memory.wf_write h _ _
  | inc o | dec o | sta o | stx o | sty o =>
    refine ⟨_, rfl, .of_writer (by simp [LeavesMemory, Instr.mnemonic, memoryWriters]) fun h => ?_⟩
    simpa using Memory.wf_write h _ _
  | pha | php =>
    exact ⟨_, rfl, .of_writer (by simp [LeavesMemory, Instr.mnemonic, memoryWriters])
      fun h => Memory.wf_write h _ _⟩
  | jsr target =>
    refine ⟨_, rfl, .of_writer (by simp [LeavesMemory, Instr.mnemonic, memoryWriters]) fun h => ?_⟩
    exact Memory.wf_write (Memory.wf_write h _ _) _ _
  | brk =>
    exact ⟨_, exec_brk s, .of_writer (by simp [LeavesMemory, Instr.mnemonic, memoryWriters])
      fun h => wf_enterHandler (s := s.breaking) h _ _ _⟩

end Sys2Proof.Machine

open Sys2Proof Sys2Proof.Machine

/-- Settles O35, from the flags of every instruction's frame. -/
theorem onlyListedInstructionsWriteFlags : Obligations.OnlyListedInstructionsWriteFlags := by
  intro i s t f ht hf
  obtain ⟨_, hflags⟩ := (exec_yields_writtenBy i s).of_exec ht
  exact hflags f hf

/-- Settles O37, from the registers of every instruction's frame, the frame of a shift and the writers of
PC. -/
theorem onlyListedInstructionsWriteRegisters : Obligations.OnlyListedInstructionsWriteRegisters := by
  intro i s t ht
  refine ⟨?regs, fun ha hshift => ?shift, fun hpc => ?pc⟩
  case regs => exact ((exec_yields_writtenBy i s).of_exec ht).1
  case shift =>
    obtain ⟨hreg, _⟩ := (exec_shift_frame hshift s).of_exec ht
    by_contra himp
    exact ha (hreg .a (by simp [himp]))
  case pc =>
    by_contra hi
    exact hpc (((exec_yields_execFrame i s).of_exec ht).pc hi)

/-- Settles O38, from every instruction's memory frame. -/
theorem onlyListedInstructionsWriteMemory : Obligations.OnlyListedInstructionsWriteMemory := by
  intro i s t ht hmem
  have hwrites : ¬LeavesMemory i := fun h => hmem (((exec_yields_memoryFrame i s).of_exec ht).same h)
  obtain ⟨hwriter, hshift⟩ := not_or.mp hwrites
  exact ⟨not_not.mp hwriter, fun hi himp => hshift ⟨hi, himp⟩⟩

/-- Settles O36: the flag frames of the other instructions, the status bytes of the four that push or pull
P, and those of `Reset` and the entries. -/
theorem breakAndUnusedAreStorageBits : Obligations.BreakAndUnusedAreStorageBits := by
  refine ⟨fun i s hi => ?others, fun s => ⟨?plp, ?rti, ?brk, ?php⟩, fun c s => ?events⟩
  case others =>
    obtain ⟨hplp, hrti, hbrk⟩ : i.mnemonic ≠ .plp ∧ i.mnemonic ≠ .rti ∧ i.mnemonic ≠ .brk := by
      simpa using hi
    have hb : i.mnemonic ∉ flagWriters .b := by simp [flagWriters, hplp, hrti, hbrk]
    have hu : i.mnemonic ∉ flagWriters .u := by simp [flagWriters, hplp, hrti]
    refine (exec_yields_writtenBy i s).imp fun t ⟨_, hflag⟩ => ?_
    exact ⟨by_contra fun h => hb (hflag .b h), by_contra fun h => hu (hflag .u h)⟩
  case plp => exact ⟨_, rfl, by simp [State.top]⟩
  case rti => exact ⟨_, rfl, by simp [State.flag]⟩
  case brk =>
    refine (yields_brk s).imp fun t ⟨_, _, hb, ⟨_, _, _, hstatus⟩, _, hflag, _⟩ => ?_
    exact ⟨hb, hflag .u (by simp), hstatus⟩
  case php => exact ⟨_, rfl, rfl, by simp [putFlag_b_u_true]⟩
  case events =>
    refine ⟨?reset, ?nmi, fun hi => ?irq, fun hi => by rw [takeIrq_masked hi], fun hc => ?count, by simp⟩
    case reset =>
      rw [State.takeReset_eq]
      exact ⟨resetStatus_flag .b, resetStatus_flag .u⟩
    case nmi =>
      obtain ⟨_, _, _, _, hb, hu, _, _, hstatus, _⟩ := interruptLeaves_takeNmi s
      exact ⟨hb, hu, hstatus⟩
    case irq =>
      obtain ⟨_, _, _, _, hb, hu, _, _, hstatus, _⟩ := interruptLeaves_takeIrq hi
      exact ⟨hb, hu, hstatus⟩
    case count => exact ⟨s.countDown, if_neg hc, rfl⟩

end

