-- ==== Sys2Proof/Proofs/CycleCounts.lean ====
section
/-! PROOF. The cycle counter (10_state.md R32; 60_exceptions.md R225 to R228; 70_reset_and_hazards.md R258):
what every instruction adds to it, the bounds of the counts, and the countdown. -/

namespace Sys2Proof.Machine

/-! What an instruction adds to the counter. -/

/-- The counter gains exactly the conditional cycles; the driver's events and the mode tag stay. -/
structure CycleFrame (i : Instr) (s t : State) : Prop where
  cycles : t.cycles = s.cycles + BitVec.ofNat 8 (extraCycles i s)
  events : t.events = s.events
  mode : t.mode = s.mode

theorem ofNat_ite_one (b : Bool) : BitVec.ofNat 8 (if b then 1 else 0) = (if b then 1 else 0 : Byte) := by
  cases b <;> rfl

@[simp] theorem storeZN_cycles (s : State) (v : Byte) : (s.storeZN v).cycles = s.cycles := rfl

@[simp] theorem storeZN_events (s : State) (v : Byte) : (s.storeZN v).events = s.events := rfl

@[simp] theorem storeZN_mode (s : State) (v : Byte) : (s.storeZN v).mode = s.mode := rfl

/-- An instruction that is no branch: its operation leaves the counter alone. -/
theorem CycleFrame.addExtra {i : Instr} {s t : State} (hbranch : branchTest i.mnemonic = none)
    (hcycles : t.cycles = s.cycles) (hevents : t.events = s.events) (hmode : t.mode = s.mode) :
    CycleFrame i s (t.addExtra (pageCross i.operand s && signals i)) := by
  have htaken : branchTaken i s = false := by rw [branchTaken, hbranch]
  refine ⟨?_, by simpa using hevents, by simpa using hmode⟩
  rw [State.addExtra_cycles, hcycles, extraCycles, htaken, ← ofNat_ite_one]
  simp

/-- The eight branches are one operation, on the condition `branchTaken`. -/
theorem exec_branch {i : Instr} (hi : i.mnemonic ∈ branches) (s : State) :
    exec i s = .next ((s.resolve i.operand).branch (branchTaken i s)) := by
  cases i with
  | bcc r | bne r | bpl r | bvc r =>
    have htaken (f : Flag) : (s.flag f == false) = !s.flag f := beq_false _
    simp only [branchTaken, Instr.mnemonic, branchTest, htaken]
    rfl
  | bcs r | beq r | bmi r | bvs r =>
    have htaken (f : Flag) : (s.flag f == true) = s.flag f := beq_true _
    simp only [branchTaken, Instr.mnemonic, branchTest, htaken]
    rfl
  | _ => simp [Instr.mnemonic, branches] at hi

/-- A branch: one cycle when taken, a second to another page. -/
theorem cycleFrame_branch {i : Instr} {r : Byte} (ho : i.operand = .rel r) (s : State) :
    CycleFrame i s ((s.resolve i.operand).branch (branchTaken i s)) := by
  refine ⟨?_, by simp, by simp⟩
  cases htaken : branchTaken i s with
  | false => simp [extraCycles, htaken, ho]
  | true =>
    have htarget : branchTarget i s = s.pc + sext16 r := by rw [branchTarget, ho]; rfl
    by_cases hpage : hiByte (s.pc + sext16 r) = hiByte s.pc <;>
      simp [State.branch_true_cycles, extraCycles, htaken, htarget, ho, hpage]

theorem exec_yields_cycleFrame (i : Instr) (s : State) : Yields i s (CycleFrame i s) := by
  cases i with
  | adc o | sbc o | and o | ora o | eor o | bit o | cmp o | cpx o | cpy o | lda o | ldx o | ldy o
  | asl o | lsr o | rol o | ror o | inc o | dec o | sta o | stx o | sty o | jmp o | jsr _ | und _ _ _ =>
    exact ⟨_, rfl, .addExtra rfl (by simp) (by simp) (by simp)⟩
  | inx | iny | dex | dey | tax | tay | txa | tya | tsx | txs | pha | pla | php | plp | rts | rti | brk
  | clc | sec | cli | sei | cld | sed | clv | nop =>
    exact ⟨_, rfl, .addExtra rfl (by simp) (by simp) (by simp)⟩
  | bcc r | bcs r | beq r | bne r | bpl r | bmi r | bvc r | bvs r =>
    exact ⟨_, exec_branch (by simp [Instr.mnemonic, branches]) s, cycleFrame_branch rfl s⟩

/-! The bounds of a count. -/

/-- An instruction adds at most two cycles, and at most one if it is no branch. -/
theorem extraCycles_le (i : Instr) (s : State) :
    extraCycles i s ≤ if i.mnemonic ∈ branches then 2 else 1 := by
  have hcross : i.mnemonic ∈ branches → (pageCross i.operand s && signals i) = false := fun hi => by
    cases i with
    | bcc | bcs | beq | bne | bpl | bmi | bvc | bvs => rfl
    | _ => simp [Instr.mnemonic, branches] at hi
  have htaken : i.mnemonic ∉ branches → branchTaken i s = false := fun hi => by
    cases i with
    | bcc | bcs | beq | bne | bpl | bmi | bvc | bvs => simp [Instr.mnemonic, branches] at hi
    | _ => rfl
  by_cases hi : i.mnemonic ∈ branches
  · rw [extraCycles, hcross hi, if_pos hi]
    by_cases hpage : hiByte (branchTarget i s) = hiByte s.pc <;> cases branchTaken i s <;> simp [hpage]
  · rw [extraCycles, htaken hi, if_neg hi]
    split <;> simp

theorem fixedRows_base : ∀ r ∈ fixedRows, 1 ≤ r.base.toNat ∧ r.base.toNat ≤ 7 := by decide +kernel

/-- At the default parameters every base count is between 1 and 7. -/
theorem describe_base_default (op : Byte) :
    1 ≤ (describe Config.default op).base.toNat ∧ (describe Config.default op).base.toNat ≤ 7 := by
  rcases describe_cases Config.default op with ⟨_, hmem, _⟩ | ⟨_, hrow⟩
  · rcases List.mem_cons.mp hmem with h | h
    · rw [h]
      decide
    · exact fixedRows_base _ h
  · rw [hrow]
    exact (by decide : 1 ≤ (2 : Byte).toNat ∧ (2 : Byte).toNat ≤ 7)

/-- At any valid parameters every base count is at least 1; a branch's is at most 7, another's at most
254. -/
theorem describe_base_valid {c : Config} (hc : c.CountsValid) (op : Byte) :
    1 ≤ (describe c op).base.toNat ∧
    (describe c op).base.toNat ≤ if (describe c op).operation ∈ branches then 7 else 254 := by
  obtain ⟨hundef, hbrk, _⟩ := hc
  rcases describe_cases c op with ⟨_, hmem, _⟩ | ⟨_, hrow⟩
  · rcases List.mem_cons.mp hmem with h | h
    · rw [h]
      exact hbrk
    · obtain ⟨h1, h7⟩ := fixedRows_base _ h
      exact ⟨h1, by split <;> omega⟩
  · rw [hrow]
    exact hundef op

/-! The count of the instruction at PC. -/

/-- The conditional cycles depend on X, Y, P, PC and memory. -/
theorem extraCycles_congr (i : Instr) {s t : State} (hx : t.x = s.x) (hy : t.y = s.y) (hp : t.p = s.p)
    (hpc : t.pc = s.pc) (hmem : t.mem = s.mem) : extraCycles i t = extraCycles i s := by
  have hcross : pageCross i.operand t = pageCross i.operand s := by
    cases i.operand <;> simp [pageCross, effectiveAddress, indexBase, hx, hy, hmem]
  have htaken : branchTaken i t = branchTaken i s := by simp [branchTaken, State.flag, hp]
  have htarget : branchTarget i t = branchTarget i s := by rw [branchTarget, branchTarget, hpc]
  rw [extraCycles, extraCycles, hcross, htaken, htarget, hpc]

theorem instrCycles_beginEvent (c : Config) (s : State) :
    instrCycles c s.beginEvent = instrCycles c s := by
  have hpc : (s.beginEvent.beginInstr c).pc = (s.beginInstr c).pc := by simp [State.beginInstr_pc]
  rw [instrCycles, instrCycles, extraCycles_congr (s := s.beginInstr c) _ (by simp) (by simp)
    (by simp) hpc (by simp)]
  rfl

theorem instrCycles_bounds {c : Config} (hc : c.CountsValid) (s : State) :
    1 ≤ instrCycles c s ∧ instrCycles c s ≤ 255 := by
  obtain ⟨hlow, hhigh⟩ := describe_base_valid hc (s.mem.read s.pc)
  have hextra := extraCycles_le (instrAt c s) (s.beginInstr c)
  have hmnemonic : (instrAt c s).mnemonic = (describe c (s.mem.read s.pc)).operation :=
    decodeBytes_mnemonic ..
  rw [hmnemonic] at hextra
  rw [instrCycles]
  by_cases hbranch : (describe c (s.mem.read s.pc)).operation ∈ branches
  · rw [if_pos hbranch] at hhigh hextra
    omega
  · rw [if_neg hbranch] at hhigh hextra
    omega

/-- The first `Clock` of an instruction makes all its effects and leaves its count minus one; of the
driver's events those after the first are left. -/
theorem stepWith_begin_cycles {c : Config} (hc : c.CountsValid) {s : State} (h : nextEvent s = .clock)
    (h0 : s.cycles = 0) :
    ∃ t, stepWith c s = .next t ∧ t.cycles.toNat + 1 = instrCycles c s ∧ t.events = s.events.tail := by
  obtain ⟨t, ht, hframe⟩ :=
    exec_yields_cycleFrame (instrAt c s.beginEvent) (s.beginEvent.beginInstr c)
  refine ⟨t.countDown, by rw [stepWith_begin c h h0, ht]; rfl, ?_, by
    rw [State.countDown, State.setCycles_events, hframe.events]; simp⟩
  obtain ⟨hlow, hhigh⟩ := instrCycles_bounds hc s
  have hcount : t.cycles = BitVec.ofNat 8 (instrCycles c s) := by
    rw [hframe.cycles, ← instrCycles_beginEvent, instrCycles, State.beginInstr_cycles, BitVec.ofNat_add,
      BitVec.ofNat_toNat, BitVec.setWidth_eq]
  rw [State.countDown, State.setCycles_cycles, hcount, toNat_sub_one, BitVec.toNat_ofNat]
  omega

/-! The countdown. -/

theorem toNat_sub_one_of_pos {b : Byte} (h : 1 ≤ b.toNat) : (b - 1).toNat = b.toNat - 1 := by
  have := b.isLt
  rw [toNat_sub_one]
  omega

/-- With no event raised, a `Clock` inside an instruction. -/
theorem stepWith_wait (c : Config) {s : State} (h : s.events = []) (hc : s.cycles ≠ 0) :
    stepWith c s = .next { s with cycles := s.cycles - 1, bus := [] } := by
  rw [stepWith_countDown c (nextEvent_of_nil h) hc]
  simp [State.countDown, State.beginEvent, State.setCycles, State.setBus, State.setEvents, h]

/-- With no event raised, `k + 1` events of a countdown that lasts that long. -/
theorem runSteps_countDown (c : Config) {s : State} (h : s.events = []) {k : Nat}
    (hk : k + 1 ≤ s.cycles.toNat) :
    runSteps c (k + 1) s =
      .next { s with cycles := BitVec.ofNat 8 (s.cycles.toNat - (k + 1)), bus := [] } := by
  induction k generalizing s with
  | zero =>
    have hne : s.cycles ≠ 0 := fun e => by simp [e] at hk
    rw [runSteps_of_step (stepWith_wait c h hne), runSteps, ← toNat_sub_one_of_pos hk,
      BitVec.ofNat_toNat, BitVec.setWidth_eq]
  | succ k ih =>
    have hne : s.cycles ≠ 0 := fun e => by simp [e] at hk
    have hone := toNat_sub_one_of_pos (by omega : 1 ≤ s.cycles.toNat)
    have hrest := ih (s := { s with cycles := s.cycles - 1, bus := [] }) h (by rw [hone]; omega)
    rw [runSteps_of_step (stepWith_wait c h hne), hrest, hone, Nat.sub_sub, Nat.add_comm 1]

/-- The count of the instruction at PC, with each conditional cycle spelled out. -/
theorem instrCycles_eq (c : Config) (s : State) :
    let begun := s.beginEvent.beginInstr c
    let i := instrAt c s
    instrCycles c s = (describe c (s.mem.read s.pc)).base.toNat +
      (if pageCross i.operand begun && signals i then 1 else 0) +
      (if branchTaken i begun then 1 else 0) +
      (if branchTaken i begun && (hiByte (branchTarget i begun) != hiByte begun.pc) then 1 else 0) := by
  intro begun i
  have h : instrCycles c s = (describe c (s.mem.read s.pc)).base.toNat + extraCycles i begun :=
    (instrCycles_beginEvent c s).symm
  rw [h, extraCycles]
  by_cases hpage : hiByte (branchTarget i begun) = hiByte begun.pc <;> cases branchTaken i begun <;>
    simp [hpage, Nat.add_assoc]

end Sys2Proof.Machine

open Sys2Proof Sys2Proof.Machine

/-- Settles O34, from every instruction's cycle frame. -/
theorem extraCyclesOfEveryInstruction : Obligations.ExtraCyclesOfEveryInstruction := by
  intro i s
  obtain ⟨t, ht, hcycles⟩ := exec_yields_cycleFrame i s
  exact ⟨t, ht, hcycles.cycles, hcycles.events, ((exec_yields_execFrame i s).of_exec ht).opcode,
    hcycles.mode⟩

/-- Settles O9: the conditional cycles of an instruction that neither signals nor branches are none. -/
theorem onlyThreeModesReportPageCross : Obligations.OnlyThreeModesReportPageCross := by
  refine ⟨fun o s => pageCross_mode, fun m => exists_pageCross, fun i s hsig htaken => ?_,
    fun c => ⟨rfl, rfl⟩⟩
  refine (exec_yields_cycleFrame i s).imp fun t h => ?_
  simpa [extraCycles, hsig, htaken] using h.cycles

/-- Settles O43: base count and conditional cycles fit in the counter, so it does not wrap. -/
theorem counterStaysInRange : Obligations.CounterStaysInRange := by
  intro c s hc h h0
  obtain ⟨hlow, hhigh⟩ := instrCycles_bounds hc s
  obtain ⟨t, ht, hcycles, _⟩ := stepWith_begin_cycles hc h h0
  exact ⟨hlow, hhigh, t, ht, hcycles⟩

/-- Settles O44: the count spelled out, its first `Clock` and the countdown after it; the entries and the
three base counts are constants. -/
theorem instructionOccupiesItsCycles : Obligations.InstructionOccupiesItsCycles := by
  refine ⟨fun c s hc h h0 => ?instr, fun c s => ⟨rfl, rfl, ?irq⟩,
    fun c => ⟨rfl, rfl, fun op hop => ?branch⟩⟩
  case instr =>
    obtain ⟨hlow, _⟩ := instrCycles_bounds hc s
    obtain ⟨t, ht, hcycles, hevents⟩ := stepWith_begin_cycles hc (nextEvent_of_nil h) h0
    have hcount : t.cycles.toNat = instrCycles c s - 1 := by omega
    refine ⟨instrCycles_eq c s, hlow, t, ht, hcount, fun k hk => ?_⟩
    rw [runSteps_of_step ht, runSteps_countDown c (by rw [hevents, h]; rfl) (by omega), hcount,
      Nat.sub_sub, Nat.add_comm 1]
  case irq =>
    rw [State.takeIrq]
    split <;> rfl
  case branch =>
    simp only [List.mem_cons, List.not_mem_nil, or_false] at hop
    rcases hop with rfl | rfl | rfl | rfl | rfl | rfl | rfl | rfl
    all_goals exact ⟨rfl, rfl⟩

end

