-- ==== Sys2Proof/Proofs/Invariant.lean ====
section
/-! PROOF. The invariant of a safe run (10_state.md R31, R32; 20_memory.md R51): the reset state meets it and
every event keeps it. -/

namespace Sys2Proof.Machine

theorem inv_takeInterrupt {s : State} (h : Inv s) (vector : Word) {count : Byte} (hcount : count.toNat ≤ 8) :
    Inv (s.takeInterrupt vector count) := by
  obtain ⟨hwf, hmode, _⟩ := h
  rw [State.takeInterrupt]
  refine ⟨?wf, by simpa using hmode, hcount⟩
  rw [State.setCycles_mem]
  exact wf_enterHandler hwf vector interruptStatus (putFlag .i true)

theorem inv_takeReset {s : State} (h : Inv s) : Inv (s.takeReset Config.default) := by
  obtain ⟨hwf, _⟩ := h
  rw [State.takeReset_eq]
  exact ⟨hwf, rfl, (by decide : (8 : Byte).toNat ≤ 8)⟩

theorem inv_takeIrq {s : State} (h : Inv s) : Inv s.takeIrq := by
  rw [State.takeIrq]
  split
  · exact h
  · exact inv_takeInterrupt h irqVector (by decide)

/-- A `Clock` inside an instruction keeps the invariant. -/
theorem inv_countDown {s : State} (h : Inv s) (hc : s.cycles ≠ 0) : Inv s.countDown := by
  obtain ⟨hwf, hmode, hcycles⟩ := h
  have hpos : 1 ≤ s.cycles.toNat := Nat.one_le_iff_ne_zero.mpr fun e => hc (BitVec.eq_of_toNat_eq e)
  refine ⟨hwf, hmode, ?_⟩
  rw [State.countDown, State.setCycles_cycles, toNat_sub_one_of_pos hpos]
  omega

/-- What an instruction leaves meets the invariant: the mode tag is the one the fetch set, and the counter
is the base count plus at most two, minus one. -/
theorem inv_begin {s : State} (h : Inv s) (i : Instr) {t : State}
    (ht : exec i (s.beginInstr Config.default) = .next t) : Inv t.countDown := by
  obtain ⟨hwf, _⟩ := h
  have hmem := (exec_yields_memoryFrame i _).of_exec ht
  have hframe := (exec_yields_execFrame i _).of_exec ht
  have hcycle := (exec_yields_cycleFrame i _).of_exec ht
  refine ⟨hmem.canonical (by simpa using hwf), ?mode, ?cycles⟩
  case mode =>
    show t.mode = (describe Config.default t.opcode).mode
    rw [hcycle.mode, hframe.opcode, State.beginInstr_mode, State.beginInstr_opcode]
  case cycles =>
    obtain ⟨hlow, hhigh⟩ := describe_base_default (s.mem.read s.pc)
    have hextra : extraCycles i (s.beginInstr Config.default) ≤ 2 :=
      (extraCycles_le i _).trans (by split <;> decide)
    rw [State.countDown, State.setCycles_cycles, hcycle.cycles, State.beginInstr_cycles, toNat_sub_one,
      BitVec.toNat_add, BitVec.toNat_ofNat]
    omega

theorem inv_clockEvent {s t : State} (h : Inv s) (ht : clockEvent Config.default s = .next t) : Inv t := by
  by_cases hc : s.cycles = 0
  · rw [clockEvent, if_pos hc] at ht
    obtain ⟨u, hu, _⟩ := exec_yields_execFrame (instrAt Config.default s) (s.beginInstr Config.default)
    rw [hu] at ht
    obtain rfl : u.countDown = t := Host.Outcome.next.inj ht
    exact inv_begin h _ hu
  · rw [clockEvent, if_neg hc] at ht
    obtain rfl : s.countDown = t := Host.Outcome.next.inj ht
    exact inv_countDown h hc

end Sys2Proof.Machine

open Sys2Proof Sys2Proof.Machine

/-- Settles O45: the reset state field by field; opcode 0x00 is BRK, of mode IMP. -/
theorem resetStateMeetsTheInvariant : Obligations.ResetStateMeetsTheInvariant := by
  refine ⟨Memory.wf_nil, ?_, by decide⟩
  decide

/-- Settles O46: each event keeps the invariant. -/
theorem everyStepKeepsTheInvariant : Obligations.EveryStepKeepsTheInvariant := by
  intro s t h ht
  have hbegin : Inv s.beginEvent := h
  rw [step, stepWith] at ht
  cases hnext : nextEvent s <;> rw [hnext] at ht
  case clock => exact inv_clockEvent hbegin ht
  case reset =>
    obtain rfl : s.beginEvent.takeReset Config.default = t := Host.Outcome.next.inj ht
    exact inv_takeReset hbegin
  case irq =>
    obtain rfl : s.beginEvent.takeIrq = t := Host.Outcome.next.inj ht
    exact inv_takeIrq hbegin
  case nmi =>
    obtain rfl : s.beginEvent.takeNmi = t := Host.Outcome.next.inj ht
    exact inv_takeInterrupt hbegin nmiVector (by decide)

end

