-- ==== Sys2Proof/Proofs/Timing.lean ====
section
/-! PROOF. No value depends on the cycle counter (70_reset_and_hazards.md R260): no instruction reads it, so
runs with other counts go through the same states. -/

namespace Sys2Proof.Machine

/-! The counter: an instruction started with another count leaves the same state but for the counter. -/

/-- The two states differ in the counter alone. -/
def SameButCycles (s t : State) : Prop := s.setCycles 0 = t.setCycles 0

theorem SameButCycles.eq_setCycles {s t : State} (h : SameButCycles s t) : s = t.setCycles s.cycles :=
  (congrArg (State.setCycles · s.cycles) h :
    (s.setCycles 0).setCycles s.cycles = (t.setCycles 0).setCycles s.cycles)

theorem sameButCycles_setCycles (s : State) (n : Byte) : SameButCycles (s.setCycles n) s := rfl

theorem SameButCycles.addExtra {s t : State} (h : SameButCycles s t) (both : Bool) :
    SameButCycles (s.addExtra both) (t.addExtra both) := by
  cases both <;> exact h

theorem sameButCycles_branch (s : State) (taken : Bool) (n : Byte) :
    SameButCycles ((s.setCycles n).branch taken) (s.branch taken) := by
  rw [State.branch_setCycles]
  exact sameButCycles_setCycles _ _

/-- The entry of BRK, with another count. -/
theorem sameButCycles_breaking (s : State) (n : Byte) :
    SameButCycles
      ((s.setCycles n).breaking.enterHandler irqVector (putFlag .b true) (putFlag .b false))
      (s.breaking.enterHandler irqVector (putFlag .b true) (putFlag .b false)) := by
  have h : (s.setCycles n).breaking = s.breaking.setCycles n := rfl
  rw [h, State.enterHandler_setCycles]
  exact sameButCycles_setCycles _ n

theorem sameButCycles_returnFromHandler (s : State) (n : Byte) :
    SameButCycles (s.setCycles n).returnFromHandler s.returnFromHandler := by
  rw [State.returnFromHandler_setCycles]
  exact sameButCycles_setCycles _ n

/-- No meaning reads the counter: all but the branch and the extra cycle commute with a write of it. -/
theorem exec_setCycles (i : Instr) (s : State) (n : Byte) :
    ∃ t u, exec i s = .next t ∧ exec i (s.setCycles n) = .next u ∧ SameButCycles u t := by
  cases i with
  | adc o | sbc o | and o | ora o | eor o | bit o | cmp o | cpx o | cpy o | lda o | ldx o | ldy o
  | inc o | dec o | sta o | stx o | sty o | jmp o | und _ _ o =>
    refine ⟨_, _, rfl, rfl, ?_⟩
    simp only [State.resolve_setCycles, pageCross_setCycles, State.fetchOperand_setCycles]
    exact .addExtra (by rfl) _
  | asl o | lsr o | rol o | ror o =>
    refine ⟨_, _, rfl, rfl, ?_⟩
    simp only [State.resolve_setCycles, pageCross_setCycles, State.fetchOperand_setCycles]
    refine .addExtra ?_ _
    rw [State.shiftTo_setCycles]
    exact sameButCycles_setCycles _ n
  | jsr _ | inx | iny | dex | dey | tax | tay | txa | tya | tsx | txs | pha | pla | php | plp | rts
  | clc | sec | cli | sei | cld | sed | clv | nop => exact ⟨_, _, rfl, rfl, rfl⟩
  | bcc r | bcs r | beq r | bne r | bpl r | bmi r | bvc r | bvs r =>
    exact ⟨_, _, rfl, rfl, sameButCycles_branch (s.resolve (.rel r)) _ n⟩
  | brk => exact ⟨_, _, exec_brk s, exec_brk _, sameButCycles_breaking s n⟩
  | rti => exact ⟨_, _, rfl, rfl, sameButCycles_returnFromHandler (s.resolve .imp) n⟩

/-- Started with another count, an instruction leaves the counter shifted by the difference. -/
theorem exec_setCycles_shifted (i : Instr) (s : State) (n : Byte) :
    ∃ t, exec i s = .next t ∧
      exec i (s.setCycles n) = .next (t.setCycles (t.cycles + (n - s.cycles))) := by
  obtain ⟨t, u, ht, hu, hsame⟩ := exec_setCycles i s n
  have htcycles := ((exec_yields_cycleFrame i s).of_exec ht).cycles
  have hucycles := ((exec_yields_cycleFrame i _).of_exec hu).cycles
  have hextra : extraCycles i (s.setCycles n) = extraCycles i s :=
    extraCycles_congr i rfl rfl rfl rfl rfl
  have hshift (x y d : Byte) : x + d = y + d + (x - y) := by
    rw [BitVec.sub_eq_add_neg]; ac_nf; simp
  refine ⟨t, ht, ?_⟩
  rw [hu, hsame.eq_setCycles, hucycles, htcycles, hextra, State.setCycles_cycles, hshift n s.cycles]

/-! Runs of whole instructions, with any base counts. -/

theorem readOperandBytes_setCycles (s : State) (m : Mode) (n : Byte) :
    (s.setCycles n).readOperandBytes m = (s.readOperandBytes m).setCycles n := by
  cases m <;> rfl

/-- An event with another base count ends in the same state, the counter aside. -/
theorem instrWithBase_sameButCycles (c : Config) (base : Byte) {s : State} (h : s.cycles = 0) :
    ∃ t u, instrWithBase c base s = .next t ∧ stepWith c s = .next u ∧ SameButCycles t u := by
  rw [instrWithBase]
  cases hnext : nextEvent s with
  | clock =>
    obtain ⟨t, u, ht, hu, hsame⟩ :=
      exec_setCycles (instrAt c s.beginEvent) (s.beginEvent.beginInstr c) base
    exact ⟨u, t.countDown, hu, by rw [stepWith_begin c hnext h, ht]; rfl, hsame⟩
  | reset | irq | nmi => exact ⟨_, _, rfl, by rw [stepWith, hnext]; rfl, rfl⟩

/-- A run whose instructions take any base counts goes through the same states. -/
theorem runWithBases_eq (c : Config) (bases : List Byte) {s : State} (h : s.cycles = 0) :
    runWithBases c bases s = runInstrs c bases.length s := by
  induction bases generalizing s with
  | nil => rfl
  | cons base bases ih =>
    obtain ⟨t, u, ht, hu, hsame⟩ := instrWithBase_sameButCycles c base h
    rw [List.length_cons, runWithBases, runInstrs, ht, hu]
    exact (ih rfl).trans (congrArg (runInstrs c bases.length) hsame)

/-! Machines that differ in their count parameters alone. -/

/-- The parameters agree but for the cycle counts. -/
structure SameButCounts (c c' : Config) : Prop where
  undefMode : c'.undefMode = c.undefMode
  undefExtra : c'.undefExtra = c.undefExtra
  busReinit : c'.busReinit = c.busReinit

variable {c c' : Config}

theorem SameButCounts.describe (h : SameButCounts c c') (op : Byte) :
    (describe c' op).operation = (describe c op).operation ∧
    (describe c' op).mode = (describe c op).mode := by
  by_cases h0 : op = 0
  · subst h0
    exact ⟨rfl, rfl⟩
  · rw [describe_of_ne_zero c' h0, describe_of_ne_zero c h0, h.undefMode]
    cases fixedRows.find? (fun q => q.opcode == op) <;> exact ⟨rfl, rfl⟩

theorem SameButCounts.instrAt (h : SameButCounts c c') (s : State) : instrAt c' s = instrAt c s := by
  obtain ⟨hoperation, hmode⟩ := h.describe (s.mem.read s.pc)
  have hbuild (m : Mnemonic) (op : Byte) (o : Operand) : buildInstr c' op m o = buildInstr c op m o := by
    cases m with
    | und => rw [buildInstr, buildInstr, h.undefExtra]
    | _ => rfl
  rw [Machine.instrAt, Machine.instrAt, decodeBytes, decodeBytes, hoperation, hmode, hbuild]

theorem SameButCounts.beginInstr (h : SameButCounts c c') (s : State) (base : Byte) :
    (s.beginInstr c').setCycles base = (s.beginInstr c).setCycles base := by
  obtain ⟨_, hmode⟩ := h.describe (s.mem.read s.pc)
  simp only [State.beginInstr, readOperandBytes_setCycles, hmode]
  rfl

theorem SameButCounts.instrWithBase (h : SameButCounts c c') (base : Byte) (s : State) :
    instrWithBase c' base s = instrWithBase c base s := by
  rw [Machine.instrWithBase, Machine.instrWithBase]
  cases nextEvent s with
  | clock => simp only [h.instrAt, h.beginInstr]
  | reset => simp only [deliver, State.takeReset_eq, h.busReinit]
  | irq | nmi => rfl

theorem SameButCounts.runWithBases (h : SameButCounts c c') (bases : List Byte) (s : State) :
    runWithBases c' bases s = runWithBases c bases s := by
  induction bases generalizing s with
  | nil => rfl
  | cons base bases ih => simp only [Machine.runWithBases, h.instrWithBase, ih]

theorem SameButCounts.runInstrs (h : SameButCounts c c') (k : Nat) {s : State} (hs : s.cycles = 0) :
    runInstrs c k s = runInstrs c' k s := by
  have hrun (d : Config) : Machine.runInstrs d k s = Machine.runWithBases d (List.replicate k 0) s := by
    rw [runWithBases_eq d _ hs, List.length_replicate]
  rw [hrun, hrun, h.runWithBases]

end Sys2Proof.Machine

open Sys2Proof Sys2Proof.Machine

/-- Settles O47: no meaning reads the counter, and every instruction begins by assigning it. -/
theorem timingNeverChangesValues : Obligations.TimingNeverChangesValues :=
  ⟨exec_setCycles_shifted, fun c bases _ => runWithBases_eq c bases,
    fun _ _ hmode hextra hbus k _ => SameButCounts.runInstrs ⟨hmode, hextra, hbus⟩ k⟩

end

