-- ==== Sys2Proof/Proofs/Decimal.lean ====
section
/-! PROOF. The status register as a whole: its layout (10_state.md R25), and that the Decimal flag changes
nothing (R27; 41_arithmetic.md R120): every operation but those that push or write it commutes with a write
of it. -/

namespace Sys2Proof.Machine

/-! Writes of different flags, and of a flag and another field, commute. -/

theorem putFlag_comm {f g : Flag} (h : g ≠ f) (on d : Bool) (p : Byte) :
    putFlag g on (putFlag f d p) = putFlag f d (putFlag g on p) := by
  refine status_ext fun k => ?_
  by_cases hg : k = g
  · subst hg
    simp [h]
  · simp [hg]

variable (s : State) (d : Bool)

@[simp] theorem setFlag_setDecimal {g : Flag} (h : g ≠ .d) (on : Bool) :
    (s.setFlag .d d).setFlag g on = (s.setFlag g on).setFlag .d d :=
  congrArg s.setP (putFlag_comm h on d s.p)

@[simp] theorem setA_setDecimal (v : Byte) : (s.setFlag .d d).setA v = (s.setA v).setFlag .d d := rfl

@[simp] theorem setSp_setDecimal (v : Byte) : (s.setFlag .d d).setSp v = (s.setSp v).setFlag .d d := rfl

@[simp] theorem setPc_setDecimal (v : Word) : (s.setFlag .d d).setPc v = (s.setPc v).setFlag .d d := rfl

@[simp] theorem busWrite_setDecimal (a : Word) (v : Byte) :
    (s.setFlag .d d).busWrite a v = (s.busWrite a v).setFlag .d d := rfl

@[simp] theorem push_setDecimal (v : Byte) : (s.setFlag .d d).push v = (s.push v).setFlag .d d := rfl

@[simp] theorem pull_setDecimal : (s.setFlag .d d).pull = s.pull.setFlag .d d := rfl

@[simp] theorem pushWord_setDecimal (w : Word) :
    (s.setFlag .d d).pushWord w = (s.pushWord w).setFlag .d d := by
  simp [State.pushWord]

@[simp] theorem pullWord_setDecimal : (s.setFlag .d d).pullWord = s.pullWord.setFlag .d d := by
  simp [State.pullWord]

@[simp] theorem top_setDecimal : (s.setFlag .d d).top = s.top := rfl

@[simp] theorem topWord_setDecimal : (s.setFlag .d d).topWord = s.topWord := by
  simp [State.topWord]

/-! The operations of the machine. -/

@[simp] theorem resolve_setDecimal (o : Operand) :
    (s.setFlag .d d).resolve o = (s.resolve o).setFlag .d d := by
  cases o <;> rfl

@[simp] theorem pageCross_setDecimal (o : Operand) : pageCross o (s.setFlag .d d) = pageCross o s := by
  cases o <;> rfl

@[simp] theorem fetchOperand_setDecimal (o : Operand) :
    (s.setFlag .d d).fetchOperand o = (s.fetchOperand o).setFlag .d d := by
  cases o <;> rfl

@[simp] theorem addExtra_setDecimal (both : Bool) :
    (s.setFlag .d d).addExtra both = (s.addExtra both).setFlag .d d := by
  cases both <;> rfl

@[simp] theorem branch_setDecimal (taken : Bool) :
    (s.setFlag .d d).branch taken = (s.branch taken).setFlag .d d := by
  cases taken <;> rfl

@[simp] theorem setZN_setDecimal (v : Byte) :
    (s.setFlag .d d).setZN v = (s.setZN v).setFlag .d d := by
  simp [State.setZN]

@[simp] theorem loadA_setDecimal (v : Byte) : (s.setFlag .d d).loadA v = (s.loadA v).setFlag .d d :=
  setZN_setDecimal (s.setA v) d v

@[simp] theorem loadX_setDecimal (v : Byte) : (s.setFlag .d d).loadX v = (s.loadX v).setFlag .d d :=
  setZN_setDecimal (s.setX v) d v

@[simp] theorem loadY_setDecimal (v : Byte) : (s.setFlag .d d).loadY v = (s.loadY v).setFlag .d d :=
  setZN_setDecimal (s.setY v) d v

@[simp] theorem storeZN_setDecimal (v : Byte) :
    (s.setFlag .d d).storeZN v = (s.storeZN v).setFlag .d d :=
  setZN_setDecimal (s.busWrite s.addrAbs v) d v

@[simp] theorem addWithCarry_setDecimal (m : Byte) :
    (s.setFlag .d d).addWithCarry m = (s.addWithCarry m).setFlag .d d := by
  have hsum : (s.setFlag .d d).carrySum m = s.carrySum m := by simp [State.carrySum, State.flagNat]
  simp [State.addWithCarry, hsum]

@[simp] theorem compareFlags_setDecimal (reg m : Byte) :
    (s.setFlag .d d).compareFlags reg m = (s.compareFlags reg m).setFlag .d d := by
  simp [State.compareFlags]

@[simp] theorem bitFlags_setDecimal (m : Byte) :
    (s.setFlag .d d).bitFlags m = (s.bitFlags m).setFlag .d d := by
  simp [State.bitFlags]

@[simp] theorem shiftTo_setDecimal (o : Operand) (out : Bool) (v : Byte) :
    (s.setFlag .d d).shiftTo o out v = (s.shiftTo o out v).setFlag .d d := by
  have hflags : (s.setFlag .d d).shiftFlags out v = (s.shiftFlags out v).setFlag .d d := by
    simp [State.shiftFlags]
  rw [State.shiftTo, hflags, State.shiftTo]
  cases o <;> rfl

/-- Every instruction but the six that push or write P as a whole, or write D. -/
theorem exec_setDecimal {i : Instr} (hi : i.mnemonic ∉ [Mnemonic.sed, .cld, .php, .plp, .brk, .rti]) :
    Yields i s (fun t => exec i (s.setFlag .d d) = .next (t.setFlag .d d)) := by
  cases i with
  | adc o | sbc o | and o | ora o | eor o | bit o | cmp o | cpx o | cpy o | lda o | ldx o | ldy o
  | asl o | lsr o | rol o | ror o | inc o | dec o | sta o | stx o | sty o | jmp o | und _ _ o =>
    exact ⟨_, rfl, congrArg Host.Outcome.next (by simp)⟩
  | inx | iny | dex | dey | tax | tay | txa | tya | tsx | txs | pha | pla | rts
  | clc | sec | cli | sei | clv | nop | jsr _ =>
    exact ⟨_, rfl, congrArg Host.Outcome.next (by simp)⟩
  | bcc r | bcs r | beq r | bne r | bpl r | bmi r | bvc r | bvs r =>
    exact ⟨_, rfl, congrArg Host.Outcome.next (by simp)⟩
  | sed | cld | php | plp | brk | rti => simp [Instr.mnemonic] at hi

end Sys2Proof.Machine

open Sys2Proof Sys2Proof.Machine

/-- Settles O12: the eight bits of a byte. -/
theorem statusLayout : Obligations.StatusLayout := by
  have hbits : ∀ p : Byte, p.toNat = (getFlag .c p).toNat + 2 * (getFlag .z p).toNat +
      4 * (getFlag .i p).toNat + 8 * (getFlag .d p).toNat + 16 * (getFlag .b p).toNat +
      32 * (getFlag .u p).toNat + 64 * (getFlag .v p).toNat + 128 * (getFlag .n p).toNat := by
    decide +kernel
  exact fun s => hbits s.p

/-- Settles O15: what an instruction does commutes with a write of the Decimal flag. -/
theorem decimalFlagHasNoEffect : Obligations.DecimalFlagHasNoEffect :=
  fun _ s _ d hi ht => (exec_setDecimal s d hi).of_exec ht

end
